-- ==== Sys2Proof/Word.lean ====
section
/-! DEFINITION. The widths OWC's values have (00_scope.md section 5: every value is unsigned). A `u1` is a `Bool` (1 is `true`); wider values are bit vectors. -/

namespace Sys2Proof

/-- A `u1`: one bit of the line, a flag field or a one-bit register (log 12). -/
abbrev Bit := Bool

/-- A `u8`: a byte of BUF, of `rom`, of the wire. -/
abbrev Byte := BitVec 8

/-- A `u16`: the 16-bit CRC, its seed, the V field. -/
abbrev Half := BitVec 16

/-- A command word, format `CMD64` (30_encoding.md R60). -/
abbrev Cmd64 := BitVec 64

/-- A response word, format `RSP32` (30_encoding.md R60). -/
abbrev Rsp32 := BitVec 32

end Sys2Proof
end

