-- ==== Sys2Proof/Config.lean ====
section
/-! DEFINITION. What an implementation fixes: the type of the parameter record of 00_scope.md R7 (its values are `Config.params` in Machine/Params.lean), and the free values the spec leaves open. -/

namespace Sys2Proof

/-- The implementation parameters of 00_scope.md R7, one field a row of its table. `GAP` is a free value
(`Config.freeGap`), `N_INSTANCES` is any (Machine/Instances.lean). Durations are in microseconds. -/
structure Config.Params where
  /-- `RESET_POLL_N`: most samples taken while waiting for the line to read high. -/
  resetPollN : Nat
  /-- `RESET_POLL_US`: wait before each such sample. -/
  resetPollUs : Nat
  /-- `T_RSTL`: reset pulse, line driven low. -/
  tRstl : Nat
  /-- `T_PDS`: release to presence sample. -/
  tPds : Nat
  /-- `T_RSTREC`: presence sample to end of reset. -/
  tRstrec : Nat
  /-- `T_W1L`: write-1 slot, line driven low. -/
  tW1l : Nat
  /-- `T_W1H`: write-1 slot, line driven high. -/
  tW1h : Nat
  /-- `T_W0L`: write-0 slot, line driven low. -/
  tW0l : Nat
  /-- `T_W0H`: write-0 slot, line driven high. -/
  tW0h : Nat
  /-- `T_RL`: read slot, line driven low. -/
  tRl : Nat
  /-- `T_RS`: read slot, release to sample. -/
  tRs : Nat
  /-- `T_RREC`: read slot, sample to end of slot. -/
  tRrec : Nat
  /-- `CMD_MATCH_ROM`: wire command byte sent by SELECT. -/
  cmdMatchRom : Byte
  /-- `CMD_SKIP_ROM`: wire command byte sent by SKIP. -/
  cmdSkipRom : Byte
  /-- `CMD_SEARCH`: wire command byte of the unconditional search. -/
  cmdSearch : Byte
  /-- `CMD_COND_SEARCH`: wire command byte of the conditional search. -/
  cmdCondSearch : Byte
  /-- `CRC8_POLY`: 8-bit CRC feedback constant, right-shifting form. -/
  crc8Poly : Byte
  /-- `CRC16_POLY`: 16-bit CRC feedback constant, right-shifting form. -/
  crc16Poly : Half
  /-- `CRC16_PAR`: constant of the nibble-parity form of the same CRC. -/
  crc16Par : Half
  /-- `ROM_BITS`: bits in a device address. -/
  romBits : Nat
  /-- `BUF_BYTES`: size of the data buffer. -/
  bufBytes : Nat
  /-- `TOL_US`: tolerance on every duration. -/
  tolUs : Nat
  deriving DecidableEq, Repr

/-! The free values. The first argument of each is the physical line the instance is bound to (`State.line`), so that nothing
relates the values two instances draw (00_scope.md R5, 60_exceptions.md R213; log 16). -/

/-- FREE VALUE (U2, D20, R6): the bit the environment of a line answers to the n-th sample beyond the answers that
`State.samples` lists, `freeSample line n`. Nothing constrains it (log 5). -/
opaque Config.freeSample : Nat → Nat → Bit

/-- FREE VALUE (U4, D10, R229): the length in microseconds of the n-th gap between two atomic timing sections of
one command, at least 0, `freeGap line n`. Nothing constrains it (log 6). -/
opaque Config.freeGap : Nat → Nat → Nat

/-- FREE VALUE (U1, R36, D6): what the BUF byte at an address holds while nothing has written it since the n-th
hardware reset of that instance, `freeBufByte line n address`. Nothing constrains it (log 7). -/
opaque Config.freeBufByte : Nat → Nat → Nat → Byte

end Sys2Proof
end

