-- ==== Sys2Proof/Machine/Params.lean ====
section
/-! DEFINITION. The values of the parameter record (00_scope.md R7; U14: the literals are normative and stand here once). -/

namespace Sys2Proof

/-- The parameters with the value this hardware takes (00_scope.md R7). -/
def Config.params : Config.Params where
  resetPollN := 125
  resetPollUs := 2
  tRstl := 480
  tPds := 70
  tRstrec := 410
  tW1l := 10
  tW1h := 55
  tW0l := 65
  tW0h := 5
  tRl := 3
  tRs := 10
  tRrec := 53
  cmdMatchRom := 0x55
  cmdSkipRom := 0xCC
  cmdSearch := 0xF0
  cmdCondSearch := 0xEC
  crc8Poly := 0x8C
  crc16Poly := 0xA001
  crc16Par := 0xC001
  romBits := 64
  bufBytes := 256
  tolUs := 0

end Sys2Proof
end

