-- ==== Sys2Proof/Syntax.lean ====
section
/-! DEFINITION. The instructions: one constructor per row of opcode_table.json, operands in the order of 30_encoding.md R71. -/

namespace Sys2Proof

/-- The twenty host commands of 30_encoding.md R62 and, after them, the four wire command bytes of R74.
`v`, `p`, `m` are the F field, `d` is D, `a` is A, `n` is N, `c` is C, `seed` is S. -/
inductive Instr where
  -- the bus line driver (file 40)
  | reset
  | wbit (v : Bit)
  | rbit
  | wbyte (d : Byte) (p : Bit)
  | rbyte
  | wbytes (a n : Byte) (p : Bit)
  | rbytes (a n : Byte)
  | select (a : Byte)
  | skip
  | depower
  -- the device enumerator (file 41)
  | search (m : Bit)
  | rstsrch
  | tgtsrch (d : Byte)
  | rdss
  | rom2buf (a : Byte)
  -- the CRC engine (file 42)
  | crc8 (a n : Byte)
  | crc16 (a n : Byte) (seed : Half)
  | chkcrc16 (a n c : Byte) (seed : Half)
  -- buffer access (file 43)
  | bufwr (a d : Byte)
  | bufrd (a : Byte)
  -- the wire command bytes OWC sends (30_encoding.md R74, R77): no host word decodes to one (log 8)
  | wireMatchRom
  | wireSkipRom
  | wireSearch
  | wireCondSearch
  deriving DecidableEq, Repr

end Sys2Proof
end

