-- ==== Sys2Proof/WellFormed.lean ====
section
/-! DEFINITION. When an instruction is well formed: every BUF range it names lies inside BUF (20_memory.md R44). Every other
operand is legal at every value of its field (30_encoding.md R61). An ill-formed command is refused with ERR_RANGE. -/

namespace Sys2Proof

/-- The BUF ranges a command names, as (start address, length) (20_memory.md R44). For CHKCRC16 the data range
stands before the C range, as it is checked (30_encoding.md R68). BUFWR and BUFRD name one byte each. -/
def Instr.ranges : Instr → List (Byte × Nat)
  | .wbytes a n _ => [(a, n.toNat)]
  | .rbytes a n => [(a, n.toNat)]
  | .select a => [(a, 8)]
  | .rom2buf a => [(a, 8)]
  | .crc8 a n => [(a, n.toNat)]
  | .crc16 a n _ => [(a, n.toNat)]
  | .chkcrc16 a n c _ => [(a, n.toNat), (c, 2)]
  | .bufwr a _ => [(a, 1)]
  | .bufrd a => [(a, 1)]
  | .reset | .wbit _ | .rbit | .wbyte _ _ | .rbyte | .skip | .depower => []
  | .search _ | .rstsrch | .tgtsrch _ | .rdss => []
  | .wireMatchRom | .wireSkipRom | .wireSearch | .wireCondSearch => []

/-- Every range the instruction names lies inside BUF, computed without wrap-around (20_memory.md R44). -/
abbrev Instr.WellFormed (i : Instr) : Prop :=
  ∀ r ∈ i.ranges, r.1.toNat + r.2 ≤ Config.params.bufBytes

end Sys2Proof
end

