-- ==== Sys2Proof/Decode.lean ====
section
/-! DEFINITION. Encodings (30_encoding.md): the fields of `CMD64`, the opcode table of R62, the decoder of R68 (total, rejecting
by name), the wire command bytes of R74, and the encoder. -/

namespace Sys2Proof

/-! ## The fields of a command word (R61) -/

/-- `OP`, bits 7:0. -/
def fieldOP (w : Cmd64) : Byte := w.extractLsb' 0 8
/-- `F`, bit 8. -/
def fieldF (w : Cmd64) : Bit := w.getLsbD 8
/-- `D`, bits 23:16. -/
def fieldD (w : Cmd64) : Byte := w.extractLsb' 16 8
/-- `A`, bits 31:24. -/
def fieldA (w : Cmd64) : Byte := w.extractLsb' 24 8
/-- `N`, bits 39:32. -/
def fieldN (w : Cmd64) : Byte := w.extractLsb' 32 8
/-- `C`, bits 47:40. -/
def fieldC (w : Cmd64) : Byte := w.extractLsb' 40 8
/-- `S`, bits 63:48. -/
def fieldS (w : Cmd64) : Half := w.extractLsb' 48 16

/-- A command word laid out from its fields, written as R61 writes it: `SSSS CC NN AA DD ff OO`, with `RSV` = 0. -/
def layCmd (s : Half) (c n a d : Byte) (f : Bit) (op : Byte) : Cmd64 :=
  s ++ c ++ n ++ a ++ d ++ (0#7 ++ BitVec.ofBool f) ++ op

/-! ## The opcode table (R62) -/

/-- The twenty rows of R62, in the order of R67. -/
inductive Op where
  | reset | wbit | rbit | wbyte | rbyte | wbytes | rbytes | select | skip | depower
  | search | rstsrch | tgtsrch | rdss | rom2buf
  | crc8 | crc16 | chkcrc16
  | bufwr | bufrd
  deriving DecidableEq, Repr

/-- Every row of the table. -/
def Op.all : List Op :=
  [.reset, .wbit, .rbit, .wbyte, .rbyte, .wbytes, .rbytes, .select, .skip, .depower,
   .search, .rstsrch, .tgtsrch, .rdss, .rom2buf, .crc8, .crc16, .chkcrc16, .bufwr, .bufrd]

/-- The column `OP` of R62. -/
def Op.code : Op → Byte
  | .reset => 0x01
  | .wbit => 0x02
  | .rbit => 0x03
  | .wbyte => 0x04
  | .rbyte => 0x05
  | .wbytes => 0x06
  | .rbytes => 0x07
  | .select => 0x08
  | .skip => 0x09
  | .depower => 0x0A
  | .search => 0x10
  | .rstsrch => 0x11
  | .tgtsrch => 0x12
  | .rdss => 0x13
  | .rom2buf => 0x14
  | .crc8 => 0x20
  | .crc16 => 0x21
  | .chkcrc16 => 0x22
  | .bufwr => 0x30
  | .bufrd => 0x31

/-- The column `match` of R62. -/
def Op.pattern : Op → Cmd64
  | .reset => 0x0000000000000001
  | .wbit => 0x0000000000000002
  | .rbit => 0x0000000000000003
  | .wbyte => 0x0000000000000004
  | .rbyte => 0x0000000000000005
  | .wbytes => 0x0000000000000006
  | .rbytes => 0x0000000000000007
  | .select => 0x0000000000000008
  | .skip => 0x0000000000000009
  | .depower => 0x000000000000000A
  | .search => 0x0000000000000010
  | .rstsrch => 0x0000000000000011
  | .tgtsrch => 0x0000000000000012
  | .rdss => 0x0000000000000013
  | .rom2buf => 0x0000000000000014
  | .crc8 => 0x0000000000000020
  | .crc16 => 0x0000000000000021
  | .chkcrc16 => 0x0000000000000022
  | .bufwr => 0x0000000000000030
  | .bufrd => 0x0000000000000031

/-- The column `mask` of R62: the bits that must equal `match`; the others are the fields the command uses. -/
def Op.mask : Op → Cmd64
  | .reset => 0xFFFFFFFFFFFFFFFF
  | .wbit => 0xFFFFFFFFFFFFFEFF
  | .rbit => 0xFFFFFFFFFFFFFFFF
  | .wbyte => 0xFFFFFFFFFF00FEFF
  | .rbyte => 0xFFFFFFFFFFFFFFFF
  | .wbytes => 0xFFFFFF0000FFFEFF
  | .rbytes => 0xFFFFFF0000FFFFFF
  | .select => 0xFFFFFFFF00FFFFFF
  | .skip => 0xFFFFFFFFFFFFFFFF
  | .depower => 0xFFFFFFFFFFFFFFFF
  | .search => 0xFFFFFFFFFFFFFEFF
  | .rstsrch => 0xFFFFFFFFFFFFFFFF
  | .tgtsrch => 0xFFFFFFFFFF00FFFF
  | .rdss => 0xFFFFFFFFFFFFFFFF
  | .rom2buf => 0xFFFFFFFF00FFFFFF
  | .crc8 => 0xFFFFFF0000FFFFFF
  | .crc16 => 0x0000FF0000FFFFFF
  | .chkcrc16 => 0x0000000000FFFFFF
  | .bufwr => 0xFFFFFFFF0000FFFF
  | .bufrd => 0xFFFFFFFF00FFFFFF

/-- The row whose `OP` a word carries; none for every illegal value (R69). -/
def Op.ofCode (b : Byte) : Option Op := Op.all.find? fun o => o.code == b

/-- The instruction a row's word spells, each operand read from its field (R61, R62). -/
def Op.instr (w : Cmd64) : Op → Instr
  | .reset => .reset
  | .wbit => .wbit (fieldF w)
  | .rbit => .rbit
  | .wbyte => .wbyte (fieldD w) (fieldF w)
  | .rbyte => .rbyte
  | .wbytes => .wbytes (fieldA w) (fieldN w) (fieldF w)
  | .rbytes => .rbytes (fieldA w) (fieldN w)
  | .select => .select (fieldA w)
  | .skip => .skip
  | .depower => .depower
  | .search => .search (fieldF w)
  | .rstsrch => .rstsrch
  | .tgtsrch => .tgtsrch (fieldD w)
  | .rdss => .rdss
  | .rom2buf => .rom2buf (fieldA w)
  | .crc8 => .crc8 (fieldA w) (fieldN w)
  | .crc16 => .crc16 (fieldA w) (fieldN w) (fieldS w)
  | .chkcrc16 => .chkcrc16 (fieldA w) (fieldN w) (fieldC w) (fieldS w)
  | .bufwr => .bufwr (fieldA w) (fieldD w)
  | .bufrd => .bufrd (fieldA w)

/-! ## The decoder (R68) -/

/-- Why the decoder turns a word away. -/
inductive Reject where
  /-- `OP` names no command (R69; 60_exceptions.md R202). Safe: the spec's own refusal. -/
  | opcode
  /-- `RSV` or a field the command does not use is not 0 (R62; 60_exceptions.md R203). Safe: the spec's own refusal. -/
  | field
  deriving DecidableEq, Repr

/-- Checks (1) and (2) of R68, in that order: `OP` is one of the twenty, then every reserved bit is 0, which is
`(w & mask) = match` (60_exceptions.md R203). Check (3), the BUF ranges, is each command's own first act. -/
def decodeCmd (w : Cmd64) : Except Reject Instr :=
  match Op.ofCode (fieldOP w) with
  | none => .error .opcode
  | some o => if w &&& o.mask = o.pattern then .ok (o.instr w) else .error .field

/-! ## The wire command bytes (R74) -/

/-- The wire command byte a wire row stands for (R74; format `WIRE8`); none for a host command. -/
def Instr.wireByte : Instr → Option Byte
  | .wireMatchRom => some 0x55
  | .wireSkipRom => some 0xCC
  | .wireSearch => some 0xF0
  | .wireCondSearch => some 0xEC
  | .reset | .wbit _ | .rbit | .wbyte _ _ | .rbyte | .wbytes _ _ _ | .rbytes _ _ | .select _ | .skip | .depower => none
  | .search _ | .rstsrch | .tgtsrch _ | .rdss | .rom2buf _ => none
  | .crc8 _ _ | .crc16 _ _ _ | .chkcrc16 _ _ _ _ | .bufwr _ _ | .bufrd _ => none

/-- What a byte on the wire is as one of OWC's four wire command bytes (R74): the reading of the format `WIRE8`,
which the devices do and OWC's host port never does (R77; log 8). -/
def decodeWire (b : Byte) : Option Instr :=
  [Instr.wireMatchRom, .wireSkipRom, .wireSearch, .wireCondSearch].find? fun i => i.wireByte == some b

/-! ## The encoder -/

/-- A code of the opcode table: a host command word or a byte on the wire (R60: the two sides). -/
inductive Code where
  | cmd64 (w : Cmd64)
  | wire8 (b : Byte)
  deriving DecidableEq, Repr

/-- The code of an instruction (R61, R62, R74): every field it does not use is 0. -/
def encode : Instr → Code
  | .reset => .cmd64 (layCmd 0 0 0 0 0 false 0x01)
  | .wbit v => .cmd64 (layCmd 0 0 0 0 0 v 0x02)
  | .rbit => .cmd64 (layCmd 0 0 0 0 0 false 0x03)
  | .wbyte d p => .cmd64 (layCmd 0 0 0 0 d p 0x04)
  | .rbyte => .cmd64 (layCmd 0 0 0 0 0 false 0x05)
  | .wbytes a n p => .cmd64 (layCmd 0 0 n a 0 p 0x06)
  | .rbytes a n => .cmd64 (layCmd 0 0 n a 0 false 0x07)
  | .select a => .cmd64 (layCmd 0 0 0 a 0 false 0x08)
  | .skip => .cmd64 (layCmd 0 0 0 0 0 false 0x09)
  | .depower => .cmd64 (layCmd 0 0 0 0 0 false 0x0A)
  | .search m => .cmd64 (layCmd 0 0 0 0 0 m 0x10)
  | .rstsrch => .cmd64 (layCmd 0 0 0 0 0 false 0x11)
  | .tgtsrch d => .cmd64 (layCmd 0 0 0 0 d false 0x12)
  | .rdss => .cmd64 (layCmd 0 0 0 0 0 false 0x13)
  | .rom2buf a => .cmd64 (layCmd 0 0 0 a 0 false 0x14)
  | .crc8 a n => .cmd64 (layCmd 0 0 n a 0 false 0x20)
  | .crc16 a n s => .cmd64 (layCmd s 0 n a 0 false 0x21)
  | .chkcrc16 a n c s => .cmd64 (layCmd s c n a 0 false 0x22)
  | .bufwr a d => .cmd64 (layCmd 0 0 0 a d false 0x30)
  | .bufrd a => .cmd64 (layCmd 0 0 0 a 0 false 0x31)
  | .wireMatchRom => .wire8 0x55
  | .wireSkipRom => .wire8 0xCC
  | .wireSearch => .wire8 0xF0
  | .wireCondSearch => .wire8 0xEC

/-- Reading a code of either side. -/
def decodeCode : Code → Option Instr
  | .cmd64 w => (decodeCmd w).toOption
  | .wire8 b => decodeWire b

/-- The instruction read from a row of opcode_table.json: an 8-bit row is of the format `WIRE8` where its byte is a
wire command byte (no `CMD64` word with that `OP` is legal); every other word is the command word with those bits. -/
def decodeTableWord (nbits w : Nat) : Option Instr :=
  let w := w % 2 ^ nbits
  match if nbits = 8 then decodeWire (BitVec.ofNat 8 w) else none with
  | some i => some i
  | none => (decodeCmd (BitVec.ofNat 64 w)).toOption

end Sys2Proof
end

