-- ==== Sys2Proof/Machine/State.lean ====
section
/-! DEFINITION. The state of one OWC instance (10_state.md R20), the host port and pad it is seen through, and the reasons a step stops. -/

namespace Sys2Proof.Machine

/-- An event of the pad trace (00_scope.md R13). -/
inductive PadEvent where
  /-- `D(oe,out)`: the driver outputs take these values at this instant. -/
  | drive (oe out : Bit)
  /-- `W(n)`: n microseconds pass with the driver outputs held. -/
  | wait (n : Nat)
  /-- `S(v)`: the line input is sampled and the environment answers v. -/
  | sample (v : Bit)
  /-- `[`: an atomic timing section begins. -/
  | sectBegin
  /-- `]`: an atomic timing section ends. -/
  | sectEnd
  /-- `GAP`: g microseconds between two sections of one command, the drawn `W(g)` of U4 (log 6). -/
  | gap (g : Nat)
  deriving DecidableEq, Repr

/-- The status codes of a response (30_encoding.md R64). -/
inductive Status where
  /-- The command was accepted and ran to its end. -/
  | ok
  /-- `OP` names no command. -/
  | errOpcode
  /-- A reserved field is not 0. -/
  | errField
  /-- A BUF range leaves BUF. -/
  | errRange
  deriving DecidableEq, Repr

/-- The bytes of BUF written since reset, as (address, byte), addresses strictly rising (`Memory.wf`, Machine/Ops.lean).
An unlisted address holds no listed value; reading it gives a free value (`State.bufByte`; log 7). -/
abbrev Memory := List Host.Cell

/-- One OWC instance. -/
structure State where
  /-- `OE`: 1 the pad drives the line, 0 it floats (10_state.md R23). -/
  oe : Bit
  /-- `OUT`: the level latch (10_state.md R23). -/
  out : Bit
  /-- `rom[0..7]` (10_state.md R25). -/
  rom : Vector Byte 8
  /-- `LD`, the last discrepancy (10_state.md R26). -/
  ld : BitVec 7
  /-- `LFD`, the last family discrepancy (10_state.md R27). -/
  lfd : BitVec 4
  /-- `LDF`, the last device flag (10_state.md R28). -/
  ldf : Bit
  /-- `BUF` (10_state.md R30). -/
  buf : Memory
  /-- *busy*, the hidden bit behind the host port (10_state.md R32). -/
  busy : Bit
  /-- The response channel: `rsp` while `rsp_valid` = 1, none while it is 0 (10_state.md R32; log 3). -/
  rsp : Option Rsp32
  /-- The command channel: the words the host has still to give, first first; `cmd_valid` = 0 when empty (log 1). -/
  cmds : List Cmd64
  /-- `dq_in`: the environment's answers to the next samples, first first (10_state.md R24; log 5). -/
  samples : List Bit
  /-- How many samples were answered by the free value `Config.freeSample` (log 5). -/
  sampleDraws : Nat
  /-- The pad trace of the run so far, oldest event first (00_scope.md R13; log 4). -/
  trace : List PadEvent
  /-- How many gaps were drawn from the free value `Config.freeGap` (log 6). -/
  gapDraws : Nat
  /-- How many hardware resets came after the first; it selects the free values of unwritten BUF bytes (log 7). -/
  bufEpoch : Nat
  /-- Which physical line the instance is bound to (00_scope.md R5). The model's own name for an instance: no command reads or
  writes it (60_exceptions.md R213: no identifier register). It selects the instance's free values (DESIGN CHOICE, log 16). -/
  line : Nat
  deriving DecidableEq, Repr

/-- Why a step stops. OWC itself never stops: it raises no exception and takes no trap (60_exceptions.md R200). -/
inductive Fault where
  /-- Raised by `step` in a state with *busy* = 1, which is no command boundary (10_state.md R32): the model steps
  command by command and has no step from there. No run reaches such a state. Safe. -/
  | midCommand
  deriving DecidableEq, Repr

/-- Why a step is refused. No arm of `exec` and no meaning uses it: OWC's own refusals are responses
(60_exceptions.md R201), next states of the model. -/
inductive Refusal where
  /-- An instruction without a meaning, by its mnemonic in opcode_table.json. Raised by nobody. Safe. -/
  | notModelled (mnemonic : String)
  deriving DecidableEq, Repr

/-- The machine right after hardware reset (10_state.md R35, 70_reset_and_hazards.md R220): the line released, the search
state in the zero state, not busy, no response, BUF unwritten. The inputs (`cmds`, `samples`) and the model's own counters
start empty and at 0 (DESIGN CHOICE, log 11). -/
def State.reset : State where
  oe := false
  out := false
  rom := Vector.replicate 8 0
  ld := 0
  lfd := 0
  ldf := false
  buf := []
  busy := false
  rsp := none
  cmds := []
  samples := []
  sampleDraws := 0
  trace := []
  gapDraws := 0
  bufEpoch := 0
  line := 0

end Sys2Proof.Machine
end

