-- ==== Sys2Proof/Machine/Flags.lean ====
section
/-! DEFINITION. What a command reports. OWC has no persistent flag (10_state.md R31): the one place a flag stands is the response
word's ST, R and V fields (30_encoding.md R63 to R65). -/

namespace Sys2Proof.Machine

/-- The 4-bit code of a status (30_encoding.md R64). -/
def Status.code : Status → BitVec 4
  | .ok => 0
  | .errOpcode => 1
  | .errField => 2
  | .errRange => 3

/-- The status a word the decoder turned away is refused with (60_exceptions.md R202, R203). -/
def rejectStatus : Reject → Status
  | .opcode => .errOpcode
  | .field => .errField

/-- `RSP32` (30_encoding.md R63): V in 31:16, R in bit 8, ST in 3:0, every other bit 0. -/
def packRsp (st : Status) (r : Bit) (v : Half) : Rsp32 :=
  v ++ (0#7 ++ BitVec.ofBool r) ++ (0#4 ++ st.code)

/-- An 8-bit result in V: V[15:8] is 0 (30_encoding.md R63). -/
def valueOfByte (b : Byte) : Half := b.zeroExtend 16

/-- The V field of RDSS: `{0b0000, LFD[3:0], 0b0, LD[6:0]}` (41_rom_search.md R150). -/
def searchStateValue (ld : BitVec 7) (lfd : BitVec 4) : Half :=
  0#4 ++ lfd ++ (0#1 ++ ld)

/-! Reading a response word back (30_encoding.md R63). -/

/-- `ST`, bits 3:0. -/
def rspST (w : Rsp32) : BitVec 4 := w.extractLsb' 0 4
/-- `R`, bit 8. -/
def rspR (w : Rsp32) : Bit := w.getLsbD 8
/-- `V`, bits 31:16. -/
def rspV (w : Rsp32) : Half := w.extractLsb' 16 16

end Sys2Proof.Machine
end

