-- ==== Sys2Proof/Machine/Ops.lean ====
section
/-! DEFINITION. The named operations every meaning is written over: the line primitives, the environment's answers, BUF,
the ROM register file, the response, the refusal, hardware reset. -/

namespace Sys2Proof.Machine

/-! ## The pad and the port as signals (10_state.md R24, R32) -/

/-- `dq_oe` equals `OE` at all times. -/
def State.dqOe (s : State) : Bit := s.oe
/-- `dq_out` equals `OUT` at all times. -/
def State.dqOut (s : State) : Bit := s.out
/-- `cmd_valid`: the host offers a word. -/
def State.cmdValid (s : State) : Bit := !s.cmds.isEmpty
/-- `cmd_ready`: 0 from the acceptance of a command until its response, 1 otherwise. -/
def State.cmdReady (s : State) : Bit := !s.busy
/-- `rsp_valid`: a response is being given. -/
def State.rspValid (s : State) : Bit := s.rsp.isSome

/-! ## The line primitives (00_scope.md section 6) -/

/-- One more event at the end of the pad trace. -/
def State.emit (s : State) (e : PadEvent) : State := { s with trace := s.trace ++ [e] }

/-- `Drive(oe, out)`: both bits at the same instant; appends `D(oe,out)`, also when nothing changes (R13). -/
def State.drive (s : State) (oe out : Bit) : State := { s with oe := oe, out := out }.emit (.drive oe out)

/-- `Wait(n)`: n microseconds pass; appends `W(n)`. -/
def State.wait (s : State) (n : Nat) : State := s.emit (.wait n)

/-- `Begin`: opens an atomic timing section. -/
def State.sectBegin (s : State) : State := s.emit .sectBegin

/-- `End`: closes an atomic timing section. -/
def State.sectEnd (s : State) : State := s.emit .sectEnd

/-- The bit the environment will answer to the k-th sample from now (k = 0 is the next): the listed answers first,
then the free value (00_scope.md R6, R9; U2). -/
def State.answer (s : State) (k : Nat) : Bit :=
  match s.samples[k]? with
  | some b => b
  | none => Config.freeSample s.line (s.sampleDraws + (k - s.samples.length))

/-- n answers of the environment are used up. -/
def State.consume (s : State) (n : Nat) : State :=
  { s with samples := s.samples.drop n, sampleDraws := s.sampleDraws + (n - s.samples.length) }

/-- `Sample()`: the bit on the line input now; appends `S(v)`. -/
def State.sample (s : State) : Bit × State :=
  (s.answer 0, (s.consume 1).emit (.sample (s.answer 0)))

/-- `GAP`: the time between two sections of one command, a free value, drawn afresh (00_scope.md R7, R229). `OE` and
`OUT` hold. -/
def State.gap (s : State) : State :=
  { s with gapDraws := s.gapDraws + 1 }.emit (.gap (Config.freeGap s.line s.gapDraws))

/-! ## Reading a pad trace -/

/-- Is the event a gap? -/
def PadEvent.isGap : PadEvent → Bool
  | .gap _ => true
  | .drive _ _ | .wait _ | .sample _ | .sectBegin | .sectEnd => false

/-- A trace with `GAP` = 0, as the spec writes traces: the gap events left out (70_reset_and_hazards.md R229). -/
def dropGaps (t : List PadEvent) : List PadEvent := t.filter fun e => !e.isGap

/-- The run's pad trace with the gaps left out. -/
def State.padTrace (s : State) : List PadEvent := dropGaps s.trace

/-- The microseconds of a `W` event; gaps are not counted (70_reset_and_hazards.md R237). -/
def PadEvent.micros : PadEvent → Nat
  | .wait n => n
  | .drive _ _ | .sample _ | .sectBegin | .sectEnd | .gap _ => 0

/-- The duration of a piece of trace in microseconds, gaps not counted (70_reset_and_hazards.md R237). -/
def duration (t : List PadEvent) : Nat := (t.map PadEvent.micros).sum

/-- The microseconds a `W(n)` may really take: n to within `TOL_US` (70_reset_and_hazards.md R238; log 9). -/
def waitAdmits (n actual : Nat) : Bool :=
  decide (n ≤ actual + Config.params.tolUs ∧ actual ≤ n + Config.params.tolUs)

/-! ## BUF (20_memory.md) -/

/-- The byte listed at an address. -/
def Memory.get? : Memory → Nat → Option Byte
  | [], _ => none
  | (k, v) :: m, a => if k = a then some v else Memory.get? m a

/-- One byte written; the list stays in rising order of address. -/
def Memory.set : Memory → Nat → Byte → Memory
  | [], a, v => [(a, v)]
  | (k, w) :: m, a, v =>
    if a < k then (a, v) :: (k, w) :: m
    else if a = k then (a, v) :: m
    else (k, w) :: Memory.set m a v

/-- The canonical form: addresses strictly rising and inside BUF (R40). An unlisted address holds no listed value,
so no entry can equal what an unlisted address holds. -/
abbrev Memory.wf (m : Memory) : Prop :=
  m.Pairwise (fun x y => x.1 < y.1) ∧ ∀ c ∈ m, c.1 < Config.params.bufBytes

/-- `MemRead(addr, 1)`: the last value written to that location or, if none since reset, the free value of that
location of that instance (20_memory.md R49, 10_state.md R36, U1). DESIGN CHOICE: the free value is selected by the
instance's line, the count of its resets and the address, so two reads of one unwritten byte agree and nothing relates
the unwritten bytes of two instances, or of one instance before and after a reset (log 7, log 16). -/
def State.bufByte (s : State) (a : Nat) : Byte :=
  (Memory.get? s.buf a).getD (Config.freeBufByte s.line s.bufEpoch a)

/-- `MemWrite(addr, 1, v)` (20_memory.md R49). -/
def State.setBufByte (s : State) (a : Nat) (v : Byte) : State := { s with buf := Memory.set s.buf a v }

/-! ## Bits of bytes, and the ROM register file (20_memory.md R45) -/

/-- `x[j] <- b`: one bit of a byte written, the others kept. -/
def setBit (x : Byte) (j : Nat) (b : Bit) : Byte :=
  if b then x ||| (1#8 <<< j) else x &&& ~~~(1#8 <<< j)

/-- `rom[i]`. -/
def romByte (rom : Vector Byte 8) (i : Nat) : Byte := rom.getD i 0

/-- The bit of a ROM address at position p, 1..64: bit (p-1) mod 8 of byte (p-1) div 8 (R45). -/
def romBit (rom : Vector Byte 8) (p : Nat) : Bit := (romByte rom ((p - 1) / 8)).getLsbD ((p - 1) % 8)

/-- `rom[(p-1) div 8][(p-1) mod 8] <- d`. -/
def setRomBit (rom : Vector Byte 8) (p : Nat) (d : Bit) : Vector Byte 8 :=
  rom.setIfInBounds ((p - 1) / 8) (setBit (romByte rom ((p - 1) / 8)) ((p - 1) % 8) d)

/-- All eight bytes are 0x00 (41_rom_search.md R142). -/
def romAllZero (rom : Vector Byte 8) : Bool := rom.toList.all fun b => b == 0

/-! ## The host port, the response and the refusal -/

/-- A command is accepted: `cmd_ready` goes to 0 and the word leaves the command channel; `rsp_valid` was 1 for one
instant only (10_state.md R32). `rest` is what the host has still to give. -/
def State.accept (s : State) (rest : List Cmd64) : State := { s with cmds := rest, busy := true, rsp := none }

/-- `return (R = r, V = v)` with a status: the response is given and the port is ready again (10_state.md R32). -/
def State.respond (s : State) (st : Status) (r : Bit) (v : Half) : State :=
  { s with rsp := some (packRsp st r v), busy := false }

/-- `raise Refuse(code)` (60_exceptions.md R201): the response carries the code with R = 0 and V = 0, and nothing else
happens. OWC's one abnormal outcome; OWC then waits for the next command as after any response (R207), so no return
from it exists. -/
def State.refuse (s : State) (st : Status) : State := s.respond st false 0

/-- Hardware reset `rst`, at a command boundary or inside a command (70_reset_and_hazards.md R220, R221): OWC's state takes
its reset values, the command under way ends without a response, the contents of BUF are unspecified anew. The host's
and the environment's inputs stay. No step performs it: a run has no reset event (U6; log 10). -/
def State.hwReset (s : State) : State :=
  { State.reset with
    cmds := s.cmds, samples := s.samples, sampleDraws := s.sampleDraws, gapDraws := s.gapDraws,
    bufEpoch := s.bufEpoch + 1, line := s.line }

end Sys2Proof.Machine
end

