-- ==== Sys2Proof/Machine/Operands.lean ====
section
/-! DEFINITION. The one addressing mode OWC has (43_buffer_access.md R182): an absolute start address, a length, ascending
byte accesses, and the range check of 20_memory.md R44. -/

namespace Sys2Proof.Machine

/-- The range check: `A + L <= 256` on natural numbers, no wrap (20_memory.md R44, 42_crc.md R169). -/
def rangeOk (a : Byte) (len : Nat) : Bool := decide (a.toNat + len ≤ Config.params.bufBytes)

/-- `MemRead(addr, n)`: n bytes from addr upward, each read once (20_memory.md R42). -/
def State.memRead (s : State) : Nat → Nat → List Byte
  | _, 0 => []
  | a, n + 1 => s.bufByte a :: State.memRead s (a + 1) n

/-- `MemWrite(addr, n, v)`: the bytes written from addr upward (20_memory.md R42). -/
def State.memWrite (s : State) : Nat → List Byte → State
  | _, [] => s
  | a, v :: vs => State.memWrite (s.setBufByte a v) (a + 1) vs

end Sys2Proof.Machine
end

