-- ==== Sys2Proof/Machine/BufferAccess.lean ====
section
/-! DEFINITION. Host access to the data buffer (43_buffer_access.md). -/

namespace Sys2Proof.Machine

/-- BUFWR a, d (R180): never refused, every 8-bit address is inside BUF. -/
def execBufwr (a d : Byte) (s : State) : Host.Outcome State Fault Refusal :=
  .next ((s.setBufByte a.toNat d).respond .ok false 0)

/-- BUFRD a (R181): the read has no side effect. -/
def execBufrd (a : Byte) (s : State) : Host.Outcome State Fault Refusal :=
  .next (s.respond .ok false (valueOfByte (s.bufByte a.toNat)))

end Sys2Proof.Machine
end

