-- ==== Sys2Proof/Machine/LineOps.lean ====
section
/-! DEFINITION. The micro-operations of the bus line driver (40_bus_line_driver.md section 1), pieces of sequencer behaviour shared
by the commands and by the search. A gap stands before every section of a command but one that is its first or follows a tail (log 6). -/

namespace Sys2Proof.Machine

/-- The poll of `op_reset`: wait, sample, at most n times, until a sample reads 1 (R101). Answers whether one did. -/
def resetPoll : Nat → State → Bit × State
  | 0, s => (false, s)
  | n + 1, s =>
    let r := (s.wait Config.params.resetPollUs).sample
    if r.1 then (true, r.2) else resetPoll n r.2

/-- The reset pulse and the presence sample, after the line has read high (R101): a low line is a presence pulse. -/
def resetPulse (s : State) : Bit × State :=
  let r := ((((s.drive true false).wait Config.params.tRstl).drive false false).wait Config.params.tPds).sample
  (!r.1, (r.2.wait Config.params.tRstrec).sectEnd)

/-- `op_reset()` (R101). -/
def opReset (s : State) : Bit × State :=
  let r := resetPoll Config.params.resetPollN (s.sectBegin.drive false s.out)
  if r.1 then resetPulse r.2 else (false, r.2.sectEnd)

/-- `op_wbit(v)` (R102): the second phase drives the line high. -/
def opWbit (v : Bit) (s : State) : State :=
  ((((s.sectBegin.drive true false).wait (if v then Config.params.tW1l else Config.params.tW0l)).drive true true).wait
    (if v then Config.params.tW1h else Config.params.tW0h)).sectEnd

/-- `op_rbit()` (R103): the bit is the level sampled. -/
def opRbit (s : State) : Bit × State :=
  let r := (((s.sectBegin.drive true false).wait Config.params.tRl).drive false false).wait Config.params.tRs |>.sample
  (r.1, (r.2.wait Config.params.tRrec).sectEnd)

/-- The write slots of bits i, i+1, ... of d, k of them, with a gap between neighbours (R100, R107). -/
def writeBits (d : Byte) : Nat → Nat → State → State
  | 0, _, s => s
  | k + 1, i, s => writeBits d k (i + 1) (opWbit (d.getLsbD i) (if i = 0 then s else s.gap))

/-- `op_wbyte(d, p)` (R107): eight slots, bit 0 first; with p = 0 the non-power tail (R108). -/
def opWbyte (d : Byte) (p : Bit) (s : State) : State :=
  let s1 := writeBits d 8 0 s
  if p then s1 else s1.gap.drive false false

/-- The read slots of bits i, i+1, ..., k of them, each bit put in its place of r (R110). -/
def readBits : Nat → Nat → Byte → State → Byte × State
  | 0, _, r, s => (r, s)
  | k + 1, i, r, s =>
    let b := opRbit (if i = 0 then s else s.gap)
    readBits k (i + 1) (setBit r i b.1) b.2

/-- `op_rbyte()` (R110): the first slot's bit becomes bit 0. -/
def opRbyte (s : State) : Byte × State := readBits 8 0 0 s

/-- Bytes written in order, every one but the last with hold-power 0, the last with p (R112). -/
def writeBytes : List Byte → Bit → State → State
  | [], _, s => s
  | b :: bs, p, s => writeBytes bs p (opWbyte b (bs.isEmpty && p) s)

/-- k bytes read into BUF from address a upward (R113); i counts the bytes already read, a gap stands between bytes. -/
def readBytes : Nat → Nat → Nat → State → State
  | 0, _, _, s => s
  | k + 1, i, a, s =>
    let r := opRbyte (if i = 0 then s else s.gap)
    readBytes k (i + 1) (a + 1) (r.2.setBufByte a r.1)

end Sys2Proof.Machine
end

