-- ==== Sys2Proof/Machine/BusDriver.lean ====
section
/-! DEFINITION. The bus line driver commands (40_bus_line_driver.md section 2). -/

namespace Sys2Proof.Machine

/-- RESET (R104). -/
def execReset (s : State) : Host.Outcome State Fault Refusal :=
  .next (let r := opReset s; r.2.respond .ok r.1 0)

/-- WBIT v (R105). -/
def execWbit (v : Bit) (s : State) : Host.Outcome State Fault Refusal :=
  .next ((opWbit v s).respond .ok false 0)

/-- RBIT (R106). -/
def execRbit (s : State) : Host.Outcome State Fault Refusal :=
  .next (let r := opRbit s; r.2.respond .ok r.1 0)

/-- WBYTE d, p (R109). -/
def execWbyte (d : Byte) (p : Bit) (s : State) : Host.Outcome State Fault Refusal :=
  .next ((opWbyte d p s).respond .ok false 0)

/-- RBYTE (R111). -/
def execRbyte (s : State) : Host.Outcome State Fault Refusal :=
  .next (let r := opRbyte s; r.2.respond .ok false (valueOfByte r.1))

/-- WBYTES a, n, p (R112). Reading the whole range first is not observable (20_memory.md R53). -/
def execWbytes (a n : Byte) (p : Bit) (s : State) : Host.Outcome State Fault Refusal :=
  .next (if rangeOk a n.toNat then (writeBytes (s.memRead a.toNat n.toNat) p s).respond .ok false 0
    else s.refuse .errRange)

/-- RBYTES a, n (R113). -/
def execRbytes (a n : Byte) (s : State) : Host.Outcome State Fault Refusal :=
  .next (if rangeOk a n.toNat then (readBytes n.toNat 0 a.toNat s).respond .ok false 0 else s.refuse .errRange)

/-- SELECT a (R114): the match-ROM byte, then the eight bytes, all with hold-power 0. -/
def execSelect (a : Byte) (s : State) : Host.Outcome State Fault Refusal :=
  .next (if rangeOk a 8 then
      (writeBytes (s.memRead a.toNat 8) false (opWbyte Config.params.cmdMatchRom false s)).respond .ok false 0
    else s.refuse .errRange)

/-- SKIP (R115). -/
def execSkip (s : State) : Host.Outcome State Fault Refusal :=
  .next ((opWbyte Config.params.cmdSkipRom false s).respond .ok false 0)

/-- DEPOWER (R116): release, the latch keeps its value. -/
def execDepower (s : State) : Host.Outcome State Fault Refusal :=
  .next ((s.drive false s.out).respond .ok false 0)

end Sys2Proof.Machine
end

