-- ==== Sys2Proof/Machine/CrcEngine.lean ====
section
/-! DEFINITION. The CRC engine (42_crc.md): pure functions and the three commands that apply them to BUF. -/

namespace Sys2Proof.Machine

/-- k steps of the 8-bit shift register (R160): the low bits are compared, both registers shift right, the feedback constant
is exclusive-ored in on a difference. -/
def crc8Bits : Nat → Byte → Byte → Byte
  | 0, acc, _ => acc
  | k + 1, acc, x =>
    crc8Bits k (if (acc ^^^ x).getLsbD 0 then (acc >>> 1) ^^^ Config.params.crc8Poly else acc >>> 1) (x >>> 1)

/-- `crc8_update(acc, x)` (R160). -/
def crc8Update (acc x : Byte) : Byte := crc8Bits 8 acc x

/-- `crc8(bytes)` (R161): starts at 0, no final exclusive-or. -/
def crc8 (bytes : List Byte) : Byte := bytes.foldl crc8Update 0

/-- k steps of the 16-bit shift register (R163). -/
def crc16Bits : Nat → Half → Byte → Half
  | 0, acc, _ => acc
  | k + 1, acc, x =>
    crc16Bits k (if acc.getLsbD 0 ^^ x.getLsbD 0 then (acc >>> 1) ^^^ Config.params.crc16Poly else acc >>> 1) (x >>> 1)

/-- `crc16_update(acc, x)` (R163). -/
def crc16Update (acc : Half) (x : Byte) : Half := crc16Bits 8 acc x

/-- `odd[c]`, the parity of a four-bit index (R164), by its sixteen entries. -/
def oddParity (c : BitVec 4) : Bit :=
  [false, true, true, false, true, false, false, true, true, false, false, true, false, true, true, false].getD c.toNat false

/-- The nibble-parity form of the same generator, one byte a step (R164). -/
def crc16UpdateParity (acc : Half) (x : Byte) : Half :=
  let c : Half := (x ^^^ acc.extractLsb' 0 8).zeroExtend 16
  let a1 := acc >>> 8
  let a2 := if oddParity (c.extractLsb' 0 4) ^^ oddParity (c.extractLsb' 4 4) then a1 ^^^ Config.params.crc16Par else a1
  a2 ^^^ (c <<< 6) ^^^ (c <<< 7)

/-- `crc16(bytes, seed)` (R165). -/
def crc16 (bytes : List Byte) (seed : Half) : Half := bytes.foldl crc16Update seed

/-- `checkCrc16(bytes, inv, seed)` (R167): the complement's low byte against the first, its high byte against the second. -/
def checkCrc16 (bytes : List Byte) (inv0 inv1 : Byte) (seed : Half) : Bit :=
  let c := ~~~(crc16 bytes seed)
  c.extractLsb' 0 8 == inv0 && c.extractLsb' 8 8 == inv1

/-- CRC8 a, n (R162). -/
def execCrc8 (a n : Byte) (s : State) : Host.Outcome State Fault Refusal :=
  .next (if rangeOk a n.toNat then s.respond .ok false (valueOfByte (crc8 (s.memRead a.toNat n.toNat)))
    else s.refuse .errRange)

/-- CRC16 a, n, s (R166). -/
def execCrc16 (a n : Byte) (seed : Half) (s : State) : Host.Outcome State Fault Refusal :=
  .next (if rangeOk a n.toNat then s.respond .ok false (crc16 (s.memRead a.toNat n.toNat) seed)
    else s.refuse .errRange)

/-- CHKCRC16 a, n, c, s (R168): the data range is checked before the C range (30_encoding.md R68). -/
def execChkcrc16 (a n c : Byte) (seed : Half) (s : State) : Host.Outcome State Fault Refusal :=
  .next (if rangeOk a n.toNat then
      if rangeOk c 2 then
        s.respond .ok (checkCrc16 (s.memRead a.toNat n.toNat) (s.bufByte c.toNat) (s.bufByte (c.toNat + 1)) seed) 0
      else s.refuse .errRange
    else s.refuse .errRange)

end Sys2Proof.Machine
end

