-- ==== Sys2Proof/Machine/RomSearch.lean ====
section
/-! DEFINITION. The device enumerator commands (41_rom_search.md). -/

namespace Sys2Proof.Machine

/-- `search_clear()` (R131): the search state takes the zero state. -/
def State.searchClear (s : State) : State :=
  { s with rom := Vector.replicate 8 0, ld := 0, lfd := 0, ldf := false }

/-- What a traversal leaves in the sequencer (10_state.md R33): whether all positions were resolved, the candidate `lz`
(the source's `lastZero`), and the state. -/
structure Walk where
  ok : Bit
  lz : Nat
  st : State
  deriving DecidableEq, Repr

/-- The direction at position p on the read pair a, b (R137, R138): the bit read where the reads differ; otherwise the
recorded bit before `LD`, 1 at `LD`, 0 after it. -/
def searchDir (ld : Nat) (rom : Vector Byte 8) (p : Nat) (a b : Bit) : Bit :=
  if a != b then a
  else if p < ld then romBit rom p
  else decide (p = ld)

/-- Position p is a discrepancy at which 0 is chosen (R139). -/
def deferred (a b d : Bit) : Bit := !a && !b && !d

/-- One resolved position: `LFD` where 0 was chosen at a discrepancy in positions 1..8 (R139), the direction stored in
`rom` and written on the wire (R140). -/
def searchResolve (p : Nat) (a b d : Bit) (s : State) : State :=
  opWbit d
    ({ s with
        lfd := if deferred a b d && decide (p ≤ 8) then BitVec.ofNat 4 p else s.lfd
        rom := setRomBit s.rom p d }.gap)

/-- Step 4 (R135 to R140) from position p on, k positions to go. The second read follows the first and the write follows
the second, each after a gap; the first read of position 1 follows the command byte's tail. -/
def searchLoop : Nat → Nat → Nat → State → Walk
  | 0, _, lz, s => ⟨true, lz, s⟩
  | k + 1, p, lz, s =>
    let ra := opRbit (if p = 1 then s else s.gap)
    let rb := opRbit ra.2.gap
    if ra.1 && rb.1 then ⟨false, lz, rb.2⟩
    else
      let d := searchDir rb.2.ld.toNat rb.2.rom p ra.1 rb.1
      searchLoop k (p + 1) (if deferred ra.1 rb.1 d then p else lz) (searchResolve p ra.1 rb.1 d rb.2)

/-- Step 5 (R141): `LD <- lz`, and `LDF <- 1` if `lz` = 0. -/
def searchCommit (lz : Nat) (s : State) : State :=
  { s with ld := BitVec.ofNat 7 lz, ldf := if lz = 0 then true else s.ldf }

/-- Steps 5 and 6 (R141, R142): the all-zero test comes after step 5 and is on all eight bytes. -/
def searchFinish (w : Walk) : Bit × State :=
  let s := if w.ok then searchCommit w.lz w.st else w.st
  if !w.ok || romAllZero s.rom then (false, s.searchClear) else (true, s)

/-- The SEARCH of R143, answering R. -/
def searchRun (m : Bit) (s : State) : Bit × State :=
  if s.ldf then (false, s.searchClear)
  else
    let r := opReset s
    if r.1 then
      searchFinish (searchLoop Config.params.romBits 1 0
        (opWbyte (if m then Config.params.cmdCondSearch else Config.params.cmdSearch) false r.2.gap))
    else (false, r.2.searchClear)

/-- SEARCH m (R143). -/
def execSearch (m : Bit) (s : State) : Host.Outcome State Fault Refusal :=
  .next (let r := searchRun m s; r.2.respond .ok r.1 0)

/-- RSTSRCH (R147). -/
def execRstsrch (s : State) : Host.Outcome State Fault Refusal :=
  .next (s.searchClear.respond .ok false 0)

/-- The priming of TGTSRCH (R148): the family code in `rom[0]`, zeros after it, `LD` = 64, `LFD` and `LDF` cleared. -/
def State.searchPrime (s : State) (d : Byte) : State :=
  { s with rom := (Vector.replicate 8 0).setIfInBounds 0 d, ld := 64, lfd := 0, ldf := false }

/-- TGTSRCH d (R148). -/
def execTgtsrch (d : Byte) (s : State) : Host.Outcome State Fault Refusal :=
  .next ((s.searchPrime d).respond .ok false 0)

/-- RDSS (R150). -/
def execRdss (s : State) : Host.Outcome State Fault Refusal :=
  .next (s.respond .ok s.ldf (searchStateValue s.ld s.lfd))

/-- ROM2BUF a (R151). -/
def execRom2buf (a : Byte) (s : State) : Host.Outcome State Fault Refusal :=
  .next (if rangeOk a 8 then (s.memWrite a.toNat s.rom.toList).respond .ok false 0 else s.refuse .errRange)

end Sys2Proof.Machine
end

