-- ==== Sys2Proof/Machine/WireBytes.lean ====
section
/-! DEFINITION. The four wire command bytes (30_encoding.md R74, R77): constants OWC sends, each with hold-power 0 (D15), inside SELECT,
SKIP and SEARCH. Their meaning is the sending of the byte on the line; it is no command, so no response is given (log 8). -/

namespace Sys2Proof.Machine

/-- The match-ROM byte 0x55, as SELECT sends it (40_bus_line_driver.md R114). -/
def execWireMatchRom (s : State) : Host.Outcome State Fault Refusal :=
  .next (opWbyte Config.params.cmdMatchRom false s)

/-- The skip-ROM byte 0xCC, as SKIP sends it (40_bus_line_driver.md R115). -/
def execWireSkipRom (s : State) : Host.Outcome State Fault Refusal :=
  .next (opWbyte Config.params.cmdSkipRom false s)

/-- The unconditional search byte 0xF0, as SEARCH with m = 0 sends it (41_rom_search.md R134). -/
def execWireSearch (s : State) : Host.Outcome State Fault Refusal :=
  .next (opWbyte Config.params.cmdSearch false s)

/-- The conditional search byte 0xEC, as SEARCH with m = 1 sends it (41_rom_search.md R134). -/
def execWireCondSearch (s : State) : Host.Outcome State Fault Refusal :=
  .next (opWbyte Config.params.cmdCondSearch false s)

end Sys2Proof.Machine
end

