-- ==== Sys2Proof/Machine/Dispatch.lean ====
section
/-! DEFINITION. One arm per constructor of Instr. -/

namespace Sys2Proof.Machine

def exec (i : Instr) (s : State) : Host.Outcome State Fault Refusal :=
  match i with
  | .reset => Sys2Proof.Machine.execReset s
  | .wbit v => Sys2Proof.Machine.execWbit v s
  | .rbit => Sys2Proof.Machine.execRbit s
  | .wbyte d p => Sys2Proof.Machine.execWbyte d p s
  | .rbyte => Sys2Proof.Machine.execRbyte s
  | .wbytes a n p => Sys2Proof.Machine.execWbytes a n p s
  | .rbytes a n => Sys2Proof.Machine.execRbytes a n s
  | .select a => Sys2Proof.Machine.execSelect a s
  | .skip => Sys2Proof.Machine.execSkip s
  | .depower => Sys2Proof.Machine.execDepower s
  | .search m => Sys2Proof.Machine.execSearch m s
  | .rstsrch => Sys2Proof.Machine.execRstsrch s
  | .tgtsrch d => Sys2Proof.Machine.execTgtsrch d s
  | .rdss => Sys2Proof.Machine.execRdss s
  | .rom2buf a => Sys2Proof.Machine.execRom2buf a s
  | .crc8 a n => Sys2Proof.Machine.execCrc8 a n s
  | .crc16 a n seed => Sys2Proof.Machine.execCrc16 a n seed s
  | .chkcrc16 a n c seed => Sys2Proof.Machine.execChkcrc16 a n c seed s
  | .bufwr a d => Sys2Proof.Machine.execBufwr a d s
  | .bufrd a => Sys2Proof.Machine.execBufrd a s
  | .wireMatchRom => Sys2Proof.Machine.execWireMatchRom s
  | .wireSkipRom => Sys2Proof.Machine.execWireSkipRom s
  | .wireSearch => Sys2Proof.Machine.execWireSearch s
  | .wireCondSearch => Sys2Proof.Machine.execWireCondSearch s

end Sys2Proof.Machine
end

