-- ==== Sys2Proof/Machine/Step.lean ====
section
/-! DEFINITION. One step: at a command boundary OWC takes the word the host offers, if any, and runs it to its response
(00_scope.md R10, R11; 10_state.md R32). -/

namespace Sys2Proof.Machine

/-- One step. With no word offered OWC waits (70_reset_and_hazards.md R222) and `rsp_valid` goes back to 0; a word the decoder
turns away is refused (30_encoding.md R68); a command is executed. From a state that is no command boundary the model has no
step (log 2). -/
def step (s : State) : Host.Outcome State Fault Refusal :=
  if s.busy then .fault .midCommand
  else
    match s.cmds with
    | [] => .next { s with rsp := none }
    | w :: rest =>
      match decodeCmd w with
      | .error r => .next ((s.accept rest).refuse (rejectStatus r))
      | .ok i => exec i (s.accept rest)

/-- The state in which the host offers that word next (log 1): the word stands at the head of the command channel and the
port is ready. A row of opcode_table.json shorter than 64 bits leaves the bits above it 0. -/
def State.withFetchWord (s : State) (nbits w : Nat) : State :=
  { s with cmds := BitVec.ofNat 64 (w % 2 ^ nbits) :: s.cmds, busy := false }

end Sys2Proof.Machine
end

