-- ==== Sys2Proof/Machine/Instances.lean ====
section
/-! DEFINITION. Several OWC instances (00_scope.md R5, 60_exceptions.md R213): independent instances of the same type, each with its
own state, port and pad, its own physical line and the free values of that line. -/

namespace Sys2Proof.Machine

/-- `N_INSTANCES` instances, told apart only by their place (60_exceptions.md R213). -/
abbrev Instances := List State

/-- The instance on a line, right after hardware reset (60_exceptions.md R213: each starts in the state of 10_state.md R35). -/
def State.resetOn (line : Nat) : State := { State.reset with line := line }

/-- n instances, each right after hardware reset. -/
def Instances.start (n : Nat) : Instances := (List.range n).map State.resetOn

/-- Each instance is bound to the physical line of its place, and so no two to the same one (00_scope.md R5). -/
abbrev Instances.wf (sys : Instances) : Prop := sys.map State.line = List.range sys.length

/-- Instance k takes one step; none where it has none (there is no such instance, or it is stopped). Steps of different
instances may come in any order: commands overlap in time freely (60_exceptions.md R213). -/
def stepInstance (k : Nat) (sys : Instances) : Option Instances :=
  match sys[k]? with
  | none => none
  | some s =>
    match step s with
    | .next t => some (sys.set k t)
    | .fault _ | .refused _ => none

/-- The reset inputs of the instances in `ks` are asserted: all of them together, one alone, or any others, as the platform
wires them (60_exceptions.md R213). -/
def resetInstances (ks : List Nat) (sys : Instances) : Instances :=
  sys.mapIdx fun k s => if k ∈ ks then s.hwReset else s

end Sys2Proof.Machine
end

