-- ==== Sys2Proof/Safety.lean ====
section
/-! DEFINITION. The terms claims are written in: the wire shapes of 30_encoding.md section 6 with the spec's own numbers, the
discipline of a pad trace, the invariant of a command boundary, the environment's answers as a list, and the well-behaved
bus of 30_encoding.md R76 (a stimulus for claims, no part of OWC: 00_scope.md R6). -/

namespace Sys2Proof.Machine

/-! ## What the wire shows -/

/-- The shapes a pad trace is made of (30_encoding.md R73; 40_bus_line_driver.md R101 to R103, R108, R116). -/
inductive WireItem where
  /-- A write slot of a bit. -/
  | wslot (v : Bit)
  /-- A read slot answered v. -/
  | rslot (v : Bit)
  /-- A reset whose line reads high after `zeros` low polls and whose presence sample reads v; `out` is the latch before. -/
  | resetPulse (out : Bit) (zeros : Nat) (v : Bit)
  /-- A reset that gives up after 125 low polls. -/
  | resetGiveUp (out : Bit)
  /-- The driver outputs changed to input outside any section: the non-power tail, or DEPOWER. -/
  | release (out : Bit)
  /-- A gap. -/
  | gap (g : Nat)
  deriving DecidableEq, Repr

/-- n polls that read low (R101). -/
def lowPolls : Nat → List PadEvent
  | 0 => []
  | n + 1 => .wait 2 :: .sample false :: lowPolls n

/-- The events of a shape, with the durations of 00_scope.md R7 written out. -/
def WireItem.events : WireItem → List PadEvent
  | .wslot true => [.sectBegin, .drive true false, .wait 10, .drive true true, .wait 55, .sectEnd]
  | .wslot false => [.sectBegin, .drive true false, .wait 65, .drive true true, .wait 5, .sectEnd]
  | .rslot v => [.sectBegin, .drive true false, .wait 3, .drive false false, .wait 10, .sample v, .wait 53, .sectEnd]
  | .resetPulse out zeros v =>
    [.sectBegin, .drive false out] ++ lowPolls zeros ++ [.wait 2, .sample true, .drive true false, .wait 480,
      .drive false false, .wait 70, .sample v, .wait 410, .sectEnd]
  | .resetGiveUp out => [.sectBegin, .drive false out] ++ lowPolls 125 ++ [.sectEnd]
  | .release out => [.drive false out]
  | .gap g => [.gap g]

/-- At most 125 samples are polled, the last of them the high one (R101). -/
def WireItem.legal : WireItem → Bool
  | .resetPulse _ zeros _ => decide (zeros < 125)
  | .wslot _ | .rslot _ | .resetGiveUp _ | .release _ | .gap _ => true

/-- The events of several shapes in order. -/
def wireEvents (l : List WireItem) : List PadEvent := l.flatMap WireItem.events

/-- The eight write slots of a byte, bit 0 first (20_memory.md R46). -/
def byteSlots (d : Byte) : List WireItem := (List.range 8).map fun i => .wslot (d.getLsbD i)

/-- A byte written with hold-power p, as the wire shows it with the gaps left out (40_bus_line_driver.md R107, R108). -/
def byteItems (d : Byte) (p : Bit) : List WireItem := byteSlots d ++ if p then [] else [.release false]

/-- Bytes written one after another, the last with hold-power p, the others with 0 (40_bus_line_driver.md R112). -/
def bytesItems : List Byte → Bit → List WireItem
  | [], _ => []
  | [b], p => byteItems b p
  | b :: c :: bs, p => byteItems b false ++ bytesItems (c :: bs) p

/-! ## The discipline of a pad trace -/

/-- What an observer of the pad knows: the driver outputs, whether a section is open, and the time since it began. -/
structure PadMonitor where
  oe : Bit
  out : Bit
  inSect : Bit
  elapsed : Nat
  deriving DecidableEq, Repr

/-- One event observed; none where it breaks the discipline: time passes and samples are taken only inside a section
(70_reset_and_hazards.md R228), a sample only with `OE` = 0 (10_state.md R24), sections do not nest, a gap lies between
sections, and a section lasts at most 1210 microseconds (R228). -/
def PadMonitor.observe (m : PadMonitor) : PadEvent → Option PadMonitor
  | .drive oe out => some { m with oe := oe, out := out }
  | .wait n => if m.inSect then some { m with elapsed := m.elapsed + n } else none
  | .sample _ => if m.inSect && !m.oe then some m else none
  | .sectBegin => if m.inSect then none else some { m with inSect := true, elapsed := 0 }
  | .sectEnd => if m.inSect && decide (m.elapsed ≤ 1210) then some { m with inSect := false, elapsed := 0 } else none
  | .gap _ => if m.inSect then none else some m

/-- A trace observed from an observer's state on. -/
def PadMonitor.replay (m : PadMonitor) : List PadEvent → Option PadMonitor
  | [] => some m
  | e :: es =>
    match m.observe e with
    | some m' => m'.replay es
    | none => none

/-- The observer at hardware reset: the line released (10_state.md R35). -/
def PadMonitor.start : PadMonitor := ⟨false, false, false, 0⟩

/-! ## The invariant of a command boundary -/

/-- A response word as 30_encoding.md R63 and R64 allow it: the always-zero bits are 0, the status is one of 0..3, and a
status that is not 0 goes with R = 0 and V = 0. -/
def rspLegal (w : Rsp32) : Bool :=
  w.extractLsb' 4 4 == 0 && w.extractLsb' 9 7 == 0 && decide ((rspST w).toNat ≤ 3) &&
    (rspST w == 0 || (!rspR w && rspV w == 0))

/-- What holds of the state at every command boundary. -/
structure Inv (s : State) : Prop where
  /-- BUF keeps its canonical form, addresses 0..255 (20_memory.md R40). -/
  bufWf : Memory.wf s.buf
  /-- `LD` is in 0..64 (10_state.md R26). -/
  ldLe : s.ld.toNat ≤ 64
  /-- `LFD` is in 0..8 (10_state.md R27). -/
  lfdLe : s.lfd.toNat ≤ 8
  /-- `LDF` stands only while no branch is left to explore (41_rom_search.md R141, R148). -/
  ldfLd : s.ldf = true → s.ld = 0
  /-- *busy* is 0 (10_state.md R32). -/
  idle : s.busy = false
  /-- The response channel carries only legal words. -/
  rspOk : ∀ w, s.rsp = some w → rspLegal w = true
  /-- The pad trace keeps the discipline from reset on, and ends at the driver state, outside any section. -/
  traceOk : PadMonitor.start.replay s.trace = some ⟨s.oe, s.out, false, 0⟩

/-! ## The environment's answers as a list -/

/-- The next n answers of the environment. -/
def State.upcoming (s : State) (n : Nat) : List Bit := (List.range n).map s.answer

/-! ## The well-behaved bus -/

/-- A device address as one number: position p of the address is bit p-1 (20_memory.md R45). -/
def romWord (rom : Vector Byte 8) : BitVec 64 :=
  romByte rom 7 ++ romByte rom 6 ++ romByte rom 5 ++ romByte rom 4 ++
    romByte rom 3 ++ romByte rom 2 ++ romByte rom 1 ++ romByte rom 0

/-- What the active devices put on the line in the two read slots of position q+1: the wired-AND of their bits and of the
complements (30_encoding.md R76). -/
def busPair (devs : List (BitVec 64)) (q : Nat) : Bit × Bit :=
  (devs.all fun x => x.getLsbD q, devs.all fun x => !x.getLsbD q)

/-- The direction a master with `LD` = ld and `rom` = old writes at position q+1 on that pair (41_rom_search.md R137, R138). -/
def masterDir (ld : Nat) (old : BitVec 64) (q : Nat) (pair : Bit × Bit) : Bit :=
  if pair.1 != pair.2 then pair.1
  else if q + 1 < ld then old.getLsbD q
  else decide (q + 1 = ld)

/-- The answers of a well-behaved bus in a traversal, k positions from position q+1 on: each pair, after which the devices
that disagree with the written direction fall silent (30_encoding.md R76). -/
def busAnswers (ld : Nat) (old : BitVec 64) : Nat → Nat → List (BitVec 64) → List Bit
  | 0, _, _ => []
  | k + 1, q, devs =>
    (busPair devs q).1 :: (busPair devs q).2 ::
      busAnswers ld old k (q + 1) (devs.filter fun x => x.getLsbD q == masterDir ld old q (busPair devs q))

/-- The environment of a whole SEARCH on that bus: the line idles high at the first poll, at least one device gives a
presence pulse, then the traversal (40_bus_line_driver.md R101; 30_encoding.md R76). -/
def State.wellBehaved (s : State) (devs : List (BitVec 64)) : Prop :=
  s.upcoming 130 = [true, false] ++ busAnswers s.ld.toNat (romWord s.rom) 64 0 devs

/-- The order of enumeration: addresses as 64-digit binary numbers whose first digit is position 1 (41_rom_search.md R146). -/
def addressLt (x y : BitVec 64) : Prop := x.reverse.toNat < y.reverse.toNat

/-- x and y have the same bits below index q. -/
def agreeBelow (x y : BitVec 64) (q : Nat) : Bool := (List.range q).all fun j => x.getLsbD j == y.getLsbD j

/-- The last position at which address x has 0 and some device that agrees with x before it has 1: the branch a search that
found x has deferred last (10_state.md R26); 0 if there is none. -/
def lastDeferred (devs : List (BitVec 64)) (x : BitVec 64) : Nat :=
  (((List.range 64).filter fun q => !x.getLsbD q && devs.any fun y => y.getLsbD q && agreeBelow x y q).map (· + 1)).getLast?.getD 0

/-! ## A traversal read off its answers (41_rom_search.md R135 to R142) -/

/-- The read pair of position p, 1..64, of a SEARCH whose reset polled k low samples: k polls, the high poll and the presence
sample come first. -/
def traversalPair (s : State) (k p : Nat) : Bit × Bit := (s.answer (k + 2 * p), s.answer (k + 2 * p + 1))

/-- The direction SEARCH writes at position p (R137, R138), `LD` and `rom` as they stand at the start of the command. -/
def traversalDir (s : State) (k p : Nat) : Bit := masterDir s.ld.toNat (romWord s.rom) (p - 1) (traversalPair s k p)

/-- Position p is a discrepancy at which 0 is chosen (R139). -/
def traversalDefers (s : State) (k p : Nat) : Bool := traversalPair s k p == (false, false) && !traversalDir s k p

/-- The last of the positions 1..n at which 0 is chosen at a discrepancy; 0 if there is none (R139). -/
def traversalLast (s : State) (k n : Nat) : Nat := (((List.range' 1 n).filter (traversalDefers s k)).getLast?).getD 0

/-- The number of directions 1 among positions 1..n (70_reset_and_hazards.md R237, `o`). -/
def traversalOnes (s : State) (k n : Nat) : Nat := ((List.range' 1 n).filter (traversalDir s k)).length

/-- The triplets of positions 1..n on the wire (30_encoding.md R76). -/
def traversalItems (s : State) (k n : Nat) : List WireItem :=
  (List.range' 1 n).flatMap fun p =>
    [.rslot (traversalPair s k p).1, .rslot (traversalPair s k p).2, .wslot (traversalDir s k p)]

/-- The SEARCH's reset sees the line high after k low polls and then a presence pulse (40_bus_line_driver.md R101). -/
def State.presenceAfter (s : State) (k : Nat) : Prop :=
  k < 125 ∧ s.upcoming (k + 2) = List.replicate k false ++ [true, false]

/-- The wire command byte of a SEARCH (41_rom_search.md R134). -/
def searchByte (m : Bit) : Byte := if m then 0xEC else 0xF0

/-! ## What an instruction may change -/

/-- The BUF addresses an instruction stores to (20_memory.md R41): the address of BUFWR, the ranges of RBYTES and ROM2BUF. -/
def bufWrites : Instr → List Nat
  | .bufwr a _ => [a.toNat]
  | .rbytes a n => (List.range n.toNat).map fun i => a.toNat + i
  | .rom2buf a => (List.range 8).map fun i => a.toNat + i
  | .reset | .wbit _ | .rbit | .wbyte _ _ | .rbyte | .wbytes _ _ _ | .select _ | .skip | .depower => []
  | .search _ | .rstsrch | .tgtsrch _ | .rdss => []
  | .crc8 _ _ | .crc16 _ _ _ | .chkcrc16 _ _ _ _ | .bufrd _ => []
  | .wireMatchRom | .wireSkipRom | .wireSearch | .wireCondSearch => []

/-- The bytes of BUF from a upward, n of them, in ascending order (20_memory.md R42). -/
def State.bytesAt (s : State) (a n : Nat) : List Byte := (List.range n).map fun i => s.bufByte (a + i)

/-- How a command is spelled (30_encoding.md R61, R62): w is its word, w reads back as it, and a word with its `OP` and any bit
set that the command does not use is refused with ERR_FIELD. -/
def CommandWord (i : Instr) (w : Cmd64) (o : Op) : Prop :=
  encode i = .cmd64 w ∧ fieldOP w = o.code ∧ decodeCmd w = .ok i ∧
  (∀ w' : Cmd64, fieldOP w' = o.code → w' &&& o.mask ≠ o.pattern → decodeCmd w' = .error .field)

/-- The outcome of a command whose BUF range leaves BUF: ERR_RANGE, and nothing else (60_exceptions.md R201, R204). -/
def rangeRefusal (s : State) : Host.Outcome State Fault Refusal :=
  .next { s with rsp := some 0x00000003, busy := false }

/-- The number of 1 bits in a byte (70_reset_and_hazards.md R237, `o(x)`). -/
def onesOf (d : Byte) : Nat := ((List.range 8).filter fun i => d.getLsbD i).length

/-- The `OP` values that name no command (30_encoding.md R69). -/
def illegalOpcode (n : Nat) : Bool :=
  decide (n = 0x00 ∨ (0x0B ≤ n ∧ n ≤ 0x0F) ∨ (0x15 ≤ n ∧ n ≤ 0x1F) ∨ (0x23 ≤ n ∧ n ≤ 0x2F) ∨ 0x32 ≤ n)

end Sys2Proof.Machine
end

