-- ==== Sys2Proof/Certificates/Slice0/Obligations.lean ====
section
/-! DEFINITION. The statements for the provers. Names of the model are used as they stand in Sys2Proof.Machine; durations and codes are
written as the spec's numbers. `trace`, `samples`, `sampleDraws`, `gapDraws` and `cmds` are the model's own bookkeeping (log 1, 4 to 6):
a record update that names them says exactly which other fields are unchanged. -/

open Sys2Proof Sys2Proof.Machine

/-! ## Reset -/

/-- 10_state.md R35. Its clause on BUF, whose contents are unspecified, is the model's choice: of U1's two treatments each byte
takes the free value, here the one of line 0 and of the first reset (log 7, log 16). -/
def Obligations.ResetIsTheReleasedZeroState : Prop :=
  State.reset.oe = false ∧ State.reset.out = false ∧
  (∀ i < 8, romByte State.reset.rom i = 0) ∧ State.reset.ld = 0 ∧ State.reset.lfd = 0 ∧ State.reset.ldf = false ∧
  State.reset.busy = false ∧ State.reset.cmdReady = true ∧ State.reset.rspValid = false ∧
  (∀ a, State.reset.bufByte a = Config.freeBufByte 0 0 a)

/-- 70_reset_and_hazards.md R220, R221: the state after `rst`, whatever it was before, also inside a command. The operation and
what it keeps (the inputs and the model's counters) are the model's (log 10), and so is the free value of an unwritten byte (log 7, log 16). -/
def Obligations.HardwareResetTakesEveryStateToTheResetValues : Prop :=
  ∀ s : State,
    s.hwReset = { State.reset with
      cmds := s.cmds, samples := s.samples, sampleDraws := s.sampleDraws, gapDraws := s.gapDraws,
      bufEpoch := s.bufEpoch + 1, line := s.line } ∧
    s.hwReset.oe = false ∧ s.hwReset.out = false ∧ s.hwReset.rsp = none ∧ s.hwReset.busy = false ∧
    s.hwReset.rom = Vector.replicate 8 0 ∧ s.hwReset.ld = 0 ∧ s.hwReset.lfd = 0 ∧ s.hwReset.ldf = false ∧
    (∀ a, s.hwReset.bufByte a = Config.freeBufByte s.line (s.bufEpoch + 1) a) ∧ Inv s.hwReset

/-! ## Encoding -/

/-- Every instruction, with every operand at every value, is read back from its code (30_encoding.md sections 1, 2, 6). -/
def Obligations.DecodeOfEncodeIsTheInstruction : Prop :=
  ∀ i : Instr, decodeCode (encode i) = some i

/-- Each accepted command word is the word of the instruction it decodes to: one word, one meaning, no bit dropped. -/
def Obligations.EncodeOfDecodeIsTheWord : Prop :=
  ∀ (w : Cmd64) (i : Instr), decodeCmd w = .ok i → encode i = .cmd64 w

/-- 30_encoding.md R62: a word spells a row exactly when its masked bits match, a legal `OP` with another bit set is rejected
for its field, and the rows are disjoint. -/
def Obligations.AWordSpellsARowExactlyWhenItsMaskedBitsMatch : Prop :=
  (∀ (w : Cmd64) (o : Op), w &&& o.mask = o.pattern ↔ decodeCmd w = .ok (o.instr w)) ∧
  (∀ (w : Cmd64) (o : Op), fieldOP w = o.code → w &&& o.mask ≠ o.pattern →
    decodeCmd w = .error .field ∧ rejectStatus .field = .errField) ∧
  (∀ (w : Cmd64) (o o' : Op), w &&& o.mask = o.pattern → w &&& o'.mask = o'.pattern → o = o')

/-- 30_encoding.md R68, R69: a word is rejected for its opcode exactly when `OP` is one of the listed illegal values, whatever
its other bits are. -/
def Obligations.OpcodeIsRejectedExactlyOnTheIllegalValues : Prop :=
  ∀ w : Cmd64, decodeCmd w = .error .opcode ↔ illegalOpcode (fieldOP w).toNat = true

/-- 30_encoding.md R72 (the spec's own derived examples): the worked command words and response words. -/
def Obligations.WorkedWordsDecode : Prop :=
  decodeTableWord 64 0x0000000000000001 = some .reset ∧
  decodeTableWord 64 0x0000000000000102 = some (.wbit true) ∧
  decodeTableWord 64 0x0000000000440104 = some (.wbyte 0x44 true) ∧
  decodeTableWord 64 0x0000000910000006 = some (.wbytes 0x10 9 false) ∧
  decodeTableWord 64 0x0000000000000110 = some (.search true) ∧
  decodeTableWord 64 0x0000000000280012 = some (.tgtsrch 0x28) ∧
  decodeTableWord 64 0x0000000900000021 = some (.crc16 0x00 9 0x0000) ∧
  decodeTableWord 64 0x0000090900000022 = some (.chkcrc16 0x00 9 0x09 0x0000) ∧
  decodeTableWord 64 0x14BA000504000021 = some (.crc16 0x04 5 0x14BA) ∧
  decodeTableWord 64 0x0000000020CC0030 = some (.bufwr 0x20 0xCC) ∧
  packRsp .ok true 0 = 0x00000100 ∧ packRsp .ok false 0xBB3D = 0xBB3D0000 ∧ packRsp .errRange false 0 = 0x00000003

/-- 30_encoding.md section 6: the four wire command bytes are constants OWC sends; the host port decodes no word to one. -/
def Obligations.NoHostWordIsAWireCommandByte : Prop :=
  ∀ (w : Cmd64) (i : Instr), decodeCmd w = .ok i → i.wireByte = none

/-! ## The step -/

/-- A step at a command boundary takes the host's word and runs the command it decodes to (00_scope.md R10, R11; 10_state.md
R32); acceptance takes the word off the channel, sets *busy* and ends the last response. -/
def Obligations.StepRunsTheDecodedCommand : Prop :=
  (∀ (s : State) (w : Cmd64) (rest : List Cmd64) (i : Instr),
    s.busy = false → s.cmds = w :: rest → decodeCmd w = .ok i →
      step s = exec i { s with cmds := rest, busy := true, rsp := none }) ∧
  (∀ (s : State) (w : Cmd64) (i : Instr), decodeCmd w = .ok i →
      step (s.withFetchWord 64 w.toNat) = exec i { s with busy := true, rsp := none })

/-- 60_exceptions.md R201, R202, R203: a word that spells nothing is answered with its code, and nothing else happens. -/
def Obligations.StepRefusesAWordThatSpellsNothing : Prop :=
  ∀ (s : State) (w : Cmd64) (rest : List Cmd64), s.busy = false → s.cmds = w :: rest →
    ((∀ o : Op, fieldOP w ≠ o.code) →
      step s = .next { s with cmds := rest, busy := false, rsp := some 0x00000001 }) ∧
    (∀ o : Op, fieldOP w = o.code → w &&& o.mask ≠ o.pattern →
      step s = .next { s with cmds := rest, busy := false, rsp := some 0x00000002 })

/-- 70_reset_and_hazards.md R222: with no word offered OWC waits; `rsp_valid` was 1 for one instant (the model's step for it,
log 3). -/
def Obligations.StepWaitsWithoutACommand : Prop :=
  ∀ s : State, s.busy = false → s.cmds = [] → step s = .next { s with rsp := none }

/-- 30_encoding.md section 1 and 60_exceptions.md section 1: whatever the word, the command ends in a next state, draws one
response, and leaves the port ready for the host's next word. -/
def Obligations.EveryCommandWordDrawsOneResponse : Prop :=
  ∀ (s : State) (w : Cmd64) (rest : List Cmd64), s.busy = false → s.cmds = w :: rest →
    ∃ (t : State) (r : Rsp32), step s = .next t ∧ t.rsp = some r ∧ rspLegal r = true ∧ t.cmds = rest ∧ t.busy = false

/-- The invariant holds after hardware reset. -/
def Obligations.ResetMeetsTheBoundaryInvariant : Prop :=
  Inv State.reset

/-- Every step keeps the invariant of a command boundary (10_state.md R26, R27, R32, R24; 20_memory.md R40; 30_encoding.md
R63, R64; 70_reset_and_hazards.md R228). -/
def Obligations.StepKeepsTheBoundaryInvariant : Prop :=
  ∀ s t : State, Inv s → step s = .next t → Inv t

/-- Whatever the command and whatever the environment answers, a step adds to the pad trace only whole write slots, read slots,
resets, releases and gaps (30_encoding.md section 6; 20_memory.md section 5). -/
def Obligations.StepShowsOnlyWholeWireShapes : Prop :=
  ∀ s t : State, step s = .next t →
    ∃ items : List WireItem, (∀ x ∈ items, x.legal = true) ∧ t.trace = s.trace ++ wireEvents items

/-! ## Refusal of a range -/

/-- 60_exceptions.md R204 (with 20_memory.md R44): a range outside BUF is answered with ERR_RANGE and nothing else happens; a
command whose ranges lie inside BUF is never refused. -/
def Obligations.OutOfRangeCommandsAreRefused : Prop :=
  (∀ (s : State) (a n : Byte) (p : Bit) (seed : Half), a.toNat + n.toNat > 256 →
    exec (.wbytes a n p) s = rangeRefusal s ∧
    exec (.rbytes a n) s = rangeRefusal s ∧
    exec (.crc8 a n) s = rangeRefusal s ∧
    exec (.crc16 a n seed) s = rangeRefusal s) ∧
  (∀ (s : State) (a : Byte), a.toNat + 8 > 256 →
    exec (.select a) s = rangeRefusal s ∧
    exec (.rom2buf a) s = rangeRefusal s) ∧
  (∀ (s : State) (a n c : Byte) (seed : Half), a.toNat + n.toNat > 256 ∨ c.toNat + 2 > 256 →
    exec (.chkcrc16 a n c seed) s = rangeRefusal s) ∧
  (∀ (s : State) (i : Instr), i.WellFormed → i.wireByte = none →
    ∃ (t : State) (r : Rsp32), exec i s = .next t ∧ t.rsp = some r ∧ rspST r = 0)

/-! ## The bus line driver -/

/-- 40_bus_line_driver.md R101, R104: RESET polls, then pulses and samples presence; or gives up after 125 low samples with
the line never driven. -/
def Obligations.ResetPollsThenPulsesOrGivesUp : Prop :=
  CommandWord .reset 0x0000000000000001 .reset ∧
  (∀ (s : State) (k : Nat) (v : Bit), k < 125 → s.upcoming (k + 2) = List.replicate k false ++ [true, v] →
    exec .reset s = .next { s.consume (k + 2) with
      oe := false, out := false, trace := s.trace ++ (WireItem.resetPulse s.out k v).events,
      rsp := some (packRsp .ok (!v) 0), busy := false } ∧
    duration (WireItem.resetPulse s.out k v).events = 2 * (k + 1) + 960) ∧
  (∀ s : State, s.upcoming 125 = List.replicate 125 false →
    exec .reset s = .next { s.consume 125 with
      oe := false, trace := s.trace ++ (WireItem.resetGiveUp s.out).events,
      rsp := some (packRsp .ok false 0), busy := false } ∧
    duration (WireItem.resetGiveUp s.out).events = 250)

/-- 40_bus_line_driver.md R102, R105. -/
def Obligations.WbitShowsOneWriteSlotAndDrivesHigh : Prop :=
  ∀ (s : State) (v : Bit),
    CommandWord (.wbit v) (layCmd 0 0 0 0 0 v 0x02) .wbit ∧
    exec (.wbit v) s = .next { s with
      oe := true, out := true, trace := s.trace ++ (WireItem.wslot v).events,
      rsp := some 0x00000000, busy := false }

/-- 40_bus_line_driver.md R103, R106. -/
def Obligations.RbitReportsTheLevelSampled : Prop :=
  ∀ s : State,
    CommandWord .rbit 0x0000000000000003 .rbit ∧
    exec .rbit s = .next { s.consume 1 with
      oe := false, out := false, trace := s.trace ++ (WireItem.rslot (s.answer 0)).events,
      rsp := some (if s.answer 0 then 0x00000100 else 0x00000000), busy := false }

/-- 40_bus_line_driver.md R107, R108, R109: eight write slots, bit 0 first, then the tail where p = 0; the line is left driven
high where p = 1. Gaps left out of the trace. -/
def Obligations.WbyteSendsBitZeroFirstThenItsTail : Prop :=
  ∀ (s : State) (d : Byte) (p : Bit),
    CommandWord (.wbyte d p) (layCmd 0 0 0 0 d p 0x04) .wbyte ∧
    ∃ t : State, exec (.wbyte d p) s = .next t ∧
      t = { s with oe := p, out := p, trace := t.trace, gapDraws := t.gapDraws, rsp := some 0x00000000, busy := false } ∧
      s.trace <+: t.trace ∧ t.padTrace = s.padTrace ++ wireEvents (byteItems d p) ∧
      duration t.trace = duration s.trace + 65 * onesOf d + 70 * (8 - onesOf d)

/-- 40_bus_line_driver.md R110, R111: the first slot's bit becomes bit 0 of V, V[15:8] is 0. -/
def Obligations.RbyteAssemblesBitZeroFirst : Prop :=
  ∀ s : State,
    CommandWord .rbyte 0x0000000000000005 .rbyte ∧
    ∃ (t : State) (b : Byte), exec .rbyte s = .next t ∧ (∀ i < 8, b.getLsbD i = s.answer i) ∧
      t = { s.consume 8 with
        oe := false, out := false, trace := t.trace, gapDraws := t.gapDraws,
        rsp := some (packRsp .ok false (valueOfByte b)), busy := false } ∧
      s.trace <+: t.trace ∧
      t.padTrace = s.padTrace ++ wireEvents ((List.range 8).map fun i => .rslot (s.answer i)) ∧
      duration t.trace = duration s.trace + 528

/-- 40_bus_line_driver.md R112: the bytes of the range in ascending order, every one but the last with its tail, the last with
hold-power p; with n = 0 nothing happens but the response. -/
def Obligations.WbytesSendsTheRangeInOrder : Prop :=
  ∀ (s : State) (a n : Byte) (p : Bit),
    CommandWord (.wbytes a n p) (layCmd 0 0 n a 0 p 0x06) .wbytes ∧
    (a.toNat + n.toNat > 256 → exec (.wbytes a n p) s = rangeRefusal s) ∧
    (a.toNat + n.toNat ≤ 256 → ∃ t : State, exec (.wbytes a n p) s = .next t ∧
      t = { s with
        oe := if n = 0 then s.oe else p, out := if n = 0 then s.out else p,
        trace := t.trace, gapDraws := t.gapDraws, rsp := some 0x00000000, busy := false } ∧
      s.trace <+: t.trace ∧ t.padTrace = s.padTrace ++ wireEvents (bytesItems (s.bytesAt a.toNat n.toNat) p) ∧
      (n = 0 → t.trace = s.trace))

/-- 40_bus_line_driver.md R113: byte i of the range takes the answers 8i, 8i+1, ..., bit 0 first; every other byte of BUF is
unchanged; with n = 0 nothing happens but the response. -/
def Obligations.RbytesStoresTheBytesRead : Prop :=
  ∀ (s : State) (a n : Byte),
    CommandWord (.rbytes a n) (layCmd 0 0 n a 0 false 0x07) .rbytes ∧
    (a.toNat + n.toNat > 256 → exec (.rbytes a n) s = rangeRefusal s) ∧
    (a.toNat + n.toNat ≤ 256 → ∃ t : State, exec (.rbytes a n) s = .next t ∧
      t = { s.consume (8 * n.toNat) with
        oe := if n = 0 then s.oe else false, out := if n = 0 then s.out else false,
        buf := t.buf, trace := t.trace, gapDraws := t.gapDraws, rsp := some 0x00000000, busy := false } ∧
      (∀ i < n.toNat, ∀ j < 8, (t.bufByte (a.toNat + i)).getLsbD j = s.answer (8 * i + j)) ∧
      (∀ x : Nat, x < a.toNat ∨ a.toNat + n.toNat ≤ x → t.bufByte x = s.bufByte x) ∧
      s.trace <+: t.trace ∧
      t.padTrace = s.padTrace ++ wireEvents ((List.range (8 * n.toNat)).map fun i => .rslot (s.answer i)) ∧
      (n = 0 → t = { s with rsp := some 0x00000000, busy := false }))

/-- 40_bus_line_driver.md R114: 0x55, then the eight bytes from BUF, all with hold-power 0. -/
def Obligations.SelectSendsMatchRomThenTheAddress : Prop :=
  ∀ (s : State) (a : Byte),
    CommandWord (.select a) (layCmd 0 0 0 a 0 false 0x08) .select ∧
    (a.toNat + 8 > 256 → exec (.select a) s = rangeRefusal s) ∧
    (a.toNat + 8 ≤ 256 → ∃ t : State, exec (.select a) s = .next t ∧
      t = { s with
        oe := false, out := false, trace := t.trace, gapDraws := t.gapDraws, rsp := some 0x00000000, busy := false } ∧
      s.trace <+: t.trace ∧
      t.padTrace = s.padTrace ++ wireEvents (byteItems 0x55 false ++ bytesItems (s.bytesAt a.toNat 8) false))

/-- 40_bus_line_driver.md R115. -/
def Obligations.SkipSendsSkipRom : Prop :=
  ∀ s : State,
    CommandWord .skip 0x0000000000000009 .skip ∧
    ∃ t : State, exec .skip s = .next t ∧
      t = { s with
        oe := false, out := false, trace := t.trace, gapDraws := t.gapDraws, rsp := some 0x00000000, busy := false } ∧
      s.trace <+: t.trace ∧ t.padTrace = s.padTrace ++ wireEvents (byteItems 0xCC false) ∧
      duration t.trace = duration s.trace + 540

/-- 40_bus_line_driver.md R116. -/
def Obligations.DepowerReleasesAndKeepsTheLatch : Prop :=
  ∀ s : State,
    CommandWord .depower 0x000000000000000A .depower ∧
    exec .depower s = .next { s with
      oe := false, trace := s.trace ++ [.drive false s.out], rsp := some 0x00000000, busy := false }

/-- 30_encoding.md R74: the slot sequences of the four wire command bytes, first slot on the left, each with the tail of
hold-power 0 (D15). That a wire row is the sending of its byte, without a response, is the model's (log 8). -/
def Obligations.WireCommandBytesShowTheirSlots : Prop :=
  ∀ s : State, ∀ x ∈
    ([(.wireMatchRom, [true, false, true, false, true, false, true, false]),
      (.wireSkipRom, [false, false, true, true, false, false, true, true]),
      (.wireSearch, [false, false, false, false, true, true, true, true]),
      (.wireCondSearch, [false, false, true, true, false, true, true, true])] : List (Instr × List Bit)),
    ∃ t : State, exec x.1 s = .next t ∧
      t = { s with oe := false, out := false, trace := t.trace, gapDraws := t.gapDraws } ∧
      s.trace <+: t.trace ∧ t.padTrace = s.padTrace ++ wireEvents (x.2.map .wslot ++ [.release false])

/-- 00_scope.md R8 and 70_reset_and_hazards.md R237 (the spec's derived figures): how much the trace of each command grows, gaps
not counted: a write slot by 65 or 70, a read slot by 66, a reset by 960 after its polls of 2 each or by 250 where it gives up,
a byte by 65 for each 1 bit and 70 for each 0 bit. -/
def Obligations.SlotAndByteDurations : Prop :=
  (∀ (s : State) (v : Bit), ∃ t : State, exec (.wbit v) s = .next t ∧
    duration t.trace = duration s.trace + (if v then 65 else 70)) ∧
  (∀ s : State, ∃ t : State, exec .rbit s = .next t ∧ duration t.trace = duration s.trace + 66) ∧
  (∀ (s : State) (k : Nat), k < 125 → (∀ i < k, s.answer i = false) → s.answer k = true →
    ∃ t : State, exec .reset s = .next t ∧ duration t.trace = duration s.trace + (2 * (k + 1) + 960)) ∧
  (∀ s : State, (∀ i < 125, s.answer i = false) →
    ∃ t : State, exec .reset s = .next t ∧ duration t.trace = duration s.trace + 250) ∧
  (∀ (s : State) (d : Byte) (p : Bit), ∃ t : State, exec (.wbyte d p) s = .next t ∧
    duration t.trace = duration s.trace + (65 * onesOf d + 70 * (8 - onesOf d))) ∧
  (∀ s : State, ∃ t : State, exec .rbyte s = .next t ∧ duration t.trace = duration s.trace + 528)

/-! ## The device enumerator -/

/-- 41_rom_search.md R132: after the last device SEARCH answers R = 0, clears, and does nothing on the bus. -/
def Obligations.SearchAfterTheLastDeviceClearsSilently : Prop :=
  ∀ (s : State) (m : Bit), s.ldf = true →
    exec (.search m) s = .next { s with
      rom := Vector.replicate 8 0, ld := 0, lfd := 0, ldf := false, rsp := some 0x00000000, busy := false }

/-- 41_rom_search.md R133: no presence, by an unanswered pulse or a line that never reads high, clears and answers R = 0; no
command byte is sent. -/
def Obligations.SearchWithoutPresenceClears : Prop :=
  (∀ (s : State) (m : Bit) (k : Nat), s.ldf = false → k < 125 →
    s.upcoming (k + 2) = List.replicate k false ++ [true, true] →
    exec (.search m) s = .next { s.consume (k + 2) with
      oe := false, out := false, rom := Vector.replicate 8 0, ld := 0, lfd := 0, ldf := false,
      trace := s.trace ++ (WireItem.resetPulse s.out k true).events, rsp := some 0x00000000, busy := false }) ∧
  (∀ (s : State) (m : Bit), s.ldf = false → s.upcoming 125 = List.replicate 125 false →
    exec (.search m) s = .next { s.consume 125 with
      oe := false, rom := Vector.replicate 8 0, ld := 0, lfd := 0, ldf := false,
      trace := s.trace ++ (WireItem.resetGiveUp s.out).events, rsp := some 0x00000000, busy := false })

/-- 41_rom_search.md R136 (with R134, R142): a (1,1) pair at position p ends the traversal: 2p read slots and p-1 write slots
after the command byte, nothing written for p, the state cleared, R = 0. -/
def Obligations.SearchAbortsOnASilentPosition : Prop :=
  ∀ (s : State) (m : Bit) (k p : Nat), s.ldf = false → s.presenceAfter k → 1 ≤ p → p ≤ 64 →
    (∀ q, 1 ≤ q → q < p → traversalPair s k q ≠ (true, true)) → traversalPair s k p = (true, true) →
    ∃ t : State, exec (.search m) s = .next t ∧
      t = { s.consume (k + 2 + 2 * p) with
        oe := false, out := false, rom := Vector.replicate 8 0, ld := 0, lfd := 0, ldf := false,
        trace := t.trace, gapDraws := t.gapDraws, rsp := some 0x00000000, busy := false } ∧
      s.trace <+: t.trace ∧
      t.padTrace = s.padTrace ++ wireEvents ([.resetPulse s.out k false] ++ byteItems (searchByte m) false ++
        traversalItems s k (p - 1) ++ [.rslot true, .rslot true])

/-- 41_rom_search.md R134, R135, R137 to R142: a traversal of all 64 positions. Each position takes its direction from the
pair read and from `LD` and `rom` at the start; `rom` then holds the directions, `LD` the last deferred position, `LFD` the last
deferred one in 1..8 (or what it was), `LDF` is set if none was deferred; an address of zeros is a failure. -/
def Obligations.SearchResolvesAllPositions : Prop :=
  (∀ m : Bit, CommandWord (.search m) (layCmd 0 0 0 0 0 m 0x10) .search) ∧
  ∀ (s : State) (m : Bit) (k : Nat), s.ldf = false → s.presenceAfter k →
    (∀ p, 1 ≤ p → p ≤ 64 → traversalPair s k p ≠ (true, true)) →
    ∃ t : State, exec (.search m) s = .next t ∧
      t = { s.consume (k + 130) with
        oe := true, out := true, rom := t.rom, ld := t.ld, lfd := t.lfd, ldf := t.ldf,
        trace := t.trace, gapDraws := t.gapDraws, rsp := t.rsp, busy := false } ∧
      s.trace <+: t.trace ∧
      t.padTrace = s.padTrace ++ wireEvents ([.resetPulse s.out k false] ++ byteItems (searchByte m) false ++
        traversalItems s k 64) ∧
      ((∀ p, 1 ≤ p → p ≤ 64 → traversalDir s k p = false) →
        t.rom = Vector.replicate 8 0 ∧ t.ld = 0 ∧ t.lfd = 0 ∧ t.ldf = false ∧ t.rsp = some 0x00000000) ∧
      ((∃ p, 1 ≤ p ∧ p ≤ 64 ∧ traversalDir s k p = true) →
        (∀ p, 1 ≤ p → p ≤ 64 → romBit t.rom p = traversalDir s k p) ∧
        t.ld.toNat = traversalLast s k 64 ∧
        t.lfd = (if traversalLast s k 8 = 0 then s.lfd else BitVec.ofNat 4 (traversalLast s k 8)) ∧
        t.ldf = decide (traversalLast s k 64 = 0) ∧ t.rsp = some 0x00000100)

/-- 41_rom_search.md R144: SEARCH ends with status OK, and wherever it answers R = 0, for whatever cause, the search state is
the zero state. -/
def Obligations.SearchFailureLeavesTheZeroState : Prop :=
  ∀ (s : State) (m : Bit),
    ∃ t : State, exec (.search m) s = .next t ∧ (t.rsp = some 0x00000000 ∨ t.rsp = some 0x00000100) ∧
      (t.rsp = some 0x00000000 → t.rom = Vector.replicate 8 0 ∧ t.ld = 0 ∧ t.lfd = 0 ∧ t.ldf = false) ∧
      (t.rsp = some 0x00000100 → t.rom ≠ Vector.replicate 8 0 ∧ (t.ldf = true ↔ t.ld = 0))

/-- 41_rom_search.md R145, second sentence: SEARCH uses no input but the search state and the sampled bits. -/
def Obligations.SearchDependsOnlyOnSearchStateAndAnswers : Prop :=
  ∀ (s s' : State) (m : Bit),
    s'.rom = s.rom → s'.ld = s.ld → s'.lfd = s.lfd → s'.ldf = s.ldf → (∀ k, s'.answer k = s.answer k) →
    ∃ t t' : State, exec (.search m) s = .next t ∧ exec (.search m) s' = .next t' ∧
      t'.rom = t.rom ∧ t'.ld = t.ld ∧ t'.lfd = t.lfd ∧ t'.ldf = t.ldf ∧ t'.rsp = t.rsp ∧
      (∀ k, t'.answer k = t.answer k)

/-- 41_rom_search.md R146 (derived by the spec), the first call: on a well-behaved bus, from `LD` = 0, SEARCH finds the present
address that comes first in the order of enumeration, and `LD` is the branch it deferred last. The bus is the fixture of
30_encoding.md R76 with no device of address 0 (which R142 rejects); that `wellBehaved` is that fixture, with the line high at the first poll, is the model's reading (log 13). -/
def Obligations.FirstSearchFindsTheLeastAddress : Prop :=
  ∀ (s : State) (m : Bit) (devs : List (BitVec 64)), devs ≠ [] → (0 : BitVec 64) ∉ devs →
    s.ldf = false → s.ld = 0 → s.wellBehaved devs →
    ∃ t : State, exec (.search m) s = .next t ∧ t.rsp = some 0x00000100 ∧ romWord t.rom ∈ devs ∧
      (∀ y ∈ devs, y ≠ romWord t.rom → addressLt (romWord t.rom) y) ∧
      t.ld.toNat = lastDeferred devs (romWord t.rom) ∧ (t.ldf = true ↔ t.ld = 0)

/-- 41_rom_search.md R146 (derived by the spec), a later call: if `rom` holds a present address and `LD` the branch it deferred
last, SEARCH finds the next present address in the order of enumeration, none in between, and `LD` is again the branch it
deferred last. With the first call this is the whole enumeration.
That `wellBehaved` is the fixture, with the line high at the first poll, is the model's reading (log 13). -/
def Obligations.NextSearchFindsTheNextAddress : Prop :=
  ∀ (s : State) (m : Bit) (devs : List (BitVec 64)), (0 : BitVec 64) ∉ devs →
    romWord s.rom ∈ devs → s.ld ≠ 0 → s.ld.toNat = lastDeferred devs (romWord s.rom) → s.ldf = false →
    s.wellBehaved devs →
    ∃ t : State, exec (.search m) s = .next t ∧ t.rsp = some 0x00000100 ∧ romWord t.rom ∈ devs ∧
      addressLt (romWord s.rom) (romWord t.rom) ∧
      (∀ y ∈ devs, addressLt (romWord s.rom) y → y ≠ romWord t.rom → addressLt (romWord t.rom) y) ∧
      t.ld.toNat = lastDeferred devs (romWord t.rom) ∧ (t.ldf = true ↔ t.ld = 0)

/-- 41_rom_search.md R149 (derived by the spec): after TGTSRCH d, on a well-behaved bus with a device of family d present (and
none of address 0), the first SEARCH returns a present device of family d. That `wellBehaved` is the fixture, with the line high at
the first poll, is the model's reading (log 13). -/
def Obligations.TargetedFirstSearchFindsTheFamily : Prop :=
  ∀ (s s1 : State) (m : Bit) (d : Byte) (devs : List (BitVec 64)), (0 : BitVec 64) ∉ devs →
    (∃ x ∈ devs, x.extractLsb' 0 8 = d) →
    exec (.tgtsrch d) s = .next s1 → s1.wellBehaved devs →
    ∃ t : State, exec (.search m) s1 = .next t ∧ t.rsp = some 0x00000100 ∧ romWord t.rom ∈ devs ∧ romByte t.rom 0 = d

/-- 70_reset_and_hazards.md R237 (derived by the spec): how long a SEARCH of all 64 positions holds the host, gaps not counted: the
write slots last 65 for each direction 1 and 70 for each direction 0 that the traversal writes. -/
def Obligations.FullSearchDuration : Prop :=
  ∀ (s : State) (m : Bit) (k : Nat), s.ldf = false → s.presenceAfter k →
    (∀ p, 1 ≤ p → p ≤ 64 → traversalPair s k p ≠ (true, true)) →
    ∃ t : State, exec (.search m) s = .next t ∧
      duration t.trace = duration s.trace + (2 * (k + 1) + 960) + (if m then 535 else 540) + 64 * 132 +
        65 * traversalOnes s k 64 + 70 * (64 - traversalOnes s k 64)

/-- 41_rom_search.md R147 (with R131). -/
def Obligations.RstsrchClearsTheSearchState : Prop :=
  ∀ s : State,
    CommandWord .rstsrch 0x0000000000000011 .rstsrch ∧
    exec .rstsrch s = .next { s with
      rom := Vector.replicate 8 0, ld := 0, lfd := 0, ldf := false, rsp := some 0x00000000, busy := false }

/-- 41_rom_search.md R148. -/
def Obligations.TgtsrchPrimesTheSearchState : Prop :=
  ∀ (s : State) (d : Byte),
    CommandWord (.tgtsrch d) (layCmd 0 0 0 0 d false 0x12) .tgtsrch ∧
    ∃ t : State, exec (.tgtsrch d) s = .next t ∧
      t = { s with rom := t.rom, ld := 64, lfd := 0, ldf := false, rsp := some 0x00000000, busy := false } ∧
      romByte t.rom 0 = d ∧ (∀ i, 1 ≤ i → i < 8 → romByte t.rom i = 0)

/-- 41_rom_search.md R150: R = `LDF`, V[6:0] = `LD`, V[11:8] = `LFD`, every other bit 0; nothing else changes. -/
def Obligations.RdssReportsTheSearchState : Prop :=
  ∀ s : State,
    CommandWord .rdss 0x0000000000000013 .rdss ∧
    ∃ w : Rsp32, exec .rdss s = .next { s with rsp := some w, busy := false } ∧
      w.toNat = (s.lfd.toNat * 256 + s.ld.toNat) * 65536 + (if s.ldf then 256 else 0)

/-- 41_rom_search.md R151: the eight registers in order; every other byte of BUF is unchanged. -/
def Obligations.Rom2bufCopiesTheAddress : Prop :=
  ∀ (s : State) (a : Byte),
    CommandWord (.rom2buf a) (layCmd 0 0 0 a 0 false 0x14) .rom2buf ∧
    (a.toNat + 8 > 256 → exec (.rom2buf a) s = rangeRefusal s) ∧
    (a.toNat + 8 ≤ 256 → ∃ t : State, exec (.rom2buf a) s = .next t ∧
      t = { s with buf := t.buf, rsp := some 0x00000000, busy := false } ∧
      (∀ i < 8, t.bufByte (a.toNat + i) = romByte s.rom i) ∧
      (∀ x : Nat, x < a.toNat ∨ a.toNat + 8 ≤ x → t.bufByte x = s.bufByte x))

/-! ## The CRC engine -/

/-- 42_crc.md R162, R166, R168: the three commands report their function of the bytes of BUF and change nothing else. -/
def Obligations.CrcCommandsReportTheirFunction : Prop :=
  ∀ (s : State) (a n c : Byte) (seed : Half),
    CommandWord (.crc8 a n) (layCmd 0 0 n a 0 false 0x20) .crc8 ∧
    CommandWord (.crc16 a n seed) (layCmd seed 0 n a 0 false 0x21) .crc16 ∧
    CommandWord (.chkcrc16 a n c seed) (layCmd seed c n a 0 false 0x22) .chkcrc16 ∧
    (a.toNat + n.toNat > 256 → exec (.crc8 a n) s = rangeRefusal s ∧ exec (.crc16 a n seed) s = rangeRefusal s) ∧
    (a.toNat + n.toNat > 256 ∨ c.toNat + 2 > 256 → exec (.chkcrc16 a n c seed) s = rangeRefusal s) ∧
    (a.toNat + n.toNat ≤ 256 → exec (.crc8 a n) s = .next { s with
      rsp := some (packRsp .ok false (valueOfByte (crc8 (s.bytesAt a.toNat n.toNat)))), busy := false }) ∧
    (a.toNat + n.toNat ≤ 256 → exec (.crc16 a n seed) s = .next { s with
      rsp := some (packRsp .ok false (crc16 (s.bytesAt a.toNat n.toNat) seed)), busy := false }) ∧
    (a.toNat + n.toNat ≤ 256 → c.toNat + 2 ≤ 256 →
      exec (.chkcrc16 a n c seed) s = .next { s with
        rsp := some (packRsp .ok
          (checkCrc16 (s.bytesAt a.toNat n.toNat) (s.bufByte c.toNat) (s.bufByte (c.toNat + 1)) seed) 0),
        busy := false })

/-- 42_crc.md R161 (its derived sentence): a sequence followed by its own crc8 has crc8 0, and no other byte has that effect. -/
def Obligations.Crc8OfASequenceWithItsCrcIsZero : Prop :=
  ∀ (bytes : List Byte) (b : Byte), crc8 (bytes ++ [b]) = 0 ↔ b = crc8 bytes

/-- 42_crc.md R165: chaining through the seed; the empty sequence returns the seed. -/
def Obligations.Crc16ChainsThroughItsSeed : Prop :=
  (∀ (front back : List Byte) (seed : Half), crc16 (front ++ back) seed = crc16 back (crc16 front seed)) ∧
  (∀ seed : Half, crc16 [] seed = seed) ∧
  (∀ (b : Byte) (bytes : List Byte) (seed : Half), crc16 (b :: bytes) seed = crc16 bytes (crc16Update seed b))

/-- 42_crc.md R164 (derived by the spec): the nibble-parity form computes the bit-serial function. -/
def Obligations.Crc16ParityFormAgrees : Prop :=
  ∀ (acc : Half) (x : Byte), crc16UpdateParity acc x = crc16Update acc x

/-- 42_crc.md R169 (its derived sentence): both update functions are linear over exclusive-or. -/
def Obligations.CrcUpdatesAreLinear : Prop :=
  (∀ a1 a2 x1 x2 : Byte, crc8Update (a1 ^^^ a2) (x1 ^^^ x2) = crc8Update a1 x1 ^^^ crc8Update a2 x2) ∧
  (∀ (a1 a2 : Half) (x1 x2 : Byte), crc16Update (a1 ^^^ a2) (x1 ^^^ x2) = crc16Update a1 x1 ^^^ crc16Update a2 x2)

/-- 42_crc.md R167: the check compares the complement's low byte with the first byte and its high byte with the second, so the
complement laid out low byte first passes. -/
def Obligations.CheckCrc16AcceptsExactlyTheInvertedCrc : Prop :=
  ∀ (bytes : List Byte) (seed : Half) (inv0 inv1 : Byte),
    (checkCrc16 bytes inv0 inv1 seed = true ↔ inv1 ++ inv0 = ~~~(crc16 bytes seed))

/-- 95_test_vectors.md section 3.3 (the spec's derived vectors T62, T65, T73, T79, and the examples of R160, R163), and both updates
on every single bit of the byte (the spec's lists) and of the accumulator (R160, R163: the loop shifts accumulator and byte alike, and
the high byte of the 16-bit accumulator only shifts down). With their linearity these fix both update functions. -/
def Obligations.CrcCheckValues : Prop :=
  crc8 [0x10, 0, 0, 0, 0, 0, 0] = 0xFB ∧
  crc8 [0x31, 0x32, 0x33, 0x34, 0x35, 0x36, 0x37, 0x38, 0x39] = 0xA1 ∧
  crc16 [0x31, 0x32, 0x33, 0x34, 0x35, 0x36, 0x37, 0x38, 0x39] 0 = 0xBB3D ∧
  crc16 [0x31, 0x32, 0x33, 0x34, 0x35, 0x36, 0x37, 0x38, 0x39] 0xFFFF = 0x4B37 ∧
  crc8Update 0xA5 0x3C = 0x8D ∧ crc16Update 0xBEEF 0x3C = 0x9DFF ∧
  ((List.range 8).map fun i => crc8Update 0 (1#8 <<< i)) = [0x5E, 0xBC, 0x61, 0xC2, 0x9D, 0x23, 0x46, 0x8C] ∧
  ((List.range 8).map fun i => crc8Update (1#8 <<< i) 0) = [0x5E, 0xBC, 0x61, 0xC2, 0x9D, 0x23, 0x46, 0x8C] ∧
  ((List.range 8).map fun i => crc16Update 0 (1#8 <<< i)) =
    [0xC0C1, 0xC181, 0xC301, 0xC601, 0xCC01, 0xD801, 0xF001, 0xA001] ∧
  ((List.range 16).map fun i => crc16Update (1#16 <<< i) 0) =
    [0xC0C1, 0xC181, 0xC301, 0xC601, 0xCC01, 0xD801, 0xF001, 0xA001, 0x01, 0x02, 0x04, 0x08, 0x10, 0x20, 0x40, 0x80]

/-! ## Buffer access -/

/-- 43_buffer_access.md R180: one byte stored, every other byte and everything else unchanged; never refused. -/
def Obligations.BufwrStoresOneByte : Prop :=
  ∀ (s : State) (a d : Byte),
    CommandWord (.bufwr a d) (layCmd 0 0 0 a d false 0x30) .bufwr ∧
    ∃ t : State, exec (.bufwr a d) s = .next t ∧
      t = { s with buf := t.buf, rsp := some 0x00000000, busy := false } ∧
      t.bufByte a.toNat = d ∧ (∀ x : Nat, x ≠ a.toNat → t.bufByte x = s.bufByte x)

/-- 43_buffer_access.md R181: the byte in V[7:0], zero-extended; no side effect. -/
def Obligations.BufrdLoadsOneByte : Prop :=
  ∀ (s : State) (a : Byte),
    CommandWord (.bufrd a) (layCmd 0 0 0 a 0 false 0x31) .bufrd ∧
    ∃ w : Rsp32, exec (.bufrd a) s = .next { s with rsp := some w, busy := false } ∧
      w.toNat = (s.bufByte a.toNat).toNat * 65536

/-! ## Frames over all instructions -/

/-- 10_state.md section 4: no instruction but SEARCH, RSTSRCH and TGTSRCH changes `rom`, `LD`, `LFD` or `LDF`. -/
def Obligations.OnlySearchCommandsWriteTheSearchState : Prop :=
  ∀ (i : Instr) (s t : State), exec i s = .next t →
    (∀ m, i ≠ .search m) → i ≠ .rstsrch → (∀ d, i ≠ .tgtsrch d) →
    t.rom = s.rom ∧ t.ld = s.ld ∧ t.lfd = s.lfd ∧ t.ldf = s.ldf

/-- 20_memory.md section 1: every byte of BUF outside the addresses the instruction stores to reads as before; for an
instruction that stores nothing, every byte. -/
def Obligations.EveryByteOutsideTheStoredOnesIsUnchanged : Prop :=
  ∀ (i : Instr) (s t : State), exec i s = .next t →
    ∀ x : Nat, x ∉ bufWrites i → t.bufByte x = s.bufByte x

/-- 40_bus_line_driver.md section 3, last row: the commands off the bus leave the driver and the pad trace alone and take no
sample; no instruction touches the host's further words or the model's own reset count and line (log 7, log 16). -/
def Obligations.CommandsOffTheBusLeaveTheLineAlone : Prop :=
  ∀ (i : Instr) (s t : State), exec i s = .next t →
    t.cmds = s.cmds ∧ t.bufEpoch = s.bufEpoch ∧ t.line = s.line ∧
    ((i = .rstsrch ∨ (∃ d, i = .tgtsrch d) ∨ i = .rdss ∨ (∃ a, i = .rom2buf a) ∨ (∃ a n, i = .crc8 a n) ∨
      (∃ a n sd, i = .crc16 a n sd) ∨ (∃ a n c sd, i = .chkcrc16 a n c sd) ∨ (∃ a d, i = .bufwr a d) ∨ (∃ a, i = .bufrd a)) →
      t.oe = s.oe ∧ t.out = s.out ∧ t.trace = s.trace ∧ t.gapDraws = s.gapDraws ∧ t.samples = s.samples ∧
      t.sampleDraws = s.sampleDraws)

/-- 93_implementation_defined.md U4: no result depends on the gaps drawn, nor on the trace of the commands before; the command
adds the same events, gaps left out. -/
def Obligations.GapsNeverAffectAResult : Prop :=
  ∀ (i : Instr) (s : State) (g : Nat) (tr : List PadEvent),
    ∃ (t t' : State) (ev : List PadEvent),
      exec i s = .next t ∧ exec i { s with gapDraws := g, trace := tr } = .next t' ∧
      t' = { t with gapDraws := t'.gapDraws, trace := t'.trace } ∧
      t.padTrace = s.padTrace ++ ev ∧ t'.padTrace = dropGaps tr ++ ev

/-- 00_scope.md R5, 60_exceptions.md R213: a command on one instance is that instance's own step and changes no other one; steps of two
instances may come in either order, with the same outcome. -/
def Obligations.InstancesAreIndependent : Prop :=
  (∀ (k : Nat) (sys sys' : Instances), stepInstance k sys = some sys' →
    sys'.length = sys.length ∧ (∀ j, j ≠ k → sys'[j]? = sys[j]?) ∧
    (∃ s t : State, sys[k]? = some s ∧ step s = .next t ∧ sys'[k]? = some t)) ∧
  (∀ (j k : Nat) (sys a b : Instances), j ≠ k → stepInstance j sys = some a → stepInstance k a = some b →
    ∃ a' : Instances, stepInstance k sys = some a' ∧ stepInstance j a' = some b)

/-- 60_exceptions.md R213, 00_scope.md R5: every instance starts in the reset state on a line of its own; any of them may be reset,
together or separately, and the others stay as they are; steps and resets leave each instance on its line. The line as a field
that selects the free values is the model's (log 16). -/
def Obligations.InstancesStartAndResetOnTheirOwnLines : Prop :=
  (∀ n k : Nat, k < n → (Instances.start n)[k]? = some { State.reset with line := k }) ∧
  (∀ n : Nat, (Instances.start n).length = n ∧ (Instances.start n).wf) ∧
  (∀ (ks : List Nat) (sys : Instances), (resetInstances ks sys).length = sys.length ∧
    (∀ k, k ∉ ks → (resetInstances ks sys)[k]? = sys[k]?) ∧
    (∀ k ∈ ks, (resetInstances ks sys)[k]? = sys[k]?.map State.hwReset)) ∧
  (∀ (ks : List Nat) (sys : Instances), sys.wf → (resetInstances ks sys).wf) ∧
  (∀ (k : Nat) (sys sys' : Instances), sys.wf → stepInstance k sys = some sys' → sys'.wf)
end

