-- ==== Sys2Proof/Laws/Decode.lean ====
section
/-! SUPPORT. The opcode table: the rows are disjoint, each fixes its `OP`, and the fields of a laid-out word are its parts. -/

namespace Sys2Proof

theorem Op.mem_all (o : Op) : o ∈ Op.all := by cases o <;> decide

theorem Op.code_injective {o o' : Op} (h : o.code = o'.code) : o = o' := by
  cases o <;> cases o' <;> first | rfl | exact absurd h (by decide)

theorem Op.ofCode_code (o : Op) : Op.ofCode o.code = some o := by cases o <;> decide

/-- A row is found exactly for its own `OP`. -/
theorem Op.ofCode_eq_some {b : Byte} {o : Op} : Op.ofCode b = some o ↔ b = o.code := by
  constructor
  · intro h
    have := List.find?_some (p := fun o : Op => o.code == b) h
    exact (beq_iff_eq.mp this).symm
  · rintro rfl; exact Op.ofCode_code o

theorem Op.ofCode_eq_none {b : Byte} : Op.ofCode b = none ↔ ∀ o : Op, b ≠ o.code := by
  constructor
  · intro h o ho
    rw [ho, Op.ofCode_code] at h
    cases h
  · intro h
    cases hc : Op.ofCode b with
    | none => rfl
    | some o => exact absurd (Op.ofCode_eq_some.mp hc) (h o)

/-- Every mask covers `OP` (30_encoding.md R62), so a word that matches a row carries the row's opcode. -/
theorem Op.code_of_match {w : Cmd64} {o : Op} (h : w &&& o.mask = o.pattern) : fieldOP w = o.code := by
  have h2 : fieldOP (w &&& o.mask) = fieldOP w := by
    apply BitVec.eq_of_getLsbD_eq
    intro i hi
    have : o.mask.getLsbD i = true := by
      have hm : ∀ i < 8, o.mask.getLsbD i = true := by cases o <;> decide
      exact hm i hi
    simp [fieldOP, this]
  rw [← h2, h]
  cases o <;> decide

/-- The decoder on a word that matches a row. -/
theorem decodeCmd_of_match {w : Cmd64} {o : Op} (h : w &&& o.mask = o.pattern) : decodeCmd w = .ok (o.instr w) := by
  unfold decodeCmd
  rw [Op.code_of_match h, Op.ofCode_code]
  exact if_pos h

/-- Everything the decoder can answer. -/
theorem decodeCmd_cases (w : Cmd64) :
    (decodeCmd w = .error .opcode ∧ ∀ o : Op, fieldOP w ≠ o.code) ∨
    (∃ o : Op, decodeCmd w = .error .field ∧ fieldOP w = o.code ∧ w &&& o.mask ≠ o.pattern) ∨
    (∃ o : Op, decodeCmd w = .ok (o.instr w) ∧ w &&& o.mask = o.pattern) := by
  cases hc : Op.ofCode (fieldOP w) with
  | none => exact .inl ⟨by simp [decodeCmd, hc], Op.ofCode_eq_none.mp hc⟩
  | some o =>
    by_cases h : w &&& o.mask = o.pattern
    · exact .inr (.inr ⟨o, decodeCmd_of_match h, h⟩)
    · exact .inr (.inl ⟨o, by simp [decodeCmd, hc, h], Op.ofCode_eq_some.mp hc, h⟩)

section layout
variable (s : Half) (c n a d : Byte) (f : Bit) (op : Byte)

/-- Each bit of a laid-out word is the bit of its field (30_encoding.md R61). -/
theorem layCmd_getLsbD (i : Nat) : (layCmd s c n a d f op).getLsbD i =
    if i < 8 then op.getLsbD i else if i - 8 < 8 then (0#7 ++ BitVec.ofBool f).getLsbD (i - 8)
    else if i - 8 - 8 < 8 then d.getLsbD (i - 8 - 8) else if i - 8 - 8 - 8 < 8 then a.getLsbD (i - 8 - 8 - 8)
    else if i - 8 - 8 - 8 - 8 < 8 then n.getLsbD (i - 8 - 8 - 8 - 8)
    else if i - 8 - 8 - 8 - 8 - 8 < 8 then c.getLsbD (i - 8 - 8 - 8 - 8 - 8)
    else s.getLsbD (i - 8 - 8 - 8 - 8 - 8 - 8) := by
  have h : (layCmd s c n a d f op).getLsbD i = BitVec.getLsbD (w := 16 + 8 + 8 + 8 + 8 + (7 + 1) + 8)
      (s ++ c ++ n ++ a ++ d ++ (0#7 ++ BitVec.ofBool f) ++ op) i := rfl
  rw [h]
  simp only [BitVec.getLsbD_append (y := op), BitVec.getLsbD_append (y := (0#7 ++ BitVec.ofBool f)),
    BitVec.getLsbD_append (y := d), BitVec.getLsbD_append (y := a), BitVec.getLsbD_append (y := n),
    BitVec.getLsbD_append (y := c)]

@[simp] theorem fieldOP_layCmd : fieldOP (layCmd s c n a d f op) = op := by
  apply BitVec.eq_of_getLsbD_eq
  intro i hi
  rw [fieldOP, BitVec.getLsbD_extractLsb', layCmd_getLsbD]
  simp only [hi, decide_true, Bool.true_and]
  split_ifs <;> first
    | omega
    | (congr 1; omega)

@[simp] theorem fieldD_layCmd : fieldD (layCmd s c n a d f op) = d := by
  apply BitVec.eq_of_getLsbD_eq
  intro i hi
  rw [fieldD, BitVec.getLsbD_extractLsb', layCmd_getLsbD]
  simp only [hi, decide_true, Bool.true_and]
  split_ifs <;> first
    | omega
    | (congr 1; omega)

@[simp] theorem fieldA_layCmd : fieldA (layCmd s c n a d f op) = a := by
  apply BitVec.eq_of_getLsbD_eq
  intro i hi
  rw [fieldA, BitVec.getLsbD_extractLsb', layCmd_getLsbD]
  simp only [hi, decide_true, Bool.true_and]
  split_ifs <;> first
    | omega
    | (congr 1; omega)

@[simp] theorem fieldN_layCmd : fieldN (layCmd s c n a d f op) = n := by
  apply BitVec.eq_of_getLsbD_eq
  intro i hi
  rw [fieldN, BitVec.getLsbD_extractLsb', layCmd_getLsbD]
  simp only [hi, decide_true, Bool.true_and]
  split_ifs <;> first
    | omega
    | (congr 1; omega)

@[simp] theorem fieldC_layCmd : fieldC (layCmd s c n a d f op) = c := by
  apply BitVec.eq_of_getLsbD_eq
  intro i hi
  rw [fieldC, BitVec.getLsbD_extractLsb', layCmd_getLsbD]
  simp only [hi, decide_true, Bool.true_and]
  split_ifs <;> first
    | omega
    | (congr 1; omega)

@[simp] theorem fieldS_layCmd : fieldS (layCmd s c n a d f op) = s := by
  apply BitVec.eq_of_getLsbD_eq
  intro i hi
  rw [fieldS, BitVec.getLsbD_extractLsb', layCmd_getLsbD]
  simp only [hi, decide_true, Bool.true_and]
  split_ifs <;> first
    | omega
    | (congr 1; omega)

@[simp] theorem fieldF_layCmd : fieldF (layCmd s c n a d f op) = f := by
  rw [fieldF, layCmd_getLsbD]
  cases f <;> rfl

end layout

end Sys2Proof
end

