-- ==== Sys2Proof/Laws/State.lean ====
section
/-! SUPPORT. One lemma per field per named update of State, each true by unfolding the update once, so that no later proof does. -/

namespace Sys2Proof.Machine

variable (s : State)

@[simp] theorem emit_oe (e : PadEvent) : (s.emit e).oe = s.oe := rfl
@[simp] theorem emit_out (e : PadEvent) : (s.emit e).out = s.out := rfl
@[simp] theorem emit_rom (e : PadEvent) : (s.emit e).rom = s.rom := rfl
@[simp] theorem emit_ld (e : PadEvent) : (s.emit e).ld = s.ld := rfl
@[simp] theorem emit_lfd (e : PadEvent) : (s.emit e).lfd = s.lfd := rfl
@[simp] theorem emit_ldf (e : PadEvent) : (s.emit e).ldf = s.ldf := rfl
@[simp] theorem emit_buf (e : PadEvent) : (s.emit e).buf = s.buf := rfl
@[simp] theorem emit_busy (e : PadEvent) : (s.emit e).busy = s.busy := rfl
@[simp] theorem emit_rsp (e : PadEvent) : (s.emit e).rsp = s.rsp := rfl
@[simp] theorem emit_cmds (e : PadEvent) : (s.emit e).cmds = s.cmds := rfl
@[simp] theorem emit_samples (e : PadEvent) : (s.emit e).samples = s.samples := rfl
@[simp] theorem emit_sampleDraws (e : PadEvent) : (s.emit e).sampleDraws = s.sampleDraws := rfl
@[simp] theorem emit_trace (e : PadEvent) : (s.emit e).trace = s.trace ++ [e] := rfl
@[simp] theorem emit_gapDraws (e : PadEvent) : (s.emit e).gapDraws = s.gapDraws := rfl
@[simp] theorem emit_bufEpoch (e : PadEvent) : (s.emit e).bufEpoch = s.bufEpoch := rfl
@[simp] theorem emit_line (e : PadEvent) : (s.emit e).line = s.line := rfl

@[simp] theorem drive_oe (oe out : Bit) : (s.drive oe out).oe = oe := rfl
@[simp] theorem drive_out (oe out : Bit) : (s.drive oe out).out = out := rfl
@[simp] theorem drive_rom (oe out : Bit) : (s.drive oe out).rom = s.rom := rfl
@[simp] theorem drive_ld (oe out : Bit) : (s.drive oe out).ld = s.ld := rfl
@[simp] theorem drive_lfd (oe out : Bit) : (s.drive oe out).lfd = s.lfd := rfl
@[simp] theorem drive_ldf (oe out : Bit) : (s.drive oe out).ldf = s.ldf := rfl
@[simp] theorem drive_buf (oe out : Bit) : (s.drive oe out).buf = s.buf := rfl
@[simp] theorem drive_busy (oe out : Bit) : (s.drive oe out).busy = s.busy := rfl
@[simp] theorem drive_rsp (oe out : Bit) : (s.drive oe out).rsp = s.rsp := rfl
@[simp] theorem drive_cmds (oe out : Bit) : (s.drive oe out).cmds = s.cmds := rfl
@[simp] theorem drive_samples (oe out : Bit) : (s.drive oe out).samples = s.samples := rfl
@[simp] theorem drive_sampleDraws (oe out : Bit) : (s.drive oe out).sampleDraws = s.sampleDraws := rfl
@[simp] theorem drive_trace (oe out : Bit) : (s.drive oe out).trace = s.trace ++ [.drive oe out] := rfl
@[simp] theorem drive_gapDraws (oe out : Bit) : (s.drive oe out).gapDraws = s.gapDraws := rfl
@[simp] theorem drive_bufEpoch (oe out : Bit) : (s.drive oe out).bufEpoch = s.bufEpoch := rfl
@[simp] theorem drive_line (oe out : Bit) : (s.drive oe out).line = s.line := rfl

@[simp] theorem wait_oe (n : Nat) : (s.wait n).oe = s.oe := rfl
@[simp] theorem wait_out (n : Nat) : (s.wait n).out = s.out := rfl
@[simp] theorem wait_rom (n : Nat) : (s.wait n).rom = s.rom := rfl
@[simp] theorem wait_ld (n : Nat) : (s.wait n).ld = s.ld := rfl
@[simp] theorem wait_lfd (n : Nat) : (s.wait n).lfd = s.lfd := rfl
@[simp] theorem wait_ldf (n : Nat) : (s.wait n).ldf = s.ldf := rfl
@[simp] theorem wait_buf (n : Nat) : (s.wait n).buf = s.buf := rfl
@[simp] theorem wait_busy (n : Nat) : (s.wait n).busy = s.busy := rfl
@[simp] theorem wait_rsp (n : Nat) : (s.wait n).rsp = s.rsp := rfl
@[simp] theorem wait_cmds (n : Nat) : (s.wait n).cmds = s.cmds := rfl
@[simp] theorem wait_samples (n : Nat) : (s.wait n).samples = s.samples := rfl
@[simp] theorem wait_sampleDraws (n : Nat) : (s.wait n).sampleDraws = s.sampleDraws := rfl
@[simp] theorem wait_trace (n : Nat) : (s.wait n).trace = s.trace ++ [.wait n] := rfl
@[simp] theorem wait_gapDraws (n : Nat) : (s.wait n).gapDraws = s.gapDraws := rfl
@[simp] theorem wait_bufEpoch (n : Nat) : (s.wait n).bufEpoch = s.bufEpoch := rfl
@[simp] theorem wait_line (n : Nat) : (s.wait n).line = s.line := rfl

@[simp] theorem sectBegin_oe : (s.sectBegin).oe = s.oe := rfl
@[simp] theorem sectBegin_out : (s.sectBegin).out = s.out := rfl
@[simp] theorem sectBegin_rom : (s.sectBegin).rom = s.rom := rfl
@[simp] theorem sectBegin_ld : (s.sectBegin).ld = s.ld := rfl
@[simp] theorem sectBegin_lfd : (s.sectBegin).lfd = s.lfd := rfl
@[simp] theorem sectBegin_ldf : (s.sectBegin).ldf = s.ldf := rfl
@[simp] theorem sectBegin_buf : (s.sectBegin).buf = s.buf := rfl
@[simp] theorem sectBegin_busy : (s.sectBegin).busy = s.busy := rfl
@[simp] theorem sectBegin_rsp : (s.sectBegin).rsp = s.rsp := rfl
@[simp] theorem sectBegin_cmds : (s.sectBegin).cmds = s.cmds := rfl
@[simp] theorem sectBegin_samples : (s.sectBegin).samples = s.samples := rfl
@[simp] theorem sectBegin_sampleDraws : (s.sectBegin).sampleDraws = s.sampleDraws := rfl
@[simp] theorem sectBegin_trace : (s.sectBegin).trace = s.trace ++ [.sectBegin] := rfl
@[simp] theorem sectBegin_gapDraws : (s.sectBegin).gapDraws = s.gapDraws := rfl
@[simp] theorem sectBegin_bufEpoch : (s.sectBegin).bufEpoch = s.bufEpoch := rfl
@[simp] theorem sectBegin_line : (s.sectBegin).line = s.line := rfl

@[simp] theorem sectEnd_oe : (s.sectEnd).oe = s.oe := rfl
@[simp] theorem sectEnd_out : (s.sectEnd).out = s.out := rfl
@[simp] theorem sectEnd_rom : (s.sectEnd).rom = s.rom := rfl
@[simp] theorem sectEnd_ld : (s.sectEnd).ld = s.ld := rfl
@[simp] theorem sectEnd_lfd : (s.sectEnd).lfd = s.lfd := rfl
@[simp] theorem sectEnd_ldf : (s.sectEnd).ldf = s.ldf := rfl
@[simp] theorem sectEnd_buf : (s.sectEnd).buf = s.buf := rfl
@[simp] theorem sectEnd_busy : (s.sectEnd).busy = s.busy := rfl
@[simp] theorem sectEnd_rsp : (s.sectEnd).rsp = s.rsp := rfl
@[simp] theorem sectEnd_cmds : (s.sectEnd).cmds = s.cmds := rfl
@[simp] theorem sectEnd_samples : (s.sectEnd).samples = s.samples := rfl
@[simp] theorem sectEnd_sampleDraws : (s.sectEnd).sampleDraws = s.sampleDraws := rfl
@[simp] theorem sectEnd_trace : (s.sectEnd).trace = s.trace ++ [.sectEnd] := rfl
@[simp] theorem sectEnd_gapDraws : (s.sectEnd).gapDraws = s.gapDraws := rfl
@[simp] theorem sectEnd_bufEpoch : (s.sectEnd).bufEpoch = s.bufEpoch := rfl
@[simp] theorem sectEnd_line : (s.sectEnd).line = s.line := rfl

@[simp] theorem consume_oe (n : Nat) : (s.consume n).oe = s.oe := rfl
@[simp] theorem consume_out (n : Nat) : (s.consume n).out = s.out := rfl
@[simp] theorem consume_rom (n : Nat) : (s.consume n).rom = s.rom := rfl
@[simp] theorem consume_ld (n : Nat) : (s.consume n).ld = s.ld := rfl
@[simp] theorem consume_lfd (n : Nat) : (s.consume n).lfd = s.lfd := rfl
@[simp] theorem consume_ldf (n : Nat) : (s.consume n).ldf = s.ldf := rfl
@[simp] theorem consume_buf (n : Nat) : (s.consume n).buf = s.buf := rfl
@[simp] theorem consume_busy (n : Nat) : (s.consume n).busy = s.busy := rfl
@[simp] theorem consume_rsp (n : Nat) : (s.consume n).rsp = s.rsp := rfl
@[simp] theorem consume_cmds (n : Nat) : (s.consume n).cmds = s.cmds := rfl
@[simp] theorem consume_samples (n : Nat) : (s.consume n).samples = s.samples.drop n := rfl
@[simp] theorem consume_sampleDraws (n : Nat) : (s.consume n).sampleDraws = s.sampleDraws + (n - s.samples.length) := rfl
@[simp] theorem consume_trace (n : Nat) : (s.consume n).trace = s.trace := rfl
@[simp] theorem consume_gapDraws (n : Nat) : (s.consume n).gapDraws = s.gapDraws := rfl
@[simp] theorem consume_bufEpoch (n : Nat) : (s.consume n).bufEpoch = s.bufEpoch := rfl
@[simp] theorem consume_line (n : Nat) : (s.consume n).line = s.line := rfl

@[simp] theorem gap_oe : (s.gap).oe = s.oe := rfl
@[simp] theorem gap_out : (s.gap).out = s.out := rfl
@[simp] theorem gap_rom : (s.gap).rom = s.rom := rfl
@[simp] theorem gap_ld : (s.gap).ld = s.ld := rfl
@[simp] theorem gap_lfd : (s.gap).lfd = s.lfd := rfl
@[simp] theorem gap_ldf : (s.gap).ldf = s.ldf := rfl
@[simp] theorem gap_buf : (s.gap).buf = s.buf := rfl
@[simp] theorem gap_busy : (s.gap).busy = s.busy := rfl
@[simp] theorem gap_rsp : (s.gap).rsp = s.rsp := rfl
@[simp] theorem gap_cmds : (s.gap).cmds = s.cmds := rfl
@[simp] theorem gap_samples : (s.gap).samples = s.samples := rfl
@[simp] theorem gap_sampleDraws : (s.gap).sampleDraws = s.sampleDraws := rfl
@[simp] theorem gap_trace : (s.gap).trace = s.trace ++ [.gap (Config.freeGap s.line s.gapDraws)] := rfl
@[simp] theorem gap_gapDraws : (s.gap).gapDraws = s.gapDraws + 1 := rfl
@[simp] theorem gap_bufEpoch : (s.gap).bufEpoch = s.bufEpoch := rfl
@[simp] theorem gap_line : (s.gap).line = s.line := rfl

@[simp] theorem setBufByte_oe (a : Nat) (v : Byte) : (s.setBufByte a v).oe = s.oe := rfl
@[simp] theorem setBufByte_out (a : Nat) (v : Byte) : (s.setBufByte a v).out = s.out := rfl
@[simp] theorem setBufByte_rom (a : Nat) (v : Byte) : (s.setBufByte a v).rom = s.rom := rfl
@[simp] theorem setBufByte_ld (a : Nat) (v : Byte) : (s.setBufByte a v).ld = s.ld := rfl
@[simp] theorem setBufByte_lfd (a : Nat) (v : Byte) : (s.setBufByte a v).lfd = s.lfd := rfl
@[simp] theorem setBufByte_ldf (a : Nat) (v : Byte) : (s.setBufByte a v).ldf = s.ldf := rfl
@[simp] theorem setBufByte_buf (a : Nat) (v : Byte) : (s.setBufByte a v).buf = Memory.set s.buf a v := rfl
@[simp] theorem setBufByte_busy (a : Nat) (v : Byte) : (s.setBufByte a v).busy = s.busy := rfl
@[simp] theorem setBufByte_rsp (a : Nat) (v : Byte) : (s.setBufByte a v).rsp = s.rsp := rfl
@[simp] theorem setBufByte_cmds (a : Nat) (v : Byte) : (s.setBufByte a v).cmds = s.cmds := rfl
@[simp] theorem setBufByte_samples (a : Nat) (v : Byte) : (s.setBufByte a v).samples = s.samples := rfl
@[simp] theorem setBufByte_sampleDraws (a : Nat) (v : Byte) : (s.setBufByte a v).sampleDraws = s.sampleDraws := rfl
@[simp] theorem setBufByte_trace (a : Nat) (v : Byte) : (s.setBufByte a v).trace = s.trace := rfl
@[simp] theorem setBufByte_gapDraws (a : Nat) (v : Byte) : (s.setBufByte a v).gapDraws = s.gapDraws := rfl
@[simp] theorem setBufByte_bufEpoch (a : Nat) (v : Byte) : (s.setBufByte a v).bufEpoch = s.bufEpoch := rfl
@[simp] theorem setBufByte_line (a : Nat) (v : Byte) : (s.setBufByte a v).line = s.line := rfl

@[simp] theorem accept_oe (l : List Cmd64) : (s.accept l).oe = s.oe := rfl
@[simp] theorem accept_out (l : List Cmd64) : (s.accept l).out = s.out := rfl
@[simp] theorem accept_rom (l : List Cmd64) : (s.accept l).rom = s.rom := rfl
@[simp] theorem accept_ld (l : List Cmd64) : (s.accept l).ld = s.ld := rfl
@[simp] theorem accept_lfd (l : List Cmd64) : (s.accept l).lfd = s.lfd := rfl
@[simp] theorem accept_ldf (l : List Cmd64) : (s.accept l).ldf = s.ldf := rfl
@[simp] theorem accept_buf (l : List Cmd64) : (s.accept l).buf = s.buf := rfl
@[simp] theorem accept_busy (l : List Cmd64) : (s.accept l).busy = true := rfl
@[simp] theorem accept_rsp (l : List Cmd64) : (s.accept l).rsp = none := rfl
@[simp] theorem accept_cmds (l : List Cmd64) : (s.accept l).cmds = l := rfl
@[simp] theorem accept_samples (l : List Cmd64) : (s.accept l).samples = s.samples := rfl
@[simp] theorem accept_sampleDraws (l : List Cmd64) : (s.accept l).sampleDraws = s.sampleDraws := rfl
@[simp] theorem accept_trace (l : List Cmd64) : (s.accept l).trace = s.trace := rfl
@[simp] theorem accept_gapDraws (l : List Cmd64) : (s.accept l).gapDraws = s.gapDraws := rfl
@[simp] theorem accept_bufEpoch (l : List Cmd64) : (s.accept l).bufEpoch = s.bufEpoch := rfl
@[simp] theorem accept_line (l : List Cmd64) : (s.accept l).line = s.line := rfl

@[simp] theorem respond_oe (st : Status) (r : Bit) (v : Half) : (s.respond st r v).oe = s.oe := rfl
@[simp] theorem respond_out (st : Status) (r : Bit) (v : Half) : (s.respond st r v).out = s.out := rfl
@[simp] theorem respond_rom (st : Status) (r : Bit) (v : Half) : (s.respond st r v).rom = s.rom := rfl
@[simp] theorem respond_ld (st : Status) (r : Bit) (v : Half) : (s.respond st r v).ld = s.ld := rfl
@[simp] theorem respond_lfd (st : Status) (r : Bit) (v : Half) : (s.respond st r v).lfd = s.lfd := rfl
@[simp] theorem respond_ldf (st : Status) (r : Bit) (v : Half) : (s.respond st r v).ldf = s.ldf := rfl
@[simp] theorem respond_buf (st : Status) (r : Bit) (v : Half) : (s.respond st r v).buf = s.buf := rfl
@[simp] theorem respond_busy (st : Status) (r : Bit) (v : Half) : (s.respond st r v).busy = false := rfl
@[simp] theorem respond_rsp (st : Status) (r : Bit) (v : Half) : (s.respond st r v).rsp = some (packRsp st r v) := rfl
@[simp] theorem respond_cmds (st : Status) (r : Bit) (v : Half) : (s.respond st r v).cmds = s.cmds := rfl
@[simp] theorem respond_samples (st : Status) (r : Bit) (v : Half) : (s.respond st r v).samples = s.samples := rfl
@[simp] theorem respond_sampleDraws (st : Status) (r : Bit) (v : Half) : (s.respond st r v).sampleDraws = s.sampleDraws := rfl
@[simp] theorem respond_trace (st : Status) (r : Bit) (v : Half) : (s.respond st r v).trace = s.trace := rfl
@[simp] theorem respond_gapDraws (st : Status) (r : Bit) (v : Half) : (s.respond st r v).gapDraws = s.gapDraws := rfl
@[simp] theorem respond_bufEpoch (st : Status) (r : Bit) (v : Half) : (s.respond st r v).bufEpoch = s.bufEpoch := rfl
@[simp] theorem respond_line (st : Status) (r : Bit) (v : Half) : (s.respond st r v).line = s.line := rfl

@[simp] theorem refuse_oe (st : Status) : (s.refuse st).oe = s.oe := rfl
@[simp] theorem refuse_out (st : Status) : (s.refuse st).out = s.out := rfl
@[simp] theorem refuse_rom (st : Status) : (s.refuse st).rom = s.rom := rfl
@[simp] theorem refuse_ld (st : Status) : (s.refuse st).ld = s.ld := rfl
@[simp] theorem refuse_lfd (st : Status) : (s.refuse st).lfd = s.lfd := rfl
@[simp] theorem refuse_ldf (st : Status) : (s.refuse st).ldf = s.ldf := rfl
@[simp] theorem refuse_buf (st : Status) : (s.refuse st).buf = s.buf := rfl
@[simp] theorem refuse_busy (st : Status) : (s.refuse st).busy = false := rfl
@[simp] theorem refuse_rsp (st : Status) : (s.refuse st).rsp = some (packRsp st false 0) := rfl
@[simp] theorem refuse_cmds (st : Status) : (s.refuse st).cmds = s.cmds := rfl
@[simp] theorem refuse_samples (st : Status) : (s.refuse st).samples = s.samples := rfl
@[simp] theorem refuse_sampleDraws (st : Status) : (s.refuse st).sampleDraws = s.sampleDraws := rfl
@[simp] theorem refuse_trace (st : Status) : (s.refuse st).trace = s.trace := rfl
@[simp] theorem refuse_gapDraws (st : Status) : (s.refuse st).gapDraws = s.gapDraws := rfl
@[simp] theorem refuse_bufEpoch (st : Status) : (s.refuse st).bufEpoch = s.bufEpoch := rfl
@[simp] theorem refuse_line (st : Status) : (s.refuse st).line = s.line := rfl

@[simp] theorem searchClear_oe : (s.searchClear).oe = s.oe := rfl
@[simp] theorem searchClear_out : (s.searchClear).out = s.out := rfl
@[simp] theorem searchClear_rom : (s.searchClear).rom = Vector.replicate 8 0 := rfl
@[simp] theorem searchClear_ld : (s.searchClear).ld = 0 := rfl
@[simp] theorem searchClear_lfd : (s.searchClear).lfd = 0 := rfl
@[simp] theorem searchClear_ldf : (s.searchClear).ldf = false := rfl
@[simp] theorem searchClear_buf : (s.searchClear).buf = s.buf := rfl
@[simp] theorem searchClear_busy : (s.searchClear).busy = s.busy := rfl
@[simp] theorem searchClear_rsp : (s.searchClear).rsp = s.rsp := rfl
@[simp] theorem searchClear_cmds : (s.searchClear).cmds = s.cmds := rfl
@[simp] theorem searchClear_samples : (s.searchClear).samples = s.samples := rfl
@[simp] theorem searchClear_sampleDraws : (s.searchClear).sampleDraws = s.sampleDraws := rfl
@[simp] theorem searchClear_trace : (s.searchClear).trace = s.trace := rfl
@[simp] theorem searchClear_gapDraws : (s.searchClear).gapDraws = s.gapDraws := rfl
@[simp] theorem searchClear_bufEpoch : (s.searchClear).bufEpoch = s.bufEpoch := rfl
@[simp] theorem searchClear_line : (s.searchClear).line = s.line := rfl

@[simp] theorem searchPrime_oe (d : Byte) : (s.searchPrime d).oe = s.oe := rfl
@[simp] theorem searchPrime_out (d : Byte) : (s.searchPrime d).out = s.out := rfl
@[simp] theorem searchPrime_rom (d : Byte) : (s.searchPrime d).rom = (Vector.replicate 8 0).setIfInBounds 0 d := rfl
@[simp] theorem searchPrime_ld (d : Byte) : (s.searchPrime d).ld = 64 := rfl
@[simp] theorem searchPrime_lfd (d : Byte) : (s.searchPrime d).lfd = 0 := rfl
@[simp] theorem searchPrime_ldf (d : Byte) : (s.searchPrime d).ldf = false := rfl
@[simp] theorem searchPrime_buf (d : Byte) : (s.searchPrime d).buf = s.buf := rfl
@[simp] theorem searchPrime_busy (d : Byte) : (s.searchPrime d).busy = s.busy := rfl
@[simp] theorem searchPrime_rsp (d : Byte) : (s.searchPrime d).rsp = s.rsp := rfl
@[simp] theorem searchPrime_cmds (d : Byte) : (s.searchPrime d).cmds = s.cmds := rfl
@[simp] theorem searchPrime_samples (d : Byte) : (s.searchPrime d).samples = s.samples := rfl
@[simp] theorem searchPrime_sampleDraws (d : Byte) : (s.searchPrime d).sampleDraws = s.sampleDraws := rfl
@[simp] theorem searchPrime_trace (d : Byte) : (s.searchPrime d).trace = s.trace := rfl
@[simp] theorem searchPrime_gapDraws (d : Byte) : (s.searchPrime d).gapDraws = s.gapDraws := rfl
@[simp] theorem searchPrime_bufEpoch (d : Byte) : (s.searchPrime d).bufEpoch = s.bufEpoch := rfl
@[simp] theorem searchPrime_line (d : Byte) : (s.searchPrime d).line = s.line := rfl

/-! Hardware reset (70_reset_and_hazards.md R220). -/

@[simp] theorem hwReset_oe : (s.hwReset).oe = false := rfl
@[simp] theorem hwReset_out : (s.hwReset).out = false := rfl
@[simp] theorem hwReset_rom : (s.hwReset).rom = Vector.replicate 8 0 := rfl
@[simp] theorem hwReset_ld : (s.hwReset).ld = 0 := rfl
@[simp] theorem hwReset_lfd : (s.hwReset).lfd = 0 := rfl
@[simp] theorem hwReset_ldf : (s.hwReset).ldf = false := rfl
@[simp] theorem hwReset_buf : (s.hwReset).buf = [] := rfl
@[simp] theorem hwReset_busy : (s.hwReset).busy = false := rfl
@[simp] theorem hwReset_rsp : (s.hwReset).rsp = none := rfl
@[simp] theorem hwReset_cmds : (s.hwReset).cmds = s.cmds := rfl
@[simp] theorem hwReset_samples : (s.hwReset).samples = s.samples := rfl
@[simp] theorem hwReset_sampleDraws : (s.hwReset).sampleDraws = s.sampleDraws := rfl
@[simp] theorem hwReset_trace : (s.hwReset).trace = [] := rfl
@[simp] theorem hwReset_gapDraws : (s.hwReset).gapDraws = s.gapDraws := rfl
@[simp] theorem hwReset_bufEpoch : (s.hwReset).bufEpoch = s.bufEpoch + 1 := rfl
@[simp] theorem hwReset_line : (s.hwReset).line = s.line := rfl

/-- A sample answers the environment's next bit and uses it up. -/
@[simp] theorem sample_fst : s.sample.1 = s.answer 0 := rfl
theorem sample_snd : s.sample.2 = (s.consume 1).emit (.sample (s.answer 0)) := rfl
@[simp] theorem sample_snd_oe : s.sample.2.oe = s.oe := rfl
@[simp] theorem sample_snd_out : s.sample.2.out = s.out := rfl
@[simp] theorem sample_snd_rom : s.sample.2.rom = s.rom := rfl
@[simp] theorem sample_snd_ld : s.sample.2.ld = s.ld := rfl
@[simp] theorem sample_snd_lfd : s.sample.2.lfd = s.lfd := rfl
@[simp] theorem sample_snd_ldf : s.sample.2.ldf = s.ldf := rfl
@[simp] theorem sample_snd_buf : s.sample.2.buf = s.buf := rfl
@[simp] theorem sample_snd_busy : s.sample.2.busy = s.busy := rfl
@[simp] theorem sample_snd_rsp : s.sample.2.rsp = s.rsp := rfl
@[simp] theorem sample_snd_cmds : s.sample.2.cmds = s.cmds := rfl
@[simp] theorem sample_snd_samples : s.sample.2.samples = s.samples.drop 1 := rfl
@[simp] theorem sample_snd_sampleDraws : s.sample.2.sampleDraws = s.sampleDraws + (1 - s.samples.length) := rfl
@[simp] theorem sample_snd_trace : s.sample.2.trace = s.trace ++ [.sample (s.answer 0)] := rfl
@[simp] theorem sample_snd_gapDraws : s.sample.2.gapDraws = s.gapDraws := rfl
@[simp] theorem sample_snd_bufEpoch : s.sample.2.bufEpoch = s.bufEpoch := rfl
@[simp] theorem sample_snd_line : s.sample.2.line = s.line := rfl

end Sys2Proof.Machine
end

