-- ==== Sys2Proof/Laws/Environment.lean ====
section
/-! SUPPORT. The environment's answers: what is left of them after some were used up. -/

namespace Sys2Proof.Machine

/-- After n answers, the k-th answer is the (n + k)-th of before. -/
@[simp] theorem consume_answer (s : State) (n k : Nat) : (s.consume n).answer k = s.answer (n + k) := by
  unfold State.answer
  simp only [consume_samples, consume_sampleDraws, List.getElem?_drop, List.length_drop]
  cases h : s.samples[n + k]? with
  | some b => rfl
  | none =>
    have := List.getElem?_eq_none_iff.mp h
    simp only
    congr 1
    omega

theorem consume_consume (s : State) (m n : Nat) : (s.consume m).consume n = s.consume (m + n) := by
  unfold State.consume
  simp only [List.drop_drop, List.length_drop]
  congr 1
  omega

@[simp] theorem consume_zero (s : State) : s.consume 0 = s := by
  simp [State.consume]

/-- The answers depend on the two fields of the environment and on the line only. -/
theorem answer_congr {s t : State} (h1 : t.samples = s.samples) (h2 : t.sampleDraws = s.sampleDraws)
    (h3 : t.line = s.line) (k : Nat) :
    t.answer k = s.answer k := by simp [State.answer, h1, h2, h3]

/-- Answers that the list holds are read off it. -/
theorem answer_of_samples {s : State} {k : Nat} (h : k < s.samples.length) : s.answer k = s.samples[k] := by
  simp [State.answer, h]

/-- The next answers are the listed ones, as far as the list goes. -/
theorem upcoming_eq_samples {s : State} {n : Nat} (h : s.samples.length = n) : s.upcoming n = s.samples := by
  subst h
  apply List.ext_getElem (by simp [State.upcoming])
  intro i h1 h2
  simp [State.upcoming, answer_of_samples h2]

/-- A well-behaved bus gives two answers a position. -/
theorem length_busAnswers (ld : Nat) (old : BitVec 64) (k q : Nat) (devs : List (BitVec 64)) :
    (busAnswers ld old k q devs).length = 2 * k := by
  induction k generalizing q devs with
  | zero => rfl
  | succ k ih => simp only [busAnswers, List.length_cons, ih]; omega

end Sys2Proof.Machine
end

