-- ==== Sys2Proof/Laws/Memory.lean ====
section
/-! SUPPORT. BUF: a read after a write, and the canonical form every memory operation keeps. -/

namespace Sys2Proof.Machine

theorem Memory.get?_set_same (m : Memory) (a : Nat) (v : Byte) : Memory.get? (Memory.set m a v) a = some v := by
  induction m with
  | nil => simp [Memory.set, Memory.get?]
  | cons c m ih =>
    obtain ⟨k, w⟩ := c
    unfold Memory.set
    split_ifs with h1 h2
    · simp [Memory.get?]
    · simp [Memory.get?]
    · simp [Memory.get?, Ne.symm h2, ih]

theorem Memory.get?_set_other (m : Memory) (a x : Nat) (v : Byte) (h : x ≠ a) :
    Memory.get? (Memory.set m a v) x = Memory.get? m x := by
  induction m with
  | nil => simp [Memory.set, Memory.get?, Ne.symm h]
  | cons c m ih =>
    obtain ⟨k, w⟩ := c
    unfold Memory.set
    split_ifs with h1 h2
    · simp [Memory.get?, Ne.symm h]
    · subst h2; simp [Memory.get?, Ne.symm h]
    · simp only [Memory.get?, ih]

/-- An address listed after a write was listed before, or is the address written. -/
theorem Memory.mem_set {m : Memory} {a : Nat} {v : Byte} {c : Host.Cell} (h : c ∈ Memory.set m a v) :
    c = (a, v) ∨ c ∈ m := by
  induction m with
  | nil => simpa [Memory.set] using h
  | cons b m ih =>
    obtain ⟨k, w⟩ := b
    unfold Memory.set at h
    split_ifs at h with h1 h2
    · simpa using h
    · rcases List.mem_cons.mp h with h | h
      · exact .inl h
      · exact .inr (List.mem_cons_of_mem _ h)
    · rcases List.mem_cons.mp h with h | h
      · exact .inr (h ▸ List.mem_cons_self)
      · exact (ih h).imp id (List.mem_cons_of_mem _)

/-- A write inside BUF keeps the canonical form. -/
theorem Memory.wf_set {m : Memory} {a : Nat} {v : Byte} (hm : Memory.wf m) (ha : a < Config.params.bufBytes) :
    Memory.wf (Memory.set m a v) := by
  refine ⟨?_, fun c hc => ?_⟩
  · have hr := hm.1
    clear hm ha
    induction m with
    | nil => simp [Memory.set]
    | cons b m ih =>
      obtain ⟨k, w⟩ := b
      obtain ⟨hk, hr'⟩ := List.pairwise_cons.mp hr
      unfold Memory.set
      split_ifs with h1 h2
      · refine List.pairwise_cons.mpr ⟨fun c hc => ?_, hr⟩
        rcases List.mem_cons.mp hc with h | h
        · simpa [h] using h1
        · exact lt_trans h1 (hk c h)
      · subst h2; exact List.pairwise_cons.mpr ⟨hk, hr'⟩
      · refine List.pairwise_cons.mpr ⟨fun c hc => ?_, ih hr'⟩
        rcases Memory.mem_set hc with h | h
        · subst h; simp only; omega
        · exact hk c h
  · rcases Memory.mem_set hc with h | h
    · subst h; exact ha
    · exact hm.2 c h

theorem reset_buf_wf : Memory.wf State.reset.buf := by simp [State.reset, Memory.wf]

/-- `MemRead` after `MemWrite` at the same address. -/
@[simp] theorem setBufByte_bufByte_same (s : State) (a : Nat) (v : Byte) : (s.setBufByte a v).bufByte a = v := by
  simp [State.bufByte, Memory.get?_set_same]

theorem setBufByte_bufByte_other (s : State) (a x : Nat) (v : Byte) (h : x ≠ a) :
    (s.setBufByte a v).bufByte x = s.bufByte x := by
  simp [State.bufByte, Memory.get?_set_other _ _ _ _ h]

/-- A byte of BUF depends on BUF, the reset count and the line only. -/
theorem bufByte_congr {s t : State} (hb : t.buf = s.buf) (he : t.bufEpoch = s.bufEpoch) (hl : t.line = s.line)
    (a : Nat) : t.bufByte a = s.bufByte a := by simp [State.bufByte, hb, he, hl]

theorem memWrite_spec (s : State) (a : Nat) (vs : List Byte) :
    s.memWrite a vs = { s with buf := (s.memWrite a vs).buf } := by
  induction vs generalizing s a with
  | nil => rfl
  | cons v vs ih => rw [State.memWrite, ih]; rfl

/-- A range write leaves every byte outside the range alone. -/
theorem memWrite_bufByte_outside (s : State) (a : Nat) (vs : List Byte) (x : Nat) (h : x < a ∨ a + vs.length ≤ x) :
    (s.memWrite a vs).bufByte x = s.bufByte x := by
  induction vs generalizing s a with
  | nil => rfl
  | cons v vs ih =>
    simp only [List.length_cons] at h
    rw [State.memWrite, ih _ _ (by omega), setBufByte_bufByte_other _ _ _ _ (by omega)]

/-- Byte i of a range write is the i-th byte of the list. -/
theorem memWrite_bufByte_inside (s : State) (a : Nat) (vs : List Byte) (i : Nat) (h : i < vs.length) :
    (s.memWrite a vs).bufByte (a + i) = vs[i] := by
  induction vs generalizing s a i with
  | nil => simp at h
  | cons v vs ih =>
    rw [State.memWrite]
    cases i with
    | zero => rw [memWrite_bufByte_outside _ _ _ _ (by omega)]; simp
    | succ i =>
      have hi : i < vs.length := by simpa using h
      rw [show a + (i + 1) = a + 1 + i by omega, ih _ _ _ hi]; simp

theorem memWrite_wf (s : State) (a : Nat) (vs : List Byte) (hs : Memory.wf s.buf)
    (h : a + vs.length ≤ Config.params.bufBytes) : Memory.wf (s.memWrite a vs).buf := by
  induction vs generalizing s a with
  | nil => exact hs
  | cons v vs ih =>
    simp only [List.length_cons] at h
    exact ih _ _ (Memory.wf_set hs (by omega)) (by omega)

/-- `MemRead` of a range is the list of its bytes in ascending order. -/
theorem memRead_eq_map (s : State) (a n : Nat) : s.memRead a n = (List.range n).map fun i => s.bufByte (a + i) := by
  induction n generalizing a with
  | zero => rfl
  | succ n ih =>
    rw [State.memRead, ih, List.range_succ_eq_map, List.map_cons, List.map_map]
    congr 1
    exact List.map_congr_left fun i _ => by simp [Nat.add_assoc, Nat.add_comm 1 i]

theorem memRead_length (s : State) (a n : Nat) : (s.memRead a n).length = n := by simp [memRead_eq_map]

end Sys2Proof.Machine
end

