-- ==== Sys2Proof/Laws/Line.lean ====
section
/-! SUPPORT. One lemma per micro-operation of the line: everything it can do. `LineRun` is the shape they all have. -/

namespace Sys2Proof.Machine

@[simp] theorem wireEvents_nil : wireEvents [] = [] := rfl
@[simp] theorem wireEvents_cons (x : WireItem) (l : List WireItem) : wireEvents (x :: l) = x.events ++ wireEvents l := by
  simp [wireEvents]
@[simp] theorem wireEvents_append (l m : List WireItem) : wireEvents (l ++ m) = wireEvents l ++ wireEvents m := by
  simp [wireEvents]

/-- Is the shape a gap? -/
def WireItem.isGap : WireItem → Bool
  | .gap _ => true
  | .wslot _ | .rslot _ | .resetPulse _ _ _ | .resetGiveUp _ | .release _ => false

/-- The shapes without the gaps. -/
def noGaps (l : List WireItem) : List WireItem := l.filter fun x => !x.isGap

@[simp] theorem noGaps_append (l m : List WireItem) : noGaps (l ++ m) = noGaps l ++ noGaps m := by simp [noGaps]
@[simp] theorem noGaps_nil : noGaps [] = [] := rfl
@[simp] theorem noGaps_gap (g : Nat) (l : List WireItem) : noGaps (.gap g :: l) = noGaps l := rfl
@[simp] theorem noGaps_wslot (v : Bit) (l : List WireItem) : noGaps (.wslot v :: l) = .wslot v :: noGaps l := rfl
@[simp] theorem noGaps_rslot (v : Bit) (l : List WireItem) : noGaps (.rslot v :: l) = .rslot v :: noGaps l := rfl
@[simp] theorem noGaps_release (v : Bit) (l : List WireItem) : noGaps (.release v :: l) = .release v :: noGaps l := rfl

@[simp] theorem dropGaps_append (l m : List PadEvent) : dropGaps (l ++ m) = dropGaps l ++ dropGaps m := by simp [dropGaps]

@[simp] theorem duration_append (l m : List PadEvent) : duration (l ++ m) = duration l + duration m := by simp [duration]

/-- The duration of a trace is that of the trace with the gaps left out. -/
theorem duration_dropGaps (l : List PadEvent) : duration (dropGaps l) = duration l := by
  induction l with
  | nil => rfl
  | cons e l ih => cases e <;> simp_all [duration, dropGaps, PadEvent.isGap, PadEvent.micros]

theorem dropGaps_lowPolls (k : Nat) : dropGaps (lowPolls k) = lowPolls k := by
  induction k with
  | zero => rfl
  | succ k ih => simpa [lowPolls, dropGaps, PadEvent.isGap] using ih

theorem dropGaps_events (x : WireItem) : dropGaps x.events = if x.isGap then [] else x.events := by
  cases x with
  | wslot v => cases v <;> rfl
  | rslot v => rfl
  | resetPulse o k v =>
    simp only [WireItem.events, dropGaps_append, dropGaps_lowPolls, WireItem.isGap]
    simp [dropGaps, PadEvent.isGap]
  | resetGiveUp o =>
    simp only [WireItem.events, dropGaps_append, dropGaps_lowPolls, WireItem.isGap]
    simp [dropGaps, PadEvent.isGap]
  | release o => rfl
  | gap g => rfl

/-- Leaving the gaps out of the events or out of the shapes is the same. -/
theorem dropGaps_wireEvents (l : List WireItem) : dropGaps (wireEvents l) = wireEvents (noGaps l) := by
  induction l with
  | nil => rfl
  | cons x l ih =>
    rw [wireEvents_cons, dropGaps_append, dropGaps_events, ih]
    cases h : x.isGap <;> simp [noGaps, h]

/-- The driver outputs after a shape (40_bus_line_driver.md R125). -/
def WireItem.driverAfter (d : Bit × Bit) : WireItem → Bit × Bit
  | .wslot _ => (true, true)
  | .rslot _ => (false, false)
  | .resetPulse _ _ _ => (false, false)
  | .resetGiveUp out => (false, out)
  | .release out => (false, out)
  | .gap _ => d

/-- t is s after line activity: n answers used up, the shapes shown, the driver left as the last of them leaves it; nothing
else of the state changes. -/
structure LineRun (s t : State) (n : Nat) (items : List WireItem) : Prop where
  eq : t = { s.consume n with
    oe := t.oe, out := t.out, trace := s.trace ++ wireEvents items, gapDraws := t.gapDraws }
  legal : ∀ x ∈ items, x.legal = true
  driver : (t.oe, t.out) = items.foldl WireItem.driverAfter (s.oe, s.out)

theorem LineRun.refl (s : State) : LineRun s s 0 [] := ⟨by simp, by simp, rfl⟩

theorem LineRun.trans {s t u : State} {m n : Nat} {k l : List WireItem} (h1 : LineRun s t m k) (h2 : LineRun t u n l) :
    LineRun s u (m + n) (k ++ l) := by
  refine ⟨?_, fun x hx => ?_, ?_⟩
  · have e2 := h2.eq
    rw [h1.eq] at e2
    rw [e2, ← consume_consume]
    simp [State.consume]
  · rcases List.mem_append.mp hx with h | h
    · exact h1.legal x h
    · exact h2.legal x h
  · rw [List.foldl_append, ← h1.driver, h2.driver]

theorem LineRun.trace {s t : State} {n : Nat} {l : List WireItem} (h : LineRun s t n l) :
    t.trace = s.trace ++ wireEvents l := by rw [h.eq]

theorem LineRun.trace_grows {s t : State} {n : Nat} {l : List WireItem} (h : LineRun s t n l) : s.trace <+: t.trace :=
  ⟨wireEvents l, h.trace.symm⟩

theorem LineRun.padTrace {s t : State} {n : Nat} {l : List WireItem} (h : LineRun s t n l) :
    t.padTrace = s.padTrace ++ wireEvents (noGaps l) := by
  simp [State.padTrace, h.trace, dropGaps_wireEvents]

theorem LineRun.answer {s t : State} {n : Nat} {l : List WireItem} (h : LineRun s t n l) (k : Nat) :
    t.answer k = s.answer (n + k) := by
  rw [← consume_answer]
  apply answer_congr <;> rw [h.eq]

/-- Line activity reads neither `rom` nor `LFD`, so it is the same activity with those changed before and after. -/
theorem LineRun.withSearch {s t : State} {n : Nat} {l : List WireItem} (h : LineRun s t n l) (r : Vector Byte 8)
    (f : BitVec 4) : LineRun { s with rom := r, lfd := f } { t with rom := r, lfd := f } n l := by
  refine ⟨?_, h.legal, h.driver⟩
  conv_lhs => rw [h.eq]
  rfl

/-- `GAP`. -/
theorem gap_run (s : State) : LineRun s s.gap 0 [.gap (Config.freeGap s.line s.gapDraws)] :=
  ⟨by simp [State.gap, State.emit, WireItem.events], by simp [WireItem.legal], rfl⟩

/-- A gap before every section but the first of its kind. -/
theorem gapUnless_run (c : Prop) [Decidable c] (s : State) :
    ∃ items, LineRun s (if c then s else s.gap) 0 items ∧ noGaps items = [] := by
  by_cases h : c
  · exact ⟨[], by simpa [h] using LineRun.refl s, rfl⟩
  · exact ⟨_, by simpa [h] using gap_run s, rfl⟩

/-- `Drive(0, out)` outside a section (R108, R116). -/
theorem release_run (s : State) (o : Bit) : LineRun s (s.drive false o) 0 [.release o] :=
  ⟨by simp [State.drive, State.emit, WireItem.events], by simp [WireItem.legal], rfl⟩

/-- `op_wbit` (R102). -/
theorem opWbit_eq (v : Bit) (s : State) :
    opWbit v s = { s with oe := true, out := true, trace := s.trace ++ (WireItem.wslot v).events } := by
  cases v <;>
    simp [opWbit, State.sectBegin, State.sectEnd, State.drive, State.wait, State.emit, WireItem.events, Config.params]

theorem opWbit_run (v : Bit) (s : State) : LineRun s (opWbit v s) 0 [.wslot v] :=
  ⟨by simp [opWbit_eq], by simp [WireItem.legal], by simp [opWbit_eq, WireItem.driverAfter]⟩

/-- `op_rbit` (R103). -/
theorem opRbit_eq (s : State) :
    opRbit s = (s.answer 0, { s.consume 1 with
      oe := false, out := false, trace := s.trace ++ (WireItem.rslot (s.answer 0)).events }) := by
  simp [opRbit, State.sample, State.sectBegin, State.sectEnd, State.drive, State.wait, State.emit, State.consume,
    State.answer, WireItem.events, Config.params]

theorem opRbit_fst (s : State) : (opRbit s).1 = s.answer 0 := by rw [opRbit_eq]

theorem opRbit_run (s : State) : LineRun s (opRbit s).2 1 [.rslot (s.answer 0)] :=
  ⟨by simp [opRbit_eq], by simp [WireItem.legal], by simp [opRbit_eq, WireItem.driverAfter]⟩

/-- The poll finds the line high at sample k (R101). -/
theorem resetPoll_high (n k : Nat) (s : State) (hk : k < n) (hlow : ∀ i < k, s.answer i = false) (hhigh : s.answer k = true) :
    resetPoll n s = (true, { s.consume (k + 1) with
      trace := s.trace ++ lowPolls k ++ [PadEvent.wait 2, .sample true] }) := by
  induction n generalizing k s with
  | zero => omega
  | succ n ih =>
    unfold resetPoll
    cases k with
    | zero =>
      have h0 : (s.wait Config.params.resetPollUs).answer 0 = true := hhigh
      simp only [State.sample, h0, if_true]
      simp [State.wait, State.emit, State.consume, lowPolls, Config.params]
    | succ k =>
      have h0 : (s.wait Config.params.resetPollUs).answer 0 = false := hlow 0 (by omega)
      simp only [State.sample, h0, Bool.false_eq_true, if_false]
      have ha : ∀ i, (((s.wait Config.params.resetPollUs).consume 1).emit (.sample false)).answer i = s.answer (1 + i) := by
        intro i
        rw [← consume_answer]
        exact answer_congr rfl rfl rfl i
      rw [ih k _ (by omega) (fun i hi => by rw [ha]; exact hlow _ (by omega))
        (by rw [ha, Nat.add_comm]; exact hhigh)]
      have hc := consume_consume s 1 (k + 1)
      rw [show k + 1 + 1 = 1 + (k + 1) by omega, ← hc]
      simp [State.wait, State.emit, State.consume, lowPolls, Config.params]

/-- The poll never finds the line high (R101). -/
theorem resetPoll_low (n : Nat) (s : State) (hlow : ∀ i < n, s.answer i = false) :
    resetPoll n s = (false, { s.consume n with trace := s.trace ++ lowPolls n }) := by
  induction n generalizing s with
  | zero => simp [resetPoll, lowPolls]
  | succ n ih =>
    unfold resetPoll
    have h0 : (s.wait Config.params.resetPollUs).answer 0 = false := hlow 0 (by omega)
    simp only [State.sample, h0, Bool.false_eq_true, if_false]
    have ha : ∀ i, (((s.wait Config.params.resetPollUs).consume 1).emit (.sample false)).answer i = s.answer (1 + i) := by
      intro i
      rw [← consume_answer]
      exact answer_congr rfl rfl rfl i
    rw [ih _ (fun i hi => by rw [ha]; exact hlow _ (by omega)), show n + 1 = 1 + n by omega, ← consume_consume s 1 n]
    simp [State.wait, State.emit, State.consume, lowPolls, Config.params, Nat.add_comm 1 n]

/-- The pulse and the presence sample (R101). -/
theorem resetPulse_eq (s : State) :
    resetPulse s = (!s.answer 0, { s.consume 1 with
      oe := false, out := false,
      trace := s.trace ++ [PadEvent.drive true false, .wait 480, .drive false false, .wait 70, .sample (s.answer 0),
        .wait 410, .sectEnd] }) := by
  simp [resetPulse, State.sample, State.sectEnd, State.drive, State.wait, State.emit, State.consume, State.answer,
    Config.params]

/-- `op_reset` where the line reads high after k low polls (R101). -/
theorem opReset_high (k : Nat) (s : State) (hk : k < 125) (hlow : ∀ i < k, s.answer i = false) (hhigh : s.answer k = true) :
    opReset s = (!s.answer (k + 1), { s.consume (k + 2) with
      oe := false, out := false,
      trace := s.trace ++ (WireItem.resetPulse s.out k (s.answer (k + 1))).events }) := by
  unfold opReset
  have ha : ∀ i, (s.sectBegin.drive false s.out).answer i = s.answer i := fun i => answer_congr rfl rfl rfl i
  have h125 : Config.params.resetPollN = 125 := rfl
  rw [h125, resetPoll_high 125 k _ hk (fun i hi => by rw [ha]; exact hlow i hi) (by rw [ha]; exact hhigh)]
  have hans : ∀ t : List PadEvent,
      ({ (s.sectBegin.drive false s.out).consume (k + 1) with trace := t } : State).answer 0 = s.answer (k + 1) := fun t =>
    (answer_congr (s := s.consume (k + 1)) rfl rfl rfl 0).trans (consume_answer s (k + 1) 0)
  simp only [if_true, resetPulse_eq, hans]
  rw [← consume_consume s (k + 1) 1]
  simp [State.sectBegin, State.drive, State.emit, State.consume, WireItem.events]

/-- `op_reset` where 125 polls read low (R101). -/
theorem opReset_low (s : State) (hlow : ∀ i < 125, s.answer i = false) :
    opReset s = (false, { s.consume 125 with
      oe := false, trace := s.trace ++ (WireItem.resetGiveUp s.out).events }) := by
  unfold opReset
  have ha : ∀ i, (s.sectBegin.drive false s.out).answer i = s.answer i := fun i => answer_congr rfl rfl rfl i
  have h125 : Config.params.resetPollN = 125 := rfl
  rw [h125, resetPoll_low 125 _ (fun i hi => by rw [ha]; exact hlow i hi)]
  simp only [Bool.false_eq_true, if_false]
  simp only [State.sectEnd, State.emit, WireItem.events]
  simp [State.sectBegin, State.drive, State.emit, State.consume]

/-- Either the first of n answers that is high stands at some k, or none of them is. -/
theorem first_high (f : Nat → Bit) (n : Nat) :
    (∃ k < n, (∀ i < k, f i = false) ∧ f k = true) ∨ ∀ i < n, f i = false := by
  induction n with
  | zero => exact .inr (by omega)
  | succ n ih =>
    rcases ih with ⟨k, hk, h⟩ | h
    · exact .inl ⟨k, by omega, h⟩
    · cases hn : f n with
      | true => exact .inl ⟨n, by omega, h, hn⟩
      | false =>
        refine .inr fun i hi => ?_
        rcases Nat.lt_or_eq_of_le (Nat.le_of_lt_succ hi) with h' | h'
        · exact h i h'
        · exact h' ▸ hn

/-- Everything `op_reset` can do (R101). -/
theorem opReset_cases (s : State) :
    (∃ k < 125, (∀ i < k, s.answer i = false) ∧ s.answer k = true ∧ (opReset s).1 = !s.answer (k + 1) ∧
      LineRun s (opReset s).2 (k + 2) [.resetPulse s.out k (s.answer (k + 1))]) ∨
    ((∀ i < 125, s.answer i = false) ∧ (opReset s).1 = false ∧ LineRun s (opReset s).2 125 [.resetGiveUp s.out]) := by
  rcases first_high s.answer 125 with ⟨k, hk, hlow, hhigh⟩ | hlow
  · refine .inl ⟨k, hk, hlow, hhigh, by rw [opReset_high k s hk hlow hhigh], ?_⟩
    rw [opReset_high k s hk hlow hhigh]
    exact ⟨by simp, by simpa [WireItem.legal] using hk, rfl⟩
  · refine .inr ⟨hlow, by rw [opReset_low s hlow], ?_⟩
    rw [opReset_low s hlow]
    exact ⟨by simp, by simp [WireItem.legal], rfl⟩

/-- The write slots of bits i, i+1, ..., i+k-1 (R107). -/
theorem writeBits_run (d : Byte) (k i : Nat) (s : State) :
    ∃ items, LineRun s (writeBits d k i s) 0 items ∧
      noGaps items = (List.range' i k).map fun j => .wslot (d.getLsbD j) := by
  induction k generalizing i s with
  | zero => exact ⟨[], LineRun.refl s, rfl⟩
  | succ k ih =>
    obtain ⟨g, hg, hn⟩ := gapUnless_run (i = 0) s
    obtain ⟨items, hr, hi⟩ := ih (i + 1) (opWbit (d.getLsbD i) (if i = 0 then s else s.gap))
    refine ⟨g ++ ([.wslot (d.getLsbD i)] ++ items), ?_, ?_⟩
    · exact hg.trans ((opWbit_run _ _).trans hr)
    · simp [hn, hi, List.range'_succ]

/-- `op_wbyte` (R107, R108): the eight slots, bit 0 first, then the tail where p = 0. -/
theorem opWbyte_run (d : Byte) (p : Bit) (s : State) :
    ∃ items, LineRun s (opWbyte d p s) 0 items ∧ noGaps items = byteItems d p ∧
      (opWbyte d p s).oe = p ∧ (opWbyte d p s).out = p := by
  obtain ⟨items, hr, hi⟩ := writeBits_run d 8 0 s
  unfold opWbyte
  cases p with
  | true =>
    refine ⟨items, by simpa using hr, ?_, ?_, ?_⟩
    · rw [hi]; simp [byteItems, byteSlots, List.range_eq_range']
    all_goals simp [writeBits, opWbit_eq]
  | false =>
    refine ⟨items ++ ([.gap (Config.freeGap (writeBits d 8 0 s).line (writeBits d 8 0 s).gapDraws)] ++ [.release false]), ?_, ?_, by simp, by simp⟩
    · exact hr.trans ((gap_run _).trans (release_run _ _))
    · rw [noGaps_append, hi]; simp [byteItems, byteSlots, List.range_eq_range']

/-- Bytes written in order (R112). -/
theorem writeBytes_run (l : List Byte) (p : Bit) (s : State) :
    ∃ items, LineRun s (writeBytes l p s) 0 items ∧ noGaps items = bytesItems l p ∧
      (writeBytes l p s).oe = (if l = [] then s.oe else p) ∧ (writeBytes l p s).out = (if l = [] then s.out else p) := by
  induction l generalizing s with
  | nil => exact ⟨[], LineRun.refl s, rfl, rfl, rfl⟩
  | cons b l ih =>
    cases l with
    | nil =>
      obtain ⟨i, h1, h2, h3, h4⟩ := opWbyte_run b p s
      exact ⟨i, by simpa [writeBytes] using h1, by simpa [bytesItems] using h2, by simpa [writeBytes] using h3,
        by simpa [writeBytes] using h4⟩
    | cons c l =>
      obtain ⟨i, h1, h2, -, -⟩ := opWbyte_run b false s
      obtain ⟨j, h5, h6, h7, h8⟩ := ih (opWbyte b false s)
      refine ⟨i ++ j, ?_, ?_, ?_, ?_⟩
      · simpa [writeBytes] using h1.trans h5
      · rw [noGaps_append, h2, h6]; rfl
      · simpa [writeBytes] using h7
      · simpa [writeBytes] using h8

/-- A bit of a byte after one of its bits was written (20_memory.md R45). -/
theorem setBit_getLsbD (x : Byte) (j : Nat) (b : Bit) (i : Nat) (hj : j < 8) :
    (setBit x j b).getLsbD i = if i = j then b else x.getLsbD i := by
  unfold setBit
  by_cases hij : i = j
  · subst hij
    cases b <;> simp [hj]
  · cases b with
    | true =>
      simp only [if_true, BitVec.getLsbD_or, BitVec.getLsbD_shiftLeft, BitVec.getLsbD_one, hij, if_false]
      have : ¬ (i - j = 0 ∧ ¬ i < j) := by omega
      by_cases h : i < j <;> simp [h]
      omega
    | false =>
      by_cases hi : i < 8
      · simp only [Bool.false_eq_true, if_false, BitVec.getLsbD_and, BitVec.getLsbD_not, BitVec.getLsbD_shiftLeft,
          BitVec.getLsbD_one, hij]
        by_cases h : i < j <;> simp [h, hi]
        omega
      · simp only [Bool.false_eq_true, if_false, hij]
        rw [BitVec.getLsbD_of_ge _ _ (by omega), BitVec.getLsbD_of_ge _ _ (by omega)]

/-- The read slots of bits i, i+1, ..., i+k-1 (R110): each bit is the next answer, the other bits are kept. -/
theorem readBits_run (k i : Nat) (r : Byte) (s : State) (h : i + k ≤ 8) :
    (∃ items, LineRun s (readBits k i r s).2 k items ∧
      noGaps items = (List.range k).map fun j => .rslot (s.answer j)) ∧
    (∀ j, (readBits k i r s).1.getLsbD j = if i ≤ j ∧ j < i + k then s.answer (j - i) else r.getLsbD j) := by
  induction k generalizing i r s with
  | zero =>
    refine ⟨⟨[], LineRun.refl s, rfl⟩, fun j => ?_⟩
    rw [if_neg (by omega)]; rfl
  | succ k ih =>
    obtain ⟨g, hg, hn⟩ := gapUnless_run (i = 0) s
    have hrun := hg.trans (opRbit_run (if i = 0 then s else s.gap))
    have hfst : (opRbit (if i = 0 then s else s.gap)).1 = s.answer 0 := by
      rw [opRbit_fst]; simpa using hg.answer 0
    obtain ⟨⟨items, hr, hi⟩, hb⟩ := ih (i + 1) (setBit r i (s.answer 0)) (opRbit (if i = 0 then s else s.gap)).2 (by omega)
    have ha : ∀ j, (opRbit (if i = 0 then s else s.gap)).2.answer j = s.answer (1 + j) := fun j => by
      simpa using hrun.answer j
    have hfst0 : (if i = 0 then s else s.gap).answer 0 = s.answer 0 := by simpa using hg.answer 0
    constructor
    · refine ⟨g ++ [.rslot (s.answer 0)] ++ items, ?_, ?_⟩
      · have := hrun.trans hr
        rw [hfst0] at this
        unfold readBits
        dsimp only
        rw [hfst]
        simpa [Nat.add_comm 1 k] using this
      · rw [noGaps_append, noGaps_append, hn, hi, List.range_succ_eq_map]
        simp [ha, Nat.add_comm 1, Function.comp_def]
    · intro j
      unfold readBits
      dsimp only
      rw [hfst, hb, setBit_getLsbD _ _ _ _ (by omega)]
      by_cases h1 : i + 1 ≤ j ∧ j < i + 1 + k
      · rw [if_pos h1, ha, if_pos (by omega)]
        congr 1
        omega
      · rw [if_neg h1]
        by_cases h2 : j = i
        · subst h2; rw [if_pos rfl, if_pos (by omega)]; simp
        · rw [if_neg h2, if_neg (by omega)]

/-- `op_rbyte` (R110): eight read slots, the first answer is bit 0. -/
theorem opRbyte_run (s : State) :
    (∃ items, LineRun s (opRbyte s).2 8 items ∧ noGaps items = (List.range 8).map fun j => .rslot (s.answer j)) ∧
    (∀ j < 8, (opRbyte s).1.getLsbD j = s.answer j) := by
  obtain ⟨h1, h2⟩ := readBits_run 8 0 0 s (by omega)
  refine ⟨h1, fun j hj => ?_⟩
  have := h2 j
  simpa [opRbyte, hj] using this

/-- Bytes read into BUF (R113): 8k answers used; only BUF changes beside the line. -/
theorem readBytes_run (k i a : Nat) (s : State) :
    (∃ items, LineRun { s with buf := (readBytes k i a s).buf } (readBytes k i a s) (8 * k) items ∧
      noGaps items = (List.range (8 * k)).map fun j => .rslot (s.answer j)) ∧
    (∀ c < k, ∀ j < 8, ((readBytes k i a s).bufByte (a + c)).getLsbD j = s.answer (8 * c + j)) ∧
    (∀ x, x < a ∨ a + k ≤ x → (readBytes k i a s).bufByte x = s.bufByte x) ∧
    (Memory.wf s.buf → a + k ≤ Config.params.bufBytes → Memory.wf (readBytes k i a s).buf) := by
  induction k generalizing i a s with
  | zero => exact ⟨⟨[], LineRun.refl s, rfl⟩, by omega, fun _ _ => rfl, fun h _ => h⟩
  | succ k ih =>
    obtain ⟨g, hg, hn⟩ := gapUnless_run (i = 0) s
    obtain ⟨⟨l, hl, hln⟩, hbits⟩ := opRbyte_run (if i = 0 then s else s.gap)
    generalize hs1 : (if i = 0 then s else s.gap) = s1 at hg hl hln hbits
    have hstep : readBytes (k + 1) i a s = readBytes k (i + 1) (a + 1) ((opRbyte s1).2.setBufByte a (opRbyte s1).1) := by
      rw [readBytes, hs1]
    rw [hstep]
    clear hstep hs1
    generalize opRbyte s1 = r at hl hbits ⊢
    obtain ⟨b, u⟩ := r
    dsimp only at hl hbits ⊢
    have h1 := hg.trans hl
    have hub : u.buf = s.buf := by rw [h1.eq]; rfl
    have ha1 : ∀ j, s1.answer j = s.answer j := fun j => by simpa using hg.answer j
    have ha2 : ∀ j, u.answer j = s.answer (8 + j) := fun j => by simpa using h1.answer j
    generalize hs2 : u.setBufByte a b = s2
    have ha3 : ∀ j, s2.answer j = s.answer (8 + j) := fun j => by rw [← ha2 j, ← hs2]; exact answer_congr rfl rfl rfl j
    have hbuf2 : s2.buf = Memory.set s.buf a b := by
      rw [← hs2, setBufByte_buf, h1.eq]; rfl
    have hep : s2.bufEpoch = s.bufEpoch := by rw [← hs2, setBufByte_bufEpoch, h1.eq]; rfl
    have hli : s2.line = s.line := by rw [← hs2, setBufByte_line, h1.eq]; rfl
    have hother : ∀ x, x ≠ a → s2.bufByte x = s.bufByte x := fun x hx => by
      simp [State.bufByte, hbuf2, hep, hli, Memory.get?_set_other _ _ _ _ hx]
    have hsame : s2.bufByte a = b := by simp [State.bufByte, hbuf2, Memory.get?_set_same]
    obtain ⟨⟨m, hm, hmn⟩, hin, hout, hwf⟩ := ih (i + 1) (a + 1) s2
    refine ⟨⟨g ++ l ++ m, ?_, ?_⟩, ?_, ?_, ?_⟩
    · have hb : LineRun { s with buf := s2.buf } s2 8 (g ++ l) := by
        refine ⟨?_, h1.legal, by rw [← hs2]; exact h1.driver⟩
        rw [← hs2]
        conv_lhs => rw [State.setBufByte, h1.eq]
        simp [State.consume, hub]
      have hb' : ∀ bb : Memory, LineRun { s with buf := bb } { s2 with buf := bb } 8 (g ++ l) := fun bb =>
        ⟨by conv_lhs => rw [hb.eq]
            rfl, hb.legal, hb.driver⟩
      have := (hb' _).trans hm
      rwa [show 8 + 8 * k = 8 * (k + 1) by ring] at this
    · rw [noGaps_append, noGaps_append, hn, hln, hmn]
      simp only [ha1, ha3, List.nil_append]
      rw [show 8 * (k + 1) = 8 + 8 * k by ring, List.range_add, List.map_append, List.map_map]
      rfl
    · intro c hc j hj
      cases c with
      | zero =>
        have := hout a (by omega)
        rw [hsame] at this
        simpa [this, ha1] using hbits j hj
      | succ c =>
        rw [show a + (c + 1) = a + 1 + c by omega, hin c (by omega) j hj, ha3]
        congr 1; ring
    · intro x hx
      rw [hout x (by omega), hother x (by omega)]
    · intro h hle
      refine hwf ?_ (by omega)
      rw [hbuf2]; exact Memory.wf_set h (by omega)

/-- After a read byte the line is released (R110). -/
theorem opRbyte_driver (s : State) : (opRbyte s).2.oe = false ∧ (opRbyte s).2.out = false := by
  simp [opRbyte, readBits, opRbit_eq]

end Sys2Proof.Machine
end

