-- ==== Sys2Proof/Laws/Search.lean ====
section
/-! SUPPORT. The ROM register file as 64 bits, and one position of the search loop: everything it can do. -/

namespace Sys2Proof.Machine

theorem romByte_set (rom : Vector Byte 8) (i j : Nat) (b : Byte) (hi : i < 8) :
    romByte (rom.setIfInBounds i b) j = if j = i then b else romByte rom j := by
  unfold romByte
  by_cases hj : j < 8
  · by_cases h : j = i
    · subst h; simp [Vector.getD, hi]
    · simp [Vector.getD, h, Ne.symm h]
  · have : j ≠ i := by omega
    simp [Vector.getD, hj, this]

/-- A bit of an address after one of its bits was written (20_memory.md R45). -/
theorem romBit_setRomBit (rom : Vector Byte 8) (p q : Nat) (d : Bit) (hp : 1 ≤ p ∧ p ≤ 64) (hq : 1 ≤ q) :
    romBit (setRomBit rom p d) q = if q = p then d else romBit rom q := by
  unfold romBit setRomBit
  rw [romByte_set _ _ _ _ (by omega)]
  by_cases h : q = p
  · subst h
    rw [if_pos rfl, if_pos rfl, setBit_getLsbD _ _ _ _ (by omega), if_pos rfl]
  · rw [if_neg h]
    split_ifs with h1
    · rw [setBit_getLsbD _ _ _ _ (by omega), if_neg (by omega), h1]
    · rfl

/-- Bit p-1 of the address word is the bit at position p. -/
theorem romWord_getLsbD (rom : Vector Byte 8) (q : Nat) (hq : q < 64) : (romWord rom).getLsbD q = romBit rom (q + 1) := by
  unfold romWord romBit
  simp only [BitVec.getLsbD_append, Nat.add_sub_cancel]
  have h8 : q / 8 = 0 ∨ q / 8 = 1 ∨ q / 8 = 2 ∨ q / 8 = 3 ∨ q / 8 = 4 ∨ q / 8 = 5 ∨ q / 8 = 6 ∨ q / 8 = 7 := by omega
  rcases h8 with h | h | h | h | h | h | h | h <;> rw [h] <;> split_ifs <;> first
    | omega
    | (congr 1; omega)

/-- Two register files with the same bits are the same. -/
theorem rom_ext {r r' : Vector Byte 8} (h : ∀ p, 1 ≤ p → p ≤ 64 → romBit r p = romBit r' p) : r = r' := by
  apply Vector.ext
  intro i hi
  apply BitVec.eq_of_getLsbD_eq
  intro j hj
  have := h (8 * i + j + 1) (by omega) (by omega)
  simpa [romBit, romByte, Vector.getD, hi, show (8 * i + j) / 8 = i by omega, show (8 * i + j) % 8 = j by omega] using this

theorem romAllZero_iff (rom : Vector Byte 8) : romAllZero rom = true ↔ rom = Vector.replicate 8 0 := by
  constructor
  · intro h
    apply Vector.ext
    intro i hi
    have := List.all_eq_true.mp h rom[i] (by simp)
    simpa using this
  · rintro rfl; decide

theorem romBit_zero (p : Nat) : romBit (Vector.replicate 8 0) p = false := by
  unfold romBit romByte
  by_cases h : (p - 1) / 8 < 8 <;> simp [Vector.getD, h]

/-- One position at which no device answers (R136): two read slots, nothing written, the traversal has failed. -/
theorem searchLoop_silent (k p lz : Nat) (s : State) (h : s.answer 0 = true ∧ s.answer 1 = true) :
    ∃ t items, searchLoop (k + 1) p lz s = ⟨false, lz, t⟩ ∧ LineRun s t 2 items ∧
      noGaps items = [.rslot true, .rslot true] ∧ t.oe = false ∧ t.out = false := by
  obtain ⟨g, hg, hn⟩ := gapUnless_run (p = 1) s
  generalize hs1 : (if p = 1 then s else s.gap) = s1 at hg
  have h1 := hg.trans ((opRbit_run s1).trans (gap_run _))
  have h2 := h1.trans (opRbit_run (opRbit s1).2.gap)
  have a0 : s1.answer 0 = s.answer 0 := by simpa using hg.answer 0
  have a1 : (opRbit s1).2.gap.answer 0 = s.answer 1 := by simpa using h1.answer 0
  refine ⟨(opRbit (opRbit s1).2.gap).2, _, ?_, h2, ?_, ?_, ?_⟩
  · rw [searchLoop]
    dsimp only
    rw [hs1, opRbit_fst, opRbit_fst, a0, a1, h.1, h.2]
    rfl
  · simp [hn, a0, a1, h.1, h.2]
  · rw [opRbit_eq]
  · rw [opRbit_eq]

/-- One resolved position (R137 to R140): two read slots and the write slot of the direction, which goes into `rom`; `lz` and,
in positions 1..8, `LFD` record it where it is a 0 at a discrepancy. -/
theorem searchLoop_resolved (k p lz : Nat) (s : State) (h : ¬(s.answer 0 = true ∧ s.answer 1 = true)) :
    ∃ t items,
      searchLoop (k + 1) p lz s = searchLoop k (p + 1)
        (if deferred (s.answer 0) (s.answer 1) (searchDir s.ld.toNat s.rom p (s.answer 0) (s.answer 1)) then p else lz) t ∧
      LineRun { s with
        lfd := if deferred (s.answer 0) (s.answer 1) (searchDir s.ld.toNat s.rom p (s.answer 0) (s.answer 1)) &&
          decide (p ≤ 8) then BitVec.ofNat 4 p else s.lfd
        rom := setRomBit s.rom p (searchDir s.ld.toNat s.rom p (s.answer 0) (s.answer 1)) } t 2 items ∧
      noGaps items = [.rslot (s.answer 0), .rslot (s.answer 1),
        .wslot (searchDir s.ld.toNat s.rom p (s.answer 0) (s.answer 1))] ∧
      t.oe = true ∧ t.out = true := by
  obtain ⟨g, hg, hn⟩ := gapUnless_run (p = 1) s
  generalize hs1 : (if p = 1 then s else s.gap) = s1 at hg
  have h1 := hg.trans ((opRbit_run s1).trans (gap_run _))
  have h2 := h1.trans (opRbit_run (opRbit s1).2.gap)
  have a0 : s1.answer 0 = s.answer 0 := by simpa using hg.answer 0
  have a1 : (opRbit s1).2.gap.answer 0 = s.answer 1 := by simpa using h1.answer 0
  generalize ht : (opRbit (opRbit s1).2.gap).2 = t at h2
  have hld : t.ld = s.ld := by rw [h2.eq]; rfl
  have hlfd : t.lfd = s.lfd := by rw [h2.eq]; rfl
  have hrom : t.rom = s.rom := by rw [h2.eq]; rfl
  generalize hd : searchDir s.ld.toNat s.rom p (s.answer 0) (s.answer 1) = d
  have h3 := h2.withSearch (setRomBit s.rom p d)
    (if deferred (s.answer 0) (s.answer 1) d && decide (p ≤ 8) then BitVec.ofNat 4 p else s.lfd)
  have hres : searchResolve p (s.answer 0) (s.answer 1) d t = opWbit d ({ t with
      rom := setRomBit s.rom p d
      lfd := if deferred (s.answer 0) (s.answer 1) d && decide (p ≤ 8) then BitVec.ofNat 4 p else s.lfd }.gap) := by
    rw [searchResolve, hrom, hlfd]
  refine ⟨searchResolve p (s.answer 0) (s.answer 1) d t, _, ?_, hres ▸ h3.trans ((gap_run _).trans (opWbit_run d _)), ?_, ?_, ?_⟩
  · rw [searchLoop]
    dsimp only
    rw [hs1, opRbit_fst, opRbit_fst, a0, a1, ht, hld, hrom, hd, if_neg (by simpa using h)]
  · simp [hn, a0, a1]
  · simp [searchResolve, opWbit_eq]
  · simp [searchResolve, opWbit_eq]

/-- Everything the loop can do, whatever the answers: line activity, with `rom` and `LFD` rewritten; `lz` and `LFD` stay in
range. -/
theorem searchLoop_run (k p lz : Nat) (s : State) (hp : p + k ≤ 65) (hlz : lz ≤ 64) (hlfd : s.lfd.toNat ≤ 8) :
    ∃ items n, LineRun { s with rom := (searchLoop k p lz s).st.rom, lfd := (searchLoop k p lz s).st.lfd }
        (searchLoop k p lz s).st n items ∧
      (searchLoop k p lz s).lz ≤ 64 ∧ (searchLoop k p lz s).st.lfd.toNat ≤ 8 := by
  induction k generalizing p lz s with
  | zero => exact ⟨[], 0, LineRun.refl s, hlz, hlfd⟩
  | succ k ih =>
    by_cases h : s.answer 0 = true ∧ s.answer 1 = true
    · obtain ⟨t, items, he, hr, -, -, -⟩ := searchLoop_silent k p lz s h
      rw [he]
      refine ⟨items, 2, ?_, hlz, by rw [hr.eq]; exact hlfd⟩
      have := hr.withSearch t.rom t.lfd
      have e1 : t.rom = s.rom := by rw [hr.eq]; rfl
      have e2 : t.lfd = s.lfd := by rw [hr.eq]; rfl
      simpa [e1, e2] using hr
    · obtain ⟨t, items, he, hr, -, -, -⟩ := searchLoop_resolved k p lz s h
      rw [he]
      have hlfd' : t.lfd.toNat ≤ 8 := by
        rw [hr.eq]
        simp only [consume_lfd]
        split_ifs with hc
        · have : p ≤ 8 := by simpa using (Bool.and_eq_true_iff.mp hc).2
          rw [BitVec.toNat_ofNat]; omega
        · exact hlfd
      have hle : (if deferred (s.answer 0) (s.answer 1) (searchDir s.ld.toNat s.rom p (s.answer 0) (s.answer 1)) then p
          else lz) ≤ 64 := by split_ifs <;> omega
      obtain ⟨items', n, hr', h1, h2⟩ := ih (p + 1) _ t (by omega) hle hlfd'
      exact ⟨items ++ items', 2 + n, (hr.withSearch _ _).trans hr', h1, h2⟩

end Sys2Proof.Machine
end

