-- ==== Sys2Proof/Laws/Exec.lean ====
section
/-! SUPPORT. Every instruction answers a next state, and everything one step can do. -/

namespace Sys2Proof.Machine

/-- No instruction faults and none is refused by the model (60_exceptions.md R200). -/
theorem exec_next (i : Instr) (s : State) : ∃ t, exec i s = .next t := by
  cases i <;> exact ⟨_, rfl⟩

theorem next_inj {s t : State} (h : (Host.Outcome.next s : Host.Outcome State Fault Refusal) = .next t) : s = t := by
  cases h; rfl

/-- What a step that answers a next state was: a wait, the refusal of a word that spells nothing, or a command. -/
theorem step_cases {s t : State} (h : step s = .next t) : s.busy = false ∧
    ((s.cmds = [] ∧ t = { s with rsp := none }) ∨
     (∃ w rest r, s.cmds = w :: rest ∧ decodeCmd w = .error r ∧ t = (s.accept rest).refuse (rejectStatus r)) ∨
     (∃ w rest i, s.cmds = w :: rest ∧ decodeCmd w = .ok i ∧ exec i (s.accept rest) = .next t)) := by
  unfold step at h
  cases hb : s.busy with
  | true => simp [hb] at h
  | false =>
    refine ⟨rfl, ?_⟩
    simp only [hb, Bool.false_eq_true, if_false] at h
    split at h
    · next hc => exact .inl ⟨hc, (next_inj h).symm⟩
    · next w rest hc =>
      split at h
      · next r hr => exact .inr (.inl ⟨w, rest, r, hc, hr, (next_inj h).symm⟩)
      · next i hi => exact .inr (.inr ⟨w, rest, i, hc, hi, h⟩)

/-- What a step of instance k that is taken was: that instance's own step, put in its place. -/
theorem stepInstance_cases {k : Nat} {sys sys' : Instances} (h : stepInstance k sys = some sys') :
    ∃ s t, sys[k]? = some s ∧ step s = .next t ∧ sys' = sys.set k t := by
  unfold stepInstance at h
  split at h
  · simp at h
  · next s hs =>
    split at h
    · next t ht => exact ⟨s, t, hs, ht, by simpa using h.symm⟩
    · simp at h
    · simp at h

theorem stepInstance_of_next {k : Nat} {sys : Instances} {s t : State} (h : sys[k]? = some s) (ht : step s = .next t) :
    stepInstance k sys = some (sys.set k t) := by simp [stepInstance, h, ht]

/-- Each instance after the reset inputs of those in `ks` were asserted. -/
theorem resetInstances_getElem? (ks : List Nat) (sys : Instances) (k : Nat) :
    (resetInstances ks sys)[k]? = sys[k]?.map fun s => if k ∈ ks then s.hwReset else s := by simp [resetInstances]

/-- A command word never decodes to a wire row (30_encoding.md R77). -/
theorem Op.instr_wireByte (o : Op) (w : Cmd64) : (o.instr w).wireByte = none := by cases o <;> rfl

/-- The range check is the arithmetic of 20_memory.md R44. -/
theorem rangeOk_iff (a : Byte) (n : Nat) : rangeOk a n = true ↔ a.toNat + n ≤ 256 := decide_eq_true_iff

theorem rangeOk_of_le {a : Byte} {n : Nat} (h : a.toNat + n ≤ 256) : rangeOk a n = true := (rangeOk_iff a n).mpr h

theorem rangeOk_of_gt {a : Byte} {n : Nat} (h : a.toNat + n > 256) : rangeOk a n = false := by
  cases hr : rangeOk a n with
  | false => rfl
  | true => exact absurd ((rangeOk_iff a n).mp hr) (by omega)

/-- Everything SEARCH can do (R143): line activity with `rom`, `LD`, `LFD`, `LDF` rewritten; the ranges of `LD` and `LFD` and the
link of `LDF` to `LD` are kept, and R = 0 leaves the zero state. -/
theorem searchRun_spec (m : Bit) (s : State) (hlfd : s.lfd.toNat ≤ 8) :
    ∃ items n,
      LineRun { s with
          rom := (searchRun m s).2.rom, ld := (searchRun m s).2.ld, lfd := (searchRun m s).2.lfd, ldf := (searchRun m s).2.ldf }
        (searchRun m s).2 n items ∧
      (searchRun m s).2.ld.toNat ≤ 64 ∧ (searchRun m s).2.lfd.toNat ≤ 8 ∧
      ((searchRun m s).2.ldf = true → (searchRun m s).2.ld = 0) ∧
      ((searchRun m s).1 = false → (searchRun m s).2 = (searchRun m s).2.searchClear) := by
  have key : ∀ {u v : State} {n : Nat} {items : List WireItem} (r : Vector Byte 8) (l : BitVec 7) (f : BitVec 4) (b : Bit),
      LineRun u v n items →
      LineRun { u with rom := r, ld := l, lfd := f, ldf := b } { v with rom := r, ld := l, lfd := f, ldf := b } n items := by
    intro u v n items r l f b h
    refine ⟨?_, h.legal, h.driver⟩
    conv_lhs => rw [h.eq]
    rfl
  unfold searchRun
  generalize (if m = true then Config.params.cmdCondSearch else Config.params.cmdSearch) = byte
  have hreset : ∃ items n, LineRun s (opReset s).2 n items := by
    rcases opReset_cases s with ⟨k, -, -, -, -, hr⟩ | ⟨-, -, hr⟩
    · exact ⟨_, _, hr⟩
    · exact ⟨_, _, hr⟩
  obtain ⟨i0, n0, hr0⟩ := hreset
  dsimp only
  generalize opReset s = r at hr0 ⊢
  obtain ⟨pres, u0⟩ := r
  dsimp only at hr0 ⊢
  cases hldf : s.ldf with
  | true => exact ⟨[], 0, key _ _ _ _ (LineRun.refl s), by simp, by simp, by simp, fun _ => rfl⟩
  | false =>
    cases pres with
    | false => exact ⟨_, _, key _ _ _ _ hr0, by simp, by simp, by simp, fun _ => rfl⟩
    | true =>
      simp only [Bool.false_eq_true, if_false, if_true]
      obtain ⟨i1, hr1, -, -, -⟩ := opWbyte_run byte false u0.gap
      have hr2 := hr0.trans ((gap_run _).trans hr1)
      generalize opWbyte byte false u0.gap = u at hr1 hr2
      have hul : u.lfd.toNat ≤ 8 := by rw [hr2.eq]; exact hlfd
      obtain ⟨i3, n3, hr3, hlz, hlfd3⟩ := searchLoop_run 64 1 0 u (by omega) (by omega) hul
      have hrb : Config.params.romBits = 64 := rfl
      rw [hrb]
      generalize searchLoop 64 1 0 u = w at hr3 hlz hlfd3
      obtain ⟨ok, lz, st⟩ := w
      dsimp only at hr3 hlz hlfd3
      have hall := (hr2.withSearch st.rom st.lfd).trans hr3
      have hk := fun r l f b => key r l f b hall
      have hst : st.ldf = false := by rw [hall.eq]; exact hldf
      unfold searchFinish
      dsimp only
      cases ok with
      | false =>
        simp only [Bool.not_false, Bool.true_or, if_true, Bool.false_eq_true, if_false]
        exact ⟨_, _, hk _ _ _ _, by simp, by simp, by simp, fun _ => rfl⟩
      | true =>
        simp only [Bool.not_true, Bool.false_or, if_true]
        split_ifs with hz
        · exact ⟨_, _, hk _ _ _ _, by simp, by simp, by simp, fun _ => rfl⟩
        · refine ⟨_, _, hk st.rom (BitVec.ofNat 7 lz) st.lfd (if lz = 0 then true else st.ldf), ?_, hlfd3, ?_, by simp⟩
          · simp only [searchCommit, BitVec.toNat_ofNat]; omega
          · intro h
            simp only [searchCommit, hst] at h ⊢
            split_ifs at h with h0
            · simp [h0]

end Sys2Proof.Machine
end

