-- ==== Sys2Proof/Laws/PerInstr.lean ====
section
/-! SUPPORT. Per-instruction families: one lemma per constructor of Instr. -/

/-- The code of an instruction fits its row of opcode_table.json: a command's word matches exactly one row, by its mask
(30_encoding.md R62), and a wire row's code is its byte (R74). -/
def Sys2Proof.Laws.EncodeFits.Statement (i : Sys2Proof.Instr) : Prop :=
  match Sys2Proof.encode i with
  | .cmd64 w => ∃ o : Sys2Proof.Op, w &&& o.mask = o.pattern ∧ i.wireByte = none
  | .wire8 b => i.wireByte = some b

namespace Sys2Proof.Laws.EncodeFits

/-- Field by field, the word of some fields under the mask of others (R61). -/
theorem fields_and (s s' : Half) (c c' n n' a a' d d' r r' op op' : Byte) :
    ((s ++ c ++ n ++ a ++ d ++ r ++ op : BitVec (16 + 8 + 8 + 8 + 8 + 8 + 8)) &&&
      (s' ++ c' ++ n' ++ a' ++ d' ++ r' ++ op')) =
      (s &&& s') ++ (c &&& c') ++ (n &&& n') ++ (a &&& a') ++ (d &&& d') ++ (r &&& r') ++ (op &&& op') := by
  simp only [BitVec.and_append]

/-- A laid-out word under a mask is the word of the masked fields: the fields a mask keeps whole stay, the others are 0. -/
theorem layCmd_and (s s' : Half) (c c' n n' a a' d d' r : Byte) (f : Bit) (op op' : Byte) :
    layCmd s c n a d f op &&& (s' ++ c' ++ n' ++ a' ++ d' ++ r ++ op') =
      (s &&& s') ++ (c &&& c') ++ (n &&& n') ++ (a &&& a') ++ (d &&& d') ++ ((0#7 ++ BitVec.ofBool f) &&& r) ++
        (op &&& op') :=
  fields_and s s' c c' n n' a a' d d' (0#7 ++ BitVec.ofBool f) r op op'

theorem reset : Statement .reset := ⟨.reset, by decide, rfl⟩
theorem wbit (v : Bit) : Statement (.wbit v) := ⟨.wbit, by cases v <;> decide, rfl⟩
theorem rbit : Statement .rbit := ⟨.rbit, by decide, rfl⟩
theorem wbyte (d : Byte) (p : Bit) : Statement (.wbyte d p) :=
  ⟨.wbyte, (layCmd_and 0 0xFFFF 0 0xFF 0 0xFF 0 0xFF d 0 0xFE p 0x04 0xFF).trans (by cases p <;> simp [Op.pattern]), rfl⟩
theorem rbyte : Statement .rbyte := ⟨.rbyte, by decide, rfl⟩
theorem wbytes (a n : Byte) (p : Bit) : Statement (.wbytes a n p) :=
  ⟨.wbytes, (layCmd_and 0 0xFFFF 0 0xFF n 0 a 0 0 0xFF 0xFE p 0x06 0xFF).trans (by cases p <;> simp [Op.pattern]), rfl⟩
theorem rbytes (a n : Byte) : Statement (.rbytes a n) :=
  ⟨.rbytes, (layCmd_and 0 0xFFFF 0 0xFF n 0 a 0 0 0xFF 0xFF false 0x07 0xFF).trans (by simp [Op.pattern]), rfl⟩
theorem select (a : Byte) : Statement (.select a) :=
  ⟨.select, (layCmd_and 0 0xFFFF 0 0xFF 0 0xFF a 0 0 0xFF 0xFF false 0x08 0xFF).trans (by simp [Op.pattern]), rfl⟩
theorem skip : Statement .skip := ⟨.skip, by decide, rfl⟩
theorem depower : Statement .depower := ⟨.depower, by decide, rfl⟩
theorem search (m : Bit) : Statement (.search m) := ⟨.search, by cases m <;> decide, rfl⟩
theorem rstsrch : Statement .rstsrch := ⟨.rstsrch, by decide, rfl⟩
theorem tgtsrch (d : Byte) : Statement (.tgtsrch d) :=
  ⟨.tgtsrch, (layCmd_and 0 0xFFFF 0 0xFF 0 0xFF 0 0xFF d 0 0xFF false 0x12 0xFF).trans (by simp [Op.pattern]), rfl⟩
theorem rdss : Statement .rdss := ⟨.rdss, by decide, rfl⟩
theorem rom2buf (a : Byte) : Statement (.rom2buf a) :=
  ⟨.rom2buf, (layCmd_and 0 0xFFFF 0 0xFF 0 0xFF a 0 0 0xFF 0xFF false 0x14 0xFF).trans (by simp [Op.pattern]), rfl⟩
theorem crc8 (a n : Byte) : Statement (.crc8 a n) :=
  ⟨.crc8, (layCmd_and 0 0xFFFF 0 0xFF n 0 a 0 0 0xFF 0xFF false 0x20 0xFF).trans (by simp [Op.pattern]), rfl⟩
theorem crc16 (a n : Byte) (seed : Half) : Statement (.crc16 a n seed) :=
  ⟨.crc16, (layCmd_and seed 0 0 0xFF n 0 a 0 0 0xFF 0xFF false 0x21 0xFF).trans (by simp [Op.pattern]), rfl⟩
theorem chkcrc16 (a n c : Byte) (seed : Half) : Statement (.chkcrc16 a n c seed) :=
  ⟨.chkcrc16, (layCmd_and seed 0 c 0 n 0 a 0 0 0xFF 0xFF false 0x22 0xFF).trans (by simp [Op.pattern]), rfl⟩
theorem bufwr (a d : Byte) : Statement (.bufwr a d) :=
  ⟨.bufwr, (layCmd_and 0 0xFFFF 0 0xFF 0 0xFF a 0 d 0 0xFF false 0x30 0xFF).trans (by simp [Op.pattern]), rfl⟩
theorem bufrd (a : Byte) : Statement (.bufrd a) :=
  ⟨.bufrd, (layCmd_and 0 0xFFFF 0 0xFF 0 0xFF a 0 0 0xFF 0xFF false 0x31 0xFF).trans (by simp [Op.pattern]), rfl⟩
theorem wireMatchRom : Statement .wireMatchRom := rfl
theorem wireSkipRom : Statement .wireSkipRom := rfl
theorem wireSearch : Statement .wireSearch := rfl
theorem wireCondSearch : Statement .wireCondSearch := rfl

end Sys2Proof.Laws.EncodeFits
end

