-- ==== Sys2Proof/Laws/Trace.lean ====
section
/-! SUPPORT. A pad trace made of whole wire shapes keeps the discipline of `PadMonitor`; a response word is always a legal one. -/

namespace Sys2Proof.Machine

/-- Each bit of a response word is the bit of its field (30_encoding.md R63). -/
theorem packRsp_getLsbD (st : Status) (r : Bit) (v : Half) (i : Nat) :
    (packRsp st r v).getLsbD i =
      if i < 4 then st.code.getLsbD i else if i < 8 then false else if i = 8 then r
      else if i < 16 then false else v.getLsbD (i - 16) := by
  have e : ∀ (a : BitVec 16) (b c : BitVec 8), (a ++ b ++ c : BitVec 32).getLsbD i =
      if i < 8 then c.getLsbD i else if i < 16 then b.getLsbD (i - 8) else a.getLsbD (i - 16) := by
    intro a b c
    rw [show (a ++ b ++ c : BitVec 32) = ((a ++ b : BitVec 24) ++ c : BitVec 32) from rfl, BitVec.getLsbD_append,
      BitVec.getLsbD_append]
    split_ifs <;> first | omega | rfl
  have f : (0#7 ++ BitVec.ofBool r : BitVec 8).getLsbD (i - 8) = (decide (i - 8 = 0) && r) := by
    rw [BitVec.getLsbD_append]; simp
  have g : ∀ c : BitVec 4, (0#4 ++ c : BitVec 8).getLsbD i = (decide (i < 4) && c.getLsbD i) := by
    intro c; rw [BitVec.getLsbD_append]; simp
  unfold packRsp
  rw [e, f, g]
  split_ifs with h1 h2 h3 h4 <;> first
    | omega
    | simp_all [show i - 8 ≠ 0 by omega]
    | simp_all

@[simp] theorem rspST_packRsp (st : Status) (r : Bit) (v : Half) : rspST (packRsp st r v) = st.code := by
  apply BitVec.eq_of_getLsbD_eq
  intro i hi
  rw [rspST, BitVec.getLsbD_extractLsb', packRsp_getLsbD, Nat.zero_add, if_pos hi]
  simp [hi]

@[simp] theorem rspR_packRsp (st : Status) (r : Bit) (v : Half) : rspR (packRsp st r v) = r := by
  rw [rspR, packRsp_getLsbD]
  rfl

@[simp] theorem rspV_packRsp (st : Status) (r : Bit) (v : Half) : rspV (packRsp st r v) = v := by
  apply BitVec.eq_of_getLsbD_eq
  intro i hi
  rw [rspV, BitVec.getLsbD_extractLsb', packRsp_getLsbD, if_neg (by omega), if_neg (by omega), if_neg (by omega),
    if_neg (by omega), Nat.add_sub_cancel_left]
  simp [hi]

/-- A response of OWC: status OK with any R and V, or another status with R = 0 and V = 0 (30_encoding.md R63, R64). -/
theorem rspLegal_packRsp (st : Status) (r : Bit) (v : Half) (h : st = .ok ∨ (r = false ∧ v = 0)) :
    rspLegal (packRsp st r v) = true := by
  have e1 : (packRsp st r v).extractLsb' 4 4 = 0 := by
    apply BitVec.eq_of_getLsbD_eq
    intro i hi
    rw [BitVec.getLsbD_extractLsb', packRsp_getLsbD, if_neg (by omega), if_pos (by omega)]
    simp
  have e2 : (packRsp st r v).extractLsb' 9 7 = 0 := by
    apply BitVec.eq_of_getLsbD_eq
    intro i hi
    rw [BitVec.getLsbD_extractLsb', packRsp_getLsbD, if_neg (by omega), if_neg (by omega), if_neg (by omega),
      if_pos (by omega)]
    simp
  unfold rspLegal
  rw [e1, e2, rspST_packRsp, rspR_packRsp, rspV_packRsp]
  rcases h with rfl | ⟨rfl, rfl⟩
  · rfl
  · cases st <;> decide

/-- A trace observed piece by piece. -/
theorem PadMonitor.replay_append (m : PadMonitor) (l k : List PadEvent) :
    m.replay (l ++ k) = (m.replay l).bind (·.replay k) := by
  induction l generalizing m with
  | nil => rfl
  | cons e l ih => simp only [List.cons_append, PadMonitor.replay]; split <;> simp [*]

/-- Low polls inside a section, with the line released. -/
theorem PadMonitor.replay_lowPolls (out : Bit) (e k : Nat) :
    (PadMonitor.mk false out true e).replay (lowPolls k) = some ⟨false, out, true, e + 2 * k⟩ := by
  induction k generalizing e with
  | zero => rfl
  | succ k ih => simp [lowPolls, PadMonitor.replay, PadMonitor.observe, ih]; omega

/-- A legal shape, observed outside a section, leaves the observer outside a section with the driver as the shape leaves it. -/
theorem PadMonitor.replay_events (x : WireItem) (h : x.legal = true) (d : Bit × Bit) :
    (PadMonitor.mk d.1 d.2 false 0).replay x.events = some ⟨(x.driverAfter d).1, (x.driverAfter d).2, false, 0⟩ := by
  cases x with
  | wslot v => cases v <;> rfl
  | rslot v => rfl
  | resetPulse o k v =>
    simp only [WireItem.legal, decide_eq_true_eq] at h
    simp only [WireItem.events, replay_append]
    simp [PadMonitor.replay, PadMonitor.observe, replay_lowPolls, WireItem.driverAfter, show 2 * k ≤ 248 by omega]
  | resetGiveUp o =>
    simp only [WireItem.events, replay_append]
    simp [PadMonitor.replay, PadMonitor.observe, replay_lowPolls, WireItem.driverAfter]
  | release o => rfl
  | gap g => rfl

/-- The same of several legal shapes. -/
theorem PadMonitor.replay_wireEvents (l : List WireItem) (h : ∀ x ∈ l, x.legal = true) (d : Bit × Bit) :
    (PadMonitor.mk d.1 d.2 false 0).replay (wireEvents l) =
      some ⟨(l.foldl WireItem.driverAfter d).1, (l.foldl WireItem.driverAfter d).2, false, 0⟩ := by
  induction l generalizing d with
  | nil => rfl
  | cons x l ih =>
    rw [wireEvents_cons, replay_append, replay_events x (h x (by simp))]
    simp [ih (fun y hy => h y (List.mem_cons_of_mem _ hy))]

/-- Line activity keeps the discipline of the trace. -/
theorem LineRun.traceOk {s t : State} {n : Nat} {l : List WireItem} (h : LineRun s t n l)
    (hs : PadMonitor.start.replay s.trace = some ⟨s.oe, s.out, false, 0⟩) :
    PadMonitor.start.replay t.trace = some ⟨t.oe, t.out, false, 0⟩ := by
  rw [h.trace, PadMonitor.replay_append, hs]
  simp only [Option.bind_some]
  rw [PadMonitor.replay_wireEvents l h.legal (s.oe, s.out), ← h.driver]

end Sys2Proof.Machine
end

