-- ==== Sys2Proof/Tests/Slice0.lean ====
section
/-! SUPPORT. Tests: the well-formedness checks, the decoding of written-out words, one step of every instruction, and for each statement with
hypotheses states and operands that meet them. Expected values are the spec's: `T<n>` and `P<n>` are vectors of 95_test_vectors.md. -/

namespace Sys2Proof.Tests

open Sys2Proof.Machine

/-! ## Well-formedness: one ill-formed term for each check (20_memory.md R44), and the last legal range beside it -/

theorem test_wf_wbytes : ¬ (Instr.wbytes 255 2 false).WellFormed ∧ (Instr.wbytes 255 1 false).WellFormed := by decide
theorem test_wf_rbytes : ¬ (Instr.rbytes 250 7).WellFormed ∧ (Instr.rbytes 250 6).WellFormed := by decide
theorem test_wf_select : ¬ (Instr.select 249).WellFormed ∧ (Instr.select 248).WellFormed := by decide
theorem test_wf_rom2buf : ¬ (Instr.rom2buf 249).WellFormed ∧ (Instr.rom2buf 248).WellFormed := by decide
theorem test_wf_crc8 : ¬ (Instr.crc8 2 255).WellFormed ∧ (Instr.crc8 1 255).WellFormed := by decide
theorem test_wf_crc16 : ¬ (Instr.crc16 255 255 0).WellFormed ∧ (Instr.crc16 255 0 0).WellFormed := by decide
theorem test_wf_chkcrc16_data : ¬ (Instr.chkcrc16 250 7 0 0).WellFormed := by decide
theorem test_wf_chkcrc16_crc : ¬ (Instr.chkcrc16 0 9 255 0).WellFormed ∧ (Instr.chkcrc16 0 9 254 0).WellFormed := by decide

/-! ## Decoding: words written out field by field, `S C N A D RSV F OP` (30_encoding.md R61, R62) -/

/-- A word from the bits of its fields, the most significant field first. -/
def spell (s : BitVec 16) (c n a d : BitVec 8) (rsv : BitVec 7) (f : BitVec 1) (op : BitVec 8) : Nat :=
  (s ++ c ++ n ++ a ++ d ++ rsv ++ f ++ op).toNat

theorem test_decode_reset : decodeTableWord 64 (spell 0 0 0 0 0 0b0000000 0b0 0b00000001) = some .reset := by decide
theorem test_decode_wbit : decodeTableWord 64 (spell 0 0 0 0 0 0b0000000 0b1 0b00000010) = some (.wbit true) ∧
    decodeTableWord 64 (spell 0 0 0 0 0 0b0000000 0b0 0b00000010) = some (.wbit false) := by decide
theorem test_decode_rbit : decodeTableWord 64 (spell 0 0 0 0 0 0b0000000 0b0 0b00000011) = some .rbit := by decide
theorem test_decode_wbyte : decodeTableWord 64 (spell 0 0 0 0 0b01000100 0b0000000 0b1 0b00000100) = some (.wbyte 0x44 true) := by decide
theorem test_decode_rbyte : decodeTableWord 64 (spell 0 0 0 0 0 0b0000000 0b0 0b00000101) = some .rbyte := by decide
theorem test_decode_wbytes :
    decodeTableWord 64 (spell 0 0 0b00001001 0b00010000 0 0b0000000 0b0 0b00000110) = some (.wbytes 0x10 9 false) := by decide
theorem test_decode_rbytes :
    decodeTableWord 64 (spell 0 0 0b00000010 0b10000000 0 0b0000000 0b0 0b00000111) = some (.rbytes 0x80 2) := by decide
theorem test_decode_select : decodeTableWord 64 (spell 0 0 0 0b00100000 0 0b0000000 0b0 0b00001000) = some (.select 0x20) := by decide
theorem test_decode_skip : decodeTableWord 64 (spell 0 0 0 0 0 0b0000000 0b0 0b00001001) = some .skip := by decide
theorem test_decode_depower : decodeTableWord 64 (spell 0 0 0 0 0 0b0000000 0b0 0b00001010) = some .depower := by decide
theorem test_decode_search : decodeTableWord 64 (spell 0 0 0 0 0 0b0000000 0b1 0b00010000) = some (.search true) ∧
    decodeTableWord 64 (spell 0 0 0 0 0 0b0000000 0b0 0b00010000) = some (.search false) := by decide
theorem test_decode_rstsrch : decodeTableWord 64 (spell 0 0 0 0 0 0b0000000 0b0 0b00010001) = some .rstsrch := by decide
theorem test_decode_tgtsrch : decodeTableWord 64 (spell 0 0 0 0 0b00101000 0b0000000 0b0 0b00010010) = some (.tgtsrch 0x28) := by decide
theorem test_decode_rdss : decodeTableWord 64 (spell 0 0 0 0 0 0b0000000 0b0 0b00010011) = some .rdss := by decide
theorem test_decode_rom2buf : decodeTableWord 64 (spell 0 0 0 0b11111001 0 0b0000000 0b0 0b00010100) = some (.rom2buf 0xF9) := by decide
theorem test_decode_crc8 :
    decodeTableWord 64 (spell 0 0 0b00000111 0b00000001 0 0b0000000 0b0 0b00100000) = some (.crc8 1 7) := by decide
theorem test_decode_crc16 : decodeTableWord 64 (spell 0b0001010010111010 0 0b00000101 0b00000100 0 0b0000000 0b0 0b00100001) =
    some (.crc16 4 5 0x14BA) := by decide
theorem test_decode_chkcrc16 :
    decodeTableWord 64 (spell 0b1111111111111111 0b00100000 0b00001001 0b00000011 0 0b0000000 0b0 0b00100010) =
      some (.chkcrc16 3 9 0x20 0xFFFF) := by decide
theorem test_decode_bufwr :
    decodeTableWord 64 (spell 0 0 0 0b00100000 0b11001100 0b0000000 0b0 0b00110000) = some (.bufwr 0x20 0xCC) := by decide
theorem test_decode_bufrd : decodeTableWord 64 (spell 0 0 0 0b11111111 0 0b0000000 0b0 0b00110001) = some (.bufrd 0xFF) := by decide

/-- The four wire command bytes, bit 7 first (R74); as host words they are no command (R77). -/
theorem test_decode_wire_bytes :
    decodeTableWord 8 0b01010101 = some .wireMatchRom ∧ decodeTableWord 8 0b11001100 = some .wireSkipRom ∧
    decodeTableWord 8 0b11110000 = some .wireSearch ∧ decodeTableWord 8 0b11101100 = some .wireCondSearch ∧
    [0x55, 0xCC, 0xF0, 0xEC].all (fun w => decodeCmd w matches .error .opcode) = true := by decide

/-- T82 to T84 and the ends of the illegal ranges of R69. -/
theorem test_decode_illegal_opcodes :
    [0x00, 0x0B, 0x0F, 0x15, 0x1F, 0x23, 0x2F, 0x32, 0xFF, 0x20B].all (fun w => decodeCmd w matches .error .opcode) = true ∧
    [0x00, 0x0B, 0x0F, 0x15, 0x1F, 0x23, 0x2F, 0x32, 0xFF].all illegalOpcode = true ∧
    [0x01, 0x0A, 0x10, 0x14, 0x20, 0x22, 0x30, 0x31].all (fun n => !illegalOpcode n) = true := by decide

/-- T85 to T88: a bit the command does not use. -/
theorem test_decode_reserved_bits :
    [0x101, 0x202, 0x10002, 0x100440004, 0x103, 0x10100000021, 0xFF010031, 0x101020030, 0x10010, 0x280112,
      0x100000000000A, 0x1000013].all (fun w => decodeCmd w matches .error .field) = true := by decide

theorem test_encode_words :
    encode (.chkcrc16 0 9 9 0) = .cmd64 0x0000090900000022 ∧ encode (.wbyte 0xA5 true) = .cmd64 0x0000000000A50104 ∧
    encode (.crc16 4 5 0x14BA) = .cmd64 0x14BA000504000021 ∧ encode .wireCondSearch = .wire8 0xEC := by decide

/-! ## One step of each instruction, from its word -/

/-- What can be seen of the next state; none where the step stops. -/
def look {α : Type} (o : Host.Outcome State Fault Refusal) (f : State → α) : Option α :=
  match o with
  | .next t => some (f t)
  | .fault _ | .refused _ => none

/-- The step of a host word. -/
def stepWord {α : Type} (s : State) (w : Nat) (f : State → α) : Option α := look (step (s.withFetchWord 64 w)) f

/-- The reset state with the environment's next answers (Script of section 2), 1 for an answer of 1. -/
def script (l : List Nat) : State := { State.reset with samples := l.map (· == 1) }

/-- The reset state with bytes in BUF from an address upward. -/
def withBuf (a : Nat) (l : List Byte) : State := { State.reset with buf := l.mapIdx fun i b => (a + i, b) }

/-- The driver outputs. -/
def pads (s : State) : Bit × Bit := (s.oe, s.out)

/-- T1. -/
theorem test_reset_presence : stepWord (script [1, 0]) 0x01 (fun t => (t.rsp, pads t, t.trace)) =
    some (some 0x00000100, (false, false), [.sectBegin, .drive false false, .wait 2, .sample true, .drive true false, .wait 480,
      .drive false false, .wait 70, .sample false, .wait 410, .sectEnd]) := by decide
/-- T4: the line stuck low. -/
theorem test_reset_stuck_low : stepWord { script (List.replicate 125 0) with oe := true, out := true } 0x01
    (fun t => (t.rsp, pads t, t.samples)) = some (some 0, (false, true), []) := by decide +kernel
/-- T6. -/
theorem test_wbit_zero : stepWord State.reset 0x02 (fun t => (t.rsp, pads t, t.trace)) =
    some (some 0, (true, true), [.sectBegin, .drive true false, .wait 65, .drive true true, .wait 5, .sectEnd]) := by decide
/-- T7. -/
theorem test_wbit_one : stepWord State.reset 0x102 (fun t => (t.rsp, pads t, t.trace)) =
    some (some 0, (true, true), [.sectBegin, .drive true false, .wait 10, .drive true true, .wait 55, .sectEnd]) := by decide
/-- T8. -/
theorem test_rbit_one : stepWord (script [1]) 0x03 (fun t => (t.rsp, pads t, t.trace)) =
    some (some 0x00000100, (false, false),
      [.sectBegin, .drive true false, .wait 3, .drive false false, .wait 10, .sample true, .wait 53, .sectEnd]) := by decide
/-- T9. -/
theorem test_rbit_zero : stepWord (script [0]) 0x03 (fun t => (t.rsp, t.samples)) = some (some 0, []) := by decide
/-- T13: bit 0 first, then the tail. -/
theorem test_wbyte_order : stepWord State.reset 0x10004 (fun t => (t.rsp, pads t, t.padTrace)) =
    some (some 0, (false, false), wireEvents (.wslot true :: List.replicate 7 (.wslot false) ++ [.release false])) := by decide
/-- T12: held high, no tail. -/
theorem test_wbyte_hold : stepWord State.reset 0xA50104 (fun t => (pads t, t.padTrace)) =
    some ((true, true), wireEvents ([true, false, true, false, false, true, false, true].map .wslot)) := by decide
/-- T16. -/
theorem test_rbyte_a5 : stepWord (script [1, 0, 1, 0, 0, 1, 0, 1]) 0x05 (fun t => (t.rsp, pads t, duration t.trace)) =
    some (some 0x00A50000, (false, false), 528) := by decide
/-- T18: the eighth sample is bit 7. -/
theorem test_rbyte_last_bit : stepWord (script [0, 0, 0, 0, 0, 0, 0, 1]) 0x05 (fun t => t.rsp) = some (some 0x00800000) := by decide
/-- T20. -/
theorem test_wbytes_empty : stepWord (withBuf 0x10 [0x44, 0xBE]) 0x10000106 (fun t => (t.rsp, pads t, t.trace)) =
    some (some 0, (false, false), []) := by decide
set_option maxRecDepth 4000 in
/-- T21: a tail after the first byte, none after the last. -/
theorem test_wbytes_two : stepWord (withBuf 0x10 [0x44, 0xBE]) 0x0000000210000106 (fun t => (t.rsp, pads t, t.padTrace)) =
    some (some 0, (true, true), wireEvents ([false, false, true, false, false, false, true, false].map .wslot ++ [.release false] ++
      [false, true, true, true, true, true, false, true].map .wslot)) := by decide
/-- T24. -/
theorem test_rbytes_two : stepWord (script [0, 0, 0, 0, 1, 0, 1, 0, 1, 0, 1, 0, 0, 0, 0, 0]) 0x0000000280000007
    (fun t => (t.rsp, t.buf, t.samples)) = some (some 0, [(0x80, 0x50), (0x81, 0x05)], []) := by decide
/-- T89: refused, and nothing else changed. -/
theorem test_rbytes_range : stepWord (script [1]) 0x00000007FA000007 id = some { script [1] with rsp := some 0x00000003 } := by
  decide
/-- T25: the response and the released line (the slots are in the statement about SELECT). -/
theorem test_select_ends : stepWord (withBuf 0 [0x28, 0xFF, 0x4B, 0x46, 0x92, 0x15, 0x02, 0xF0]) 0x08
    (fun t => (t.rsp, pads t)) = some (some 0, (false, false)) := by decide
/-- T91. -/
theorem test_select_range : stepWord State.reset 0xF9000008 id = some { State.reset with rsp := some 0x00000003 } := by decide
/-- T26. -/
theorem test_skip : stepWord State.reset 0x09 (fun t => (t.rsp, pads t, t.padTrace)) =
    some (some 0, (false, false),
      wireEvents ([false, false, true, true, false, false, true, true].map .wslot ++ [.release false])) := by decide
/-- T14: the latch keeps its 1. -/
theorem test_depower : stepWord { State.reset with oe := true, out := true } 0x0A (fun t => (t.rsp, pads t, t.trace)) =
    some (some 0, (false, true), [.drive false true]) := by decide


/-- Address A of 95_test_vectors.md. -/
def romA : List Byte := [0x28, 0xFF, 0x4B, 0x46, 0x92, 0x15, 0x02, 0xF0]

/-- Addresses C, X, Y of 95_test_vectors.md and A, position p as bit p-1. -/
def wordA : BitVec 64 := 0xF0021592464BFF28
def wordC : BitVec 64 := 0x370008020AA95010
def wordX : BitVec 64 := 0x0000000000000028
def wordY : BitVec 64 := 0x8000000000000028

/-- The reset state on a well-behaved bus of these devices, with search registers of its own. -/
def onBus (devs : List (BitVec 64)) (rom : Vector Byte 8) (ld : BitVec 7) : State :=
  { State.reset with rom := rom, ld := ld, samples := [true, false] ++ busAnswers ld.toNat (romWord rom) 64 0 devs }

/-- T30: one device. -/
theorem test_search_single : look (exec (.search false) (onBus [wordA] (Vector.replicate 8 0) 0))
    (fun t => (t.rsp, t.rom.toList, t.ld, t.lfd, t.ldf)) = some (some 0x00000100, romA, 0, 0, true) := by decide +kernel
/-- T52: abort at position 3. -/
theorem test_search_abort : stepWord (script [1, 0, 0, 1, 1, 0, 1, 1]) 0x10
    (fun t => (t.rsp, t.rom.toList, pads t, duration t.trace)) =
      some (some 0, List.replicate 8 0, (false, false), 2033) := by decide +kernel
/-- T49: RSTSRCH clears, the line is left. -/
theorem test_rstsrch : stepWord { onBus [] #v[1, 2, 3, 4, 5, 6, 7, 8] 10 with lfd := 4, ldf := true, oe := true, out := true } 0x11
    (fun t => (t.rsp, t.rom.toList, t.ld, t.ldf, t.oe)) =
      some (some 0, List.replicate 8 0, 0, false, true) := by decide
/-- R148. -/
theorem test_tgtsrch : stepWord { State.reset with lfd := 4, ldf := true } 0x280012
    (fun t => (t.rsp, t.rom.toList, t.ld, t.lfd, t.ldf)) = some (some 0, [0x28, 0, 0, 0, 0, 0, 0, 0], 64, 0, false) := by decide
/-- The encodings under section 3.2: LD = 10, LFD = 4, LDF = 0, and LD = 64, LFD = 8. -/
theorem test_rdss : stepWord { State.reset with ld := 10, lfd := 4 } 0x13 (fun t => t.rsp) = some (some 0x040A0000) ∧
    stepWord { State.reset with ld := 64, lfd := 8 } 0x13 (fun t => t.rsp) = some (some 0x08400000) := by decide
/-- The same with LDF = 1: R. -/
theorem test_rdss_last : stepWord { State.reset with lfd := 4, ldf := true } 0x13 (fun t => t.rsp) = some (some 0x04000100) := by
  decide
/-- P1, command 3, at 0xF8: the last place the address fits. -/
theorem test_rom2buf : stepWord { State.reset with rom := #v[0x10, 0x50, 0xA9, 0x0A, 2, 8, 0, 0x37] } 0xF8000014
    (fun t => (t.rsp, t.buf)) = some (some 0, [(0xF8, 0x10), (0xF9, 0x50), (0xFA, 0xA9), (0xFB, 0x0A), (0xFC, 2), (0xFD, 8),
      (0xFE, 0), (0xFF, 0x37)]) := by decide
/-- P4, command 4. -/
theorem test_rom2buf_range : stepWord State.reset 0xF9000014 id = some { State.reset with rsp := some 0x00000003 } := by decide
/-- The bytes "123456789". -/
def digits : List Byte := [0x31, 0x32, 0x33, 0x34, 0x35, 0x36, 0x37, 0x38, 0x39]
set_option maxRecDepth 4000 in
/-- T65. -/
theorem test_crc8_digits : stepWord (withBuf 0 digits) 0x0000000900000020 (fun t => t.rsp) = some (some 0x00A10000) := by decide
set_option maxRecDepth 4000 in
/-- T62 and T67. -/
theorem test_crc8_update : crc8 [0x10, 0, 0, 0, 0, 0, 0] = 0xFB ∧ crc8 romA = 0 ∧ crc8Update 0xA5 0x3C = 0x8D := by decide
set_option maxRecDepth 4000 in
/-- T73. -/
theorem test_crc16_digits : stepWord (withBuf 0 digits) 0x0000000900000021 (fun t => t.rsp) = some (some 0xBB3D0000) := by decide
set_option maxRecDepth 4000 in
/-- T77b: the seed. -/
theorem test_crc16_seed : stepWord (withBuf 4 [0x35, 0x36, 0x37, 0x38, 0x39]) 0x14BA000504000021 (fun t => t.rsp) =
    some (some 0xBB3D0000) := by decide
set_option maxRecDepth 4000 in
/-- T75. -/
theorem test_chkcrc16_right : stepWord (withBuf 0 (digits ++ [0xC2, 0x44])) 0x0000090900000022 (fun t => t.rsp) =
    some (some 0x00000100) := by decide
set_option maxRecDepth 4000 in
/-- T75c: the bytes swapped. -/
theorem test_chkcrc16_swapped : stepWord (withBuf 0 (digits ++ [0x44, 0xC2])) 0x0000090900000022 (fun t => t.rsp) = some (some 0) := by
  decide
/-- T80. -/
theorem test_bufwr : stepWord (withBuf 0xFD [1, 2, 3]) 0xFFEE0030 (fun t => (t.rsp, t.buf)) =
    some (some 0, [(0xFD, 1), (0xFE, 2), (0xFF, 0xEE)]) := by decide
/-- T81. -/
theorem test_bufrd : stepWord (withBuf 0xFF [0xEE]) 0xFF000031 (fun t => t.rsp) = some (some 0x00EE0000) := by decide
/-- The slots of 30_encoding.md R74, first slot on the left. -/
theorem test_wire_bytes_slots :
    look (exec .wireMatchRom State.reset) (·.padTrace) =
      some (wireEvents ([true, false, true, false, true, false, true, false].map .wslot ++ [.release false])) ∧
    look (exec .wireSkipRom State.reset) (·.padTrace) =
      some (wireEvents ([false, false, true, true, false, false, true, true].map .wslot ++ [.release false])) := by decide
/-- T38 and T54: the two search bytes. -/
theorem test_wire_search_slots :
    look (exec .wireSearch State.reset) (·.padTrace) =
      some (wireEvents ([false, false, false, false, true, true, true, true].map .wslot ++ [.release false])) ∧
    look (exec .wireCondSearch State.reset) (·.padTrace) =
      some (wireEvents ([false, false, true, true, false, true, true, true].map .wslot ++ [.release false])) := by decide
/-- 70_reset_and_hazards.md R220: what hardware reset does to a state in the middle of a command. -/
theorem test_hw_reset :
    pads { State.reset with oe := true, out := true, busy := true }.hwReset = (false, false) ∧
    { State.reset with busy := true, ld := 7, buf := [(3, 9)] }.hwReset.buf = [] ∧
    { State.reset with busy := true, ld := 7 }.hwReset.ld = 0 := by decide

/-! ## States and operands that meet the hypotheses of the statements -/

/-- A host with one word to give, on an environment that answers a presence pulse. -/
def hostWord (w : Cmd64) : State := { script [1, 0] with cmds := [w] }

theorem witness_EncodeOfDecodeIsTheWord :
    decodeCmd 0xFFFF0000FF010021 = .error .field ∧ decodeCmd 0xFFFF00FF01000021 = .ok (.crc16 1 255 0xFFFF) := by decide

theorem witness_AWordSpellsARow :
    (0x0000000100440104 : Cmd64) &&& Op.wbyte.mask ≠ Op.wbyte.pattern ∧ fieldOP 0x0000000100440104 = Op.wbyte.code ∧
    (0x0000000000440104 : Cmd64) &&& Op.wbyte.mask = Op.wbyte.pattern ∧
    (0xFFFFFFFFFF000022 : Cmd64) &&& Op.chkcrc16.mask = Op.chkcrc16.pattern := by decide

theorem witness_StepRunsTheDecodedCommand : (hostWord 0x01).busy = false ∧ (hostWord 0x01).cmds = 0x01 :: [] ∧
    decodeCmd 0x01 = .ok .reset := by decide

theorem witness_StepRefusesAWordThatSpellsNothing_opcode : (hostWord 0x0B).busy = false ∧ (hostWord 0x0B).cmds = 0x0B :: [] ∧
    ∀ o : Op, fieldOP 0x0B ≠ o.code := by
  refine ⟨by decide, by decide, ?_⟩
  intro o
  cases o <;> decide

theorem witness_StepRefusesAWordThatSpellsNothing_field : (hostWord 0x101).busy = false ∧ (hostWord 0x101).cmds = 0x101 :: [] ∧
    fieldOP 0x101 = Op.reset.code ∧ (0x101 : Cmd64) &&& Op.reset.mask ≠ Op.reset.pattern := by decide

theorem witness_StepWaitsWithoutACommand : (script [1]).busy = false ∧ (script [1]).cmds = [] := by decide

/-- A state with something in every field, where the invariant holds and a step answers a next state. -/
def midSearch : State :=
  { script [1, 0] with
    oe := true, out := true, rom := #v[0x28, 1, 2, 3, 4, 5, 6, 0x9E], ld := 10, lfd := 4, buf := [(0, 1), (255, 2)],
    rsp := some 0x00000100, cmds := [0x13], trace := (WireItem.wslot true).events }

theorem witness_StepKeepsTheBoundaryInvariant : Inv midSearch ∧ step midSearch =
    .next { midSearch with cmds := [], rsp := some 0x040A0000 } := by
  refine ⟨⟨by decide, by decide, by decide, by decide, rfl, ?_, by decide⟩, by rfl⟩
  intro w h
  cases h
  decide

theorem witness_StepShowsOnlyWholeWireShapes : (step (hostWord 0x102) matches .next _) = true := by decide

/-- Each clause of the refusal of a range, at the first range that is too long; and the longest range that is not. -/
theorem witness_OutOfRangeCommandsAreRefused :
    (255 : Byte).toNat + (2 : Byte).toNat > 256 ∧ (249 : Byte).toNat + 8 > 256 ∧ (255 : Byte).toNat + 2 > 256 ∧
    (Instr.chkcrc16 0 255 254 0).WellFormed ∧ (Instr.chkcrc16 0 255 254 0).wireByte = none ∧
    (255 : Byte).toNat + (1 : Byte).toNat ≤ 256 ∧ (248 : Byte).toNat + 8 ≤ 256 ∧ (254 : Byte).toNat + 2 ≤ 256 := by decide

theorem witness_ResetPolls_first : 0 < 125 ∧ (script [1, 0]).upcoming (0 + 2) = List.replicate 0 false ++ [true, false] := by decide
/-- T5: the 125th poll is the high one. -/
theorem witness_ResetPolls_last : 124 < 125 ∧ (script (List.replicate 124 0 ++ [1, 0])).upcoming (124 + 2) =
    List.replicate 124 false ++ [true, false] := ⟨by decide, upcoming_eq_samples rfl⟩
theorem witness_ResetGivesUp : (script (List.replicate 125 0)).upcoming 125 = List.replicate 125 false := upcoming_eq_samples rfl

/-- The clauses of a range: empty, one byte at the top, too long. -/
theorem witness_WbytesRbytes_ranges : (255 : Byte).toNat + (0 : Byte).toNat ≤ 256 ∧ (255 : Byte).toNat + (1 : Byte).toNat ≤ 256 ∧
    ¬ (250 : Byte).toNat + (6 : Byte).toNat > 256 ∧ (250 : Byte).toNat + (7 : Byte).toNat > 256 := by decide
theorem witness_SelectRom2buf_ranges : (248 : Byte).toNat + 8 ≤ 256 ∧ (249 : Byte).toNat + 8 > 256 := by decide
theorem witness_Crc_ranges : (1 : Byte).toNat + (255 : Byte).toNat ≤ 256 ∧ (2 : Byte).toNat + (255 : Byte).toNat > 256 ∧
    (254 : Byte).toNat + 2 ≤ 256 ∧ (255 : Byte).toNat + 2 > 256 := by decide
theorem witness_bytes_outside_a_range : (247 : Nat) < (248 : Byte).toNat ∧ (248 : Byte).toNat + (7 : Byte).toNat ≤ 255 := by decide

theorem witness_SearchAfterTheLastDevice : { script [] with ldf := true, rom := #v[1, 2, 3, 4, 5, 6, 7, 8] }.ldf = true := rfl

theorem witness_SearchWithoutPresence_pulse : midSearch.ldf = false ∧ 0 < 125 ∧
    { midSearch with samples := [true, true] }.upcoming (0 + 2) = List.replicate 0 false ++ [true, true] := by decide
theorem witness_SearchWithoutPresence_stuck : (script (List.replicate 125 0)).ldf = false ∧
    (script (List.replicate 125 0)).upcoming 125 = List.replicate 125 false := ⟨rfl, upcoming_eq_samples rfl⟩

/-- T53: silence at position 1. -/
theorem witness_SearchAborts_first : (script [1, 0, 1, 1]).ldf = false ∧ (script [1, 0, 1, 1]).presenceAfter 0 ∧
    traversalPair (script [1, 0, 1, 1]) 0 1 = (true, true) := ⟨by decide, ⟨by decide, by decide⟩, by decide⟩

/-- Silence at position 64 after 63 answers of zero. -/
def lastSilent : State := script ([1, 0] ++ List.replicate 126 0 ++ [1, 1])
theorem witness_SearchAborts_last : lastSilent.ldf = false ∧ lastSilent.presenceAfter 0 ∧
    (∀ q, 1 ≤ q → q < 64 → traversalPair lastSilent 0 q ≠ (true, true)) ∧ traversalPair lastSilent 0 64 = (true, true) := by
  refine ⟨rfl, ⟨by decide, by decide⟩, ?_, by decide⟩
  have h : ∀ q ∈ List.range' 1 63, traversalPair lastSilent 0 q ≠ (true, true) := by decide
  exact fun q h1 h2 => h q (by rw [List.mem_range'_1]; omega)

/-- T51: every pair (0,0), so every direction is 0. -/
def allZeroBus : State := script ([1, 0] ++ List.replicate 128 0)
theorem witness_SearchResolves_zeros : allZeroBus.ldf = false ∧ allZeroBus.presenceAfter 0 ∧
    (∀ p, 1 ≤ p → p ≤ 64 → traversalPair allZeroBus 0 p ≠ (true, true)) ∧
    (∀ p, 1 ≤ p → p ≤ 64 → traversalDir allZeroBus 0 p = false) := by
  have h : ∀ q ∈ List.range' 1 64, traversalPair allZeroBus 0 q ≠ (true, true) ∧ traversalDir allZeroBus 0 q = false := by decide
  exact ⟨rfl, ⟨by decide, by decide⟩, fun q h1 h2 => (h q (by rw [List.mem_range'_1]; omega)).1,
    fun q h1 h2 => (h q (by rw [List.mem_range'_1]; omega)).2⟩

/-- A bus that answers (1,0) at position 1 and (0,0) at every other, after one low poll. -/
def oneFirstBus : State := script ([0, 1, 0, 1, 0] ++ List.replicate 126 0)
theorem witness_SearchResolves_found : oneFirstBus.ldf = false ∧ oneFirstBus.presenceAfter 1 ∧
    (∀ p, 1 ≤ p → p ≤ 64 → traversalPair oneFirstBus 1 p ≠ (true, true)) ∧
    (∃ p, 1 ≤ p ∧ p ≤ 64 ∧ traversalDir oneFirstBus 1 p = true) ∧ traversalLast oneFirstBus 1 64 = 64 := by
  have h : ∀ q ∈ List.range' 1 64, traversalPair oneFirstBus 1 q ≠ (true, true) := by decide
  exact ⟨rfl, ⟨by decide, by decide⟩, fun q h1 h2 => h q (by rw [List.mem_range'_1]; omega),
    ⟨1, by decide, by decide, by decide⟩, by decide⟩

theorem witness_SearchDependsOnly : { midSearch with oe := false, buf := [] }.rom = midSearch.rom ∧
    ∀ k, { midSearch with oe := false, buf := [] }.answer k = midSearch.answer k := ⟨rfl, fun _ => rfl⟩

/-- The bus of `onBus` is well behaved. -/
theorem onBus_wellBehaved (devs : List (BitVec 64)) (rom : Vector Byte 8) (ld : BitVec 7) : (onBus devs rom ld).wellBehaved devs :=
  upcoming_eq_samples (by simp [onBus, length_busAnswers])

theorem witness_FirstSearch : [wordX, wordY] ≠ [] ∧ (0 : BitVec 64) ∉ [wordX, wordY] ∧
    (onBus [wordX, wordY] (Vector.replicate 8 0) 0).ldf = false ∧ (onBus [wordX, wordY] (Vector.replicate 8 0) 0).ld = 0 ∧
    (onBus [wordX, wordY] (Vector.replicate 8 0) 0).wellBehaved [wordX, wordY] :=
  ⟨by decide, by decide, rfl, rfl, onBus_wellBehaved _ _ _⟩

/-- T36, T37: after X was found, with Y left. -/
def afterX : State := onBus [wordX, wordY] #v[0x28, 0, 0, 0, 0, 0, 0, 0] 64
theorem witness_NextSearch : (0 : BitVec 64) ∉ [wordX, wordY] ∧ romWord afterX.rom ∈ [wordX, wordY] ∧ afterX.ld ≠ 0 ∧
    afterX.ld.toNat = lastDeferred [wordX, wordY] (romWord afterX.rom) ∧ afterX.ldf = false ∧
    afterX.wellBehaved [wordX, wordY] :=
  ⟨by decide, by decide, by decide, by decide, rfl, onBus_wellBehaved _ _ _⟩

/-- T45, with the two families 0x10 and 0x28: TGTSRCH 0x28 from the reset state, then the bus. -/
def beforeTarget : State :=
  { State.reset with samples := (onBus [wordA, wordC] #v[0x28, 0, 0, 0, 0, 0, 0, 0] 64).samples }
theorem witness_TargetedFirstSearch : (0 : BitVec 64) ∉ [wordA, wordC] ∧ (∃ x ∈ [wordA, wordC], x.extractLsb' 0 8 = (0x28 : Byte)) ∧
    ∃ s1, exec (.tgtsrch 0x28) beforeTarget = .next s1 ∧ s1.wellBehaved [wordA, wordC] := by
  refine ⟨by decide, ⟨wordA, by decide, by decide⟩, _, rfl, ?_⟩
  exact onBus_wellBehaved [wordA, wordC] #v[0x28, 0, 0, 0, 0, 0, 0, 0] 64

theorem witness_ExecAnswersNext : (exec (.rbytes 0xF8 0) midSearch matches .next _) = true ∧
    (∀ m, Instr.rbytes 0xF8 0 ≠ .search m) ∧ (7 : Nat) ∉ bufWrites (.rom2buf 0xF8) ∧ 0xF8 ∈ bufWrites (.rom2buf 0xF8) := by
  exact ⟨by decide, by intro m; simp, by decide, by decide⟩

/-- Two instances with a word each, one step of either and then one of the other. -/
def twoHosts : Instances := [hostWord 0x102, { hostWord 0x13 with line := 1 }]
theorem witness_InstancesAreIndependent : (0 : Nat) ≠ 1 ∧
    ((stepInstance 0 twoHosts).bind (stepInstance 1) matches some _) = true ∧
    (stepInstance 0 twoHosts).bind (stepInstance 1) = (stepInstance 1 twoHosts).bind (stepInstance 0) := by decide

theorem witness_InstancesStartAndReset : (1 : Nat) < 2 ∧ twoHosts.wf ∧ (stepInstance 1 twoHosts matches some _) = true ∧
    (1 : Nat) ∈ [1] ∧ (0 : Nat) ∉ [1] := by decide

/-- 60_exceptions.md R213: one of two instances reset, and the other as it was; then both. -/
theorem test_reset_instances :
    (resetInstances [1] [{ State.reset with ld := 5 }, { State.reset with ld := 6, line := 1 }]).map State.ld = [5, 0] ∧
    (resetInstances [0, 1] [{ State.reset with ld := 5 }, { State.reset with ld := 6, line := 1 }]).map State.ld = [0, 0] := by
  decide

theorem witness_SlotAndByteDurations : (∀ i < 124, (script (List.replicate 124 0 ++ [1, 0])).answer i = false) ∧
    (script (List.replicate 124 0 ++ [1, 0])).answer 124 = true ∧ (∀ i < 125, (script (List.replicate 125 0)).answer i = false) := by
  decide

end Sys2Proof.Tests
end

section
/-! SUPPORT. Durations: how long each wire shape lasts, and how much of it line activity adds to the trace
(00_scope.md R8, 70_reset_and_hazards.md R237). -/

namespace Sys2Proof.Machine

theorem duration_lowPolls (k : Nat) : duration (lowPolls k) = 2 * k := by
  induction k with
  | zero => rfl
  | succ k ih =>
    have hcons : duration (lowPolls (k + 1)) = 2 + duration (lowPolls k) := by
      simp [lowPolls, duration, PadEvent.micros]
    omega

@[simp] theorem duration_wslot (v : Bit) : duration (WireItem.wslot v).events = if v then 65 else 70 := by
  cases v <;> rfl

@[simp] theorem duration_rslot (v : Bit) : duration (WireItem.rslot v).events = 66 := rfl

@[simp] theorem duration_release (out : Bit) : duration (WireItem.release out).events = 0 := rfl

@[simp] theorem duration_resetPulse (out : Bit) (zeros : Nat) (v : Bit) :
    duration (WireItem.resetPulse out zeros v).events = 2 * (zeros + 1) + 960 := by
  simp only [WireItem.events, duration_append, duration_lowPolls]
  simp [duration, PadEvent.micros]
  omega

@[simp] theorem duration_resetGiveUp (out : Bit) : duration (WireItem.resetGiveUp out).events = 250 := by
  simp only [WireItem.events, duration_append, duration_lowPolls]
  rfl

/-- The shapes last one after another. -/
theorem duration_wireEvents (l : List WireItem) :
    duration (wireEvents l) = (l.map fun x => duration x.events).sum := by
  induction l with
  | nil => rfl
  | cons x l ih => simp [ih]

/-- Line activity lasts as long as its shapes; the gaps among them are not counted. -/
theorem LineRun.duration {s t : State} {n : Nat} {l : List WireItem} (h : LineRun s t n l) :
    duration t.trace = duration s.trace + duration (wireEvents (noGaps l)) := by
  rw [h.trace, duration_append, ← dropGaps_wireEvents, duration_dropGaps]

/-- Write slots: 70 each, less 5 for each that writes a 1. -/
theorem duration_writeSlots (f : Nat → Bit) (l : List Nat) :
    duration (wireEvents (l.map fun i => .wslot (f i))) + 5 * (l.filter f).length = 70 * l.length := by
  induction l with
  | nil => rfl
  | cons i l ih =>
    simp only [List.map_cons, wireEvents_cons, duration_append, duration_wslot, List.filter_cons, List.length_cons]
    split_ifs
    · rw [List.length_cons]; omega
    · omega

theorem duration_readSlots (f : Nat → Bit) (l : List Nat) :
    duration (wireEvents (l.map fun i => .rslot (f i))) = 66 * l.length := by
  simp [duration_wireEvents, Function.comp_def, Nat.mul_comm]

theorem onesOf_le (d : Byte) : onesOf d ≤ 8 := by
  simpa [onesOf] using List.length_filter_le (fun i => d.getLsbD i) (List.range 8)

/-- A byte lasts as long as its eight slots: the non-power tail takes no time (70_reset_and_hazards.md R237). -/
theorem duration_byteItems (d : Byte) (p : Bit) :
    duration (wireEvents (byteItems d p)) = 65 * onesOf d + 70 * (8 - onesOf d) := by
  have htail : duration (wireEvents (byteItems d p)) = duration (wireEvents (byteSlots d)) := by
    cases p <;> simp [byteItems]
  have hslots : duration (wireEvents (byteSlots d)) + 5 * onesOf d = 70 * 8 :=
    duration_writeSlots (fun i => d.getLsbD i) (List.range 8)
  have hle := onesOf_le d
  omega

theorem opWbyte_duration (d : Byte) (p : Bit) (s : State) :
    duration (opWbyte d p s).trace = duration s.trace + (65 * onesOf d + 70 * (8 - onesOf d)) := by
  obtain ⟨items, hrun, hitems, -, -⟩ := opWbyte_run d p s
  rw [hrun.duration, hitems, duration_byteItems]

theorem opRbyte_duration (s : State) : duration (opRbyte s).2.trace = duration s.trace + 528 := by
  obtain ⟨⟨items, hrun, hitems⟩, -⟩ := opRbyte_run s
  rw [hrun.duration, hitems, duration_readSlots, List.length_range]

theorem opReset_duration_high {s : State} {k : Nat} (hk : k < 125) (hlow : ∀ i < k, s.answer i = false)
    (hhigh : s.answer k = true) : duration (opReset s).2.trace = duration s.trace + (2 * (k + 1) + 960) := by
  rw [opReset_high k s hk hlow hhigh, duration_append, duration_resetPulse]

theorem opReset_duration_low {s : State} (hlow : ∀ i < 125, s.answer i = false) :
    duration (opReset s).2.trace = duration s.trace + 250 := by
  rw [opReset_low s hlow, duration_append, duration_resetGiveUp]

end Sys2Proof.Machine
end

section
open Sys2Proof Sys2Proof.Machine

/-- Settles O28: each command responds right after its line operation, and the response adds nothing to the trace, so what
the trace grows by is the sum of the durations of the shapes the operation shows. -/
theorem slotAndByteDurations : Obligations.SlotAndByteDurations := by
  unfold Obligations.SlotAndByteDurations
  refine ⟨fun s v => ⟨_, rfl, ?wbit⟩, fun s => ⟨_, rfl, ?rbit⟩, fun s k hk hlow hhigh => ⟨_, rfl, ?pulse⟩,
    fun s hlow => ⟨_, rfl, ?giveUp⟩, fun s d p => ⟨_, rfl, ?wbyte⟩, fun s => ⟨_, rfl, ?rbyte⟩⟩
  case wbit => simpa using (opWbit_run v s).duration
  case rbit => simpa using (opRbit_run s).duration
  case pulse => exact opReset_duration_high hk hlow hhigh
  case giveUp => exact opReset_duration_low hlow
  case wbyte => exact opWbyte_duration d p s
  case rbyte => exact opRbyte_duration s

end

section
/-! SUPPORT. What stepping one of several instances leaves alone (00_scope.md R5, 60_exceptions.md R213). -/

namespace Sys2Proof.Machine

theorem stepInstance_other {j k : Nat} {sys sys' : Instances} (h : stepInstance k sys = some sys') (hjk : j ≠ k) :
    sys'[j]? = sys[j]? := by
  obtain ⟨s, t, -, -, rfl⟩ := stepInstance_cases h
  exact List.getElem?_set_ne hjk.symm

end Sys2Proof.Machine
end

section
open Sys2Proof Sys2Proof.Machine

/-- Settles O56: a step puts the next state of the stepped machine in its own place and touches no other place, so the second of
two steps reads the same state before the first as after it, and writes at different places commute. -/
theorem instancesAreIndependent : Obligations.InstancesAreIndependent := by
  unfold Obligations.InstancesAreIndependent
  refine ⟨fun k sys sys' h => ?own, fun j k sys a b hjk hj hk => ?commute⟩
  case own =>
    obtain ⟨s, t, hs, ht, hset⟩ := stepInstance_cases h
    have hlt : k < sys.length := (List.getElem?_eq_some_iff.mp hs).1
    refine ⟨by simp [hset], fun j hj => stepInstance_other h hj, s, t, hs, ht, ?_⟩
    simp [hset, hlt]
  case commute =>
    have hother : a[k]? = sys[k]? := stepInstance_other hj hjk.symm
    obtain ⟨u, v, hu, hv, hb⟩ := stepInstance_cases hk
    have hfirst : stepInstance k sys = some (sys.set k v) := stepInstance_of_next (hother ▸ hu) hv
    obtain ⟨s, t, hs, ht, ha⟩ := stepInstance_cases hj
    have hsecond : stepInstance j (sys.set k v) = some ((sys.set k v).set j t) :=
      stepInstance_of_next ((stepInstance_other hfirst hjk).trans hs) ht
    refine ⟨sys.set k v, hfirst, ?_⟩
    rw [hsecond, hb, ha, List.set_comm _ _ hjk.symm]

end

section
/-! SUPPORT. A command accepted from the channel (00_scope.md R10, R11; 10_state.md R32). -/

namespace Sys2Proof.Machine

theorem step_of_decodes {s : State} {w : Cmd64} {rest : List Cmd64} {i : Instr} (hidle : s.busy = false)
    (hword : s.cmds = w :: rest) (hdec : decodeCmd w = .ok i) : step s = exec i (s.accept rest) := by
  simp [step, hidle, hword, hdec]

@[simp] theorem withFetchWord_busy (s : State) (nbits w : Nat) : (s.withFetchWord nbits w).busy = false := rfl

/-- A whole command word offered by its number stands at the head of the channel. -/
theorem withFetchWord_cmds (s : State) (w : Cmd64) : (s.withFetchWord 64 w.toNat).cmds = w :: s.cmds := by
  simp [State.withFetchWord, Nat.mod_eq_of_lt w.isLt]

/-- The word `withFetchWord` offers is gone again after the acceptance. -/
theorem accept_withFetchWord (s : State) (nbits w : Nat) :
    (s.withFetchWord nbits w).accept s.cmds = { s with busy := true, rsp := none } := rfl

end Sys2Proof.Machine
end

section
open Sys2Proof Sys2Proof.Machine

/-- Settles O9: both clauses are `step_of_decodes`, the second at the state in which `withFetchWord` offers the word. -/
theorem stepRunsTheDecodedCommand : Obligations.StepRunsTheDecodedCommand := by
  unfold Obligations.StepRunsTheDecodedCommand
  refine ⟨fun s w rest i hidle hword hdec => step_of_decodes hidle hword hdec, fun s w i hdec => ?_⟩
  rw [step_of_decodes (withFetchWord_busy s 64 w.toNat) (withFetchWord_cmds s w) hdec, accept_withFetchWord]

end

section
/-! SUPPORT. The part of the boundary invariant that also holds inside a command, between its line operations: one lemma per
kind of change a command makes to the state. -/

namespace Sys2Proof.Machine

/-- What holds of the state while a command runs: `Inv` without its two clauses on the host port, *busy* and the response. -/
structure RunInv (s : State) : Prop where
  bufWf : Memory.wf s.buf
  ldLe : s.ld.toNat ≤ 64
  lfdLe : s.lfd.toNat ≤ 8
  ldfLd : s.ldf = true → s.ld = 0
  traceOk : PadMonitor.start.replay s.trace = some ⟨s.oe, s.out, false, 0⟩

theorem inv_iff_runInv (s : State) :
    Inv s ↔ RunInv s ∧ s.busy = false ∧ ∀ w, s.rsp = some w → rspLegal w = true :=
  ⟨fun ⟨hbuf, hld, hlfd, hldf, hidle, hrsp, htrace⟩ => ⟨⟨hbuf, hld, hlfd, hldf, htrace⟩, hidle, hrsp⟩,
    fun ⟨⟨hbuf, hld, hlfd, hldf, htrace⟩, hidle, hrsp⟩ => ⟨hbuf, hld, hlfd, hldf, hidle, hrsp, htrace⟩⟩

theorem Inv.runInv {s : State} (h : Inv s) : RunInv s := ((inv_iff_runInv s).mp h).1

namespace RunInv

variable {s : State}

/-- Acceptance changes the host port only (10_state.md R32). -/
theorem accept (h : RunInv s) (rest : List Cmd64) : RunInv (s.accept rest) :=
  ⟨h.bufWf, h.ldLe, h.lfdLe, h.ldfLd, h.traceOk⟩

theorem withBuf (h : RunInv s) {b : Memory} (hb : Memory.wf b) : RunInv { s with buf := b } :=
  ⟨hb, h.ldLe, h.lfdLe, h.ldfLd, h.traceOk⟩

theorem withSearch (h : RunInv s) (rom : Vector Byte 8) {ld : BitVec 7} {lfd : BitVec 4} {ldf : Bit}
    (hld : ld.toNat ≤ 64) (hlfd : lfd.toNat ≤ 8) (hldf : ldf = true → ld = 0) :
    RunInv { s with rom := rom, ld := ld, lfd := lfd, ldf := ldf } :=
  ⟨h.bufWf, hld, hlfd, hldf, h.traceOk⟩

/-- Line activity extends the trace by whole shapes and touches neither BUF nor the search state. -/
theorem lineRun (h : RunInv s) {t : State} {n : Nat} {l : List WireItem} (hrun : LineRun s t n l) : RunInv t where
  bufWf := by rw [hrun.eq]; exact h.bufWf
  ldLe := by rw [hrun.eq]; exact h.ldLe
  lfdLe := by rw [hrun.eq]; exact h.lfdLe
  ldfLd := by rw [hrun.eq]; exact h.ldfLd
  traceOk := hrun.traceOk h.traceOk

theorem opReset (h : RunInv s) : RunInv (opReset s).2 := by
  rcases opReset_cases s with ⟨_, -, -, -, -, hrun⟩ | ⟨-, -, hrun⟩
  · exact h.lineRun hrun
  · exact h.lineRun hrun

theorem opWbyte (h : RunInv s) (d : Byte) (p : Bit) : RunInv (opWbyte d p s) := by
  obtain ⟨_, hrun, -⟩ := opWbyte_run d p s
  exact h.lineRun hrun

theorem opRbyte (h : RunInv s) : RunInv (opRbyte s).2 := by
  obtain ⟨⟨_, hrun, -⟩, -⟩ := opRbyte_run s
  exact h.lineRun hrun

theorem writeBytes (h : RunInv s) (l : List Byte) (p : Bit) : RunInv (writeBytes l p s) := by
  obtain ⟨_, hrun, -⟩ := writeBytes_run l p s
  exact h.lineRun hrun

theorem readBytes (h : RunInv s) {k a : Nat} (i : Nat) (hrange : a + k ≤ Config.params.bufBytes) :
    RunInv (readBytes k i a s) := by
  obtain ⟨⟨_, hrun, -⟩, -, -, hwf⟩ := readBytes_run k i a s
  exact (h.withBuf (hwf h.bufWf hrange)).lineRun hrun

theorem memWrite (h : RunInv s) {a : Nat} {vs : List Byte} (hrange : a + vs.length ≤ Config.params.bufBytes) :
    RunInv (s.memWrite a vs) := by
  rw [memWrite_spec]
  exact h.withBuf (memWrite_wf s a vs h.bufWf hrange)

theorem searchClear (h : RunInv s) : RunInv s.searchClear :=
  h.withSearch _ (by decide) (by decide) (by decide)

theorem searchPrime (h : RunInv s) (d : Byte) : RunInv (s.searchPrime d) :=
  h.withSearch _ (by decide) (by decide) (by decide)

theorem searchRun (h : RunInv s) (m : Bit) : RunInv (searchRun m s).2 := by
  obtain ⟨_, _, hrun, hld, hlfd, hldf, -⟩ := searchRun_spec m s h.lfdLe
  exact (h.withSearch _ hld hlfd hldf).lineRun hrun

/-- A legal response ends the command at a boundary (10_state.md R32). -/
theorem respond (h : RunInv s) {st : Status} {r : Bit} {v : Half} (hlegal : st = .ok ∨ (r = false ∧ v = 0)) :
    Inv (s.respond st r v) := by
  refine (inv_iff_runInv _).mpr ⟨⟨h.bufWf, h.ldLe, h.lfdLe, h.ldfLd, h.traceOk⟩, rfl, fun w hw => ?_⟩
  rw [← Option.some.inj hw]
  exact rspLegal_packRsp st r v hlegal

theorem respondOk (h : RunInv s) (r : Bit) (v : Half) : Inv (s.respond .ok r v) := h.respond (.inl rfl)

theorem refuse (h : RunInv s) (st : Status) : Inv (s.refuse st) := h.respond (.inr ⟨rfl, rfl⟩)

/-- A command with a BUF range either runs inside it or is refused (20_memory.md R44). -/
theorem ofRange (h : RunInv s) {a : Byte} {n : Nat} {t : State} (ht : a.toNat + n ≤ Config.params.bufBytes → Inv t) :
    Inv (if rangeOk a n then t else s.refuse .errRange) := by
  split_ifs with hrange
  · exact ht ((rangeOk_iff a n).mp hrange)
  · exact h.refuse .errRange

end RunInv

/-- A host command takes a state inside a command to a command boundary. The four wire rows give no response, so they do not
(30_encoding.md R77). -/
theorem exec_meets_inv {i : Instr} {s : State} (h : RunInv s) (hhost : i.wireByte = none) :
    ∃ t, exec i s = .next t ∧ Inv t := by
  cases i with
  | reset => exact ⟨_, rfl, h.opReset.respondOk _ _⟩
  | wbit v => exact ⟨_, rfl, (h.lineRun (opWbit_run v s)).respondOk _ _⟩
  | rbit => exact ⟨_, rfl, (h.lineRun (opRbit_run s)).respondOk _ _⟩
  | wbyte d p => exact ⟨_, rfl, (h.opWbyte d p).respondOk _ _⟩
  | rbyte => exact ⟨_, rfl, h.opRbyte.respondOk _ _⟩
  | wbytes a n p => exact ⟨_, rfl, h.ofRange fun _ => (h.writeBytes _ p).respondOk _ _⟩
  | rbytes a n => exact ⟨_, rfl, h.ofRange fun hrange => (h.readBytes 0 hrange).respondOk _ _⟩
  | select a => exact ⟨_, rfl, h.ofRange fun _ => ((h.opWbyte _ false).writeBytes _ false).respondOk _ _⟩
  | skip => exact ⟨_, rfl, (h.opWbyte _ false).respondOk _ _⟩
  | depower => exact ⟨_, rfl, (h.lineRun (release_run s s.out)).respondOk _ _⟩
  | search m => exact ⟨_, rfl, (h.searchRun m).respondOk _ _⟩
  | rstsrch => exact ⟨_, rfl, h.searchClear.respondOk _ _⟩
  | tgtsrch d => exact ⟨_, rfl, (h.searchPrime d).respondOk _ _⟩
  | rdss => exact ⟨_, rfl, h.respondOk _ _⟩
  | rom2buf a => exact ⟨_, rfl, h.ofRange fun hrange => (h.memWrite (by simpa using hrange)).respondOk _ _⟩
  | crc8 a n => exact ⟨_, rfl, h.ofRange fun _ => h.respondOk _ _⟩
  | crc16 a n seed => exact ⟨_, rfl, h.ofRange fun _ => h.respondOk _ _⟩
  | chkcrc16 a n c seed => exact ⟨_, rfl, h.ofRange fun _ => h.ofRange fun _ => h.respondOk _ _⟩
  | bufwr a d => exact ⟨_, rfl, (h.withBuf (Memory.wf_set h.bufWf a.isLt)).respondOk _ _⟩
  | bufrd a => exact ⟨_, rfl, h.respondOk _ _⟩
  | wireMatchRom | wireSkipRom | wireSearch | wireCondSearch => cases hhost

/-- What the decoder accepts is a host command (30_encoding.md R77). -/
theorem wireByte_of_decodeCmd {w : Cmd64} {i : Instr} (h : decodeCmd w = .ok i) : i.wireByte = none := by
  obtain ⟨herr, -⟩ | ⟨_, herr, -⟩ | ⟨o, hok, -⟩ := decodeCmd_cases w
  · cases herr.symm.trans h
  · cases herr.symm.trans h
  · obtain rfl := Except.ok.inj (hok.symm.trans h)
    exact Op.instr_wireByte o w

end Sys2Proof.Machine
end

section
open Sys2Proof Sys2Proof.Machine

/-- Settles O14: along the three things a step can do (`step_cases`), a wait changes the response only, a refusal answers a
legal response, and a command keeps `RunInv` to its response (`exec_meets_inv`). -/
theorem stepKeepsTheBoundaryInvariant : Obligations.StepKeepsTheBoundaryInvariant := by
  unfold Obligations.StepKeepsTheBoundaryInvariant
  intro s t hinv hstep
  have hrun := hinv.runInv
  obtain ⟨hidle, ⟨-, rfl⟩ | ⟨_, rest, r, -, -, rfl⟩ | ⟨w, rest, i, -, hdec, hexec⟩⟩ := step_cases hstep
  · exact { hinv with rspOk := fun _ hw => nomatch hw }
  · exact (hrun.accept rest).refuse _
  · obtain ⟨u, hnext, hu⟩ := exec_meets_inv (hrun.accept rest) (wireByte_of_decodeCmd hdec)
    exact next_inj (hnext.symm.trans hexec) ▸ hu

end

section
/-! SUPPORT. The zero register file byte by byte (20_memory.md R45). -/

namespace Sys2Proof.Machine

theorem romByte_zero {i : Nat} (hi : i < 8) : romByte (Vector.replicate 8 0) i = 0 := by
  simp [romByte, Vector.getD, hi]

end Sys2Proof.Machine
end

section
open Sys2Proof Sys2Proof.Machine

/-- Settles O1: each field is read off `State.reset`, and a byte of the empty BUF is its free value. -/
theorem resetIsTheReleasedZeroState : Obligations.ResetIsTheReleasedZeroState := by
  unfold Obligations.ResetIsTheReleasedZeroState
  exact ⟨rfl, rfl, fun _ hi => romByte_zero hi, rfl, rfl, rfl, rfl, rfl, rfl, fun _ => rfl⟩

/-- Settles O13, the base of O14: no BUF entry, no response and no pad event is there yet, and the search state is zero. -/
theorem resetMeetsTheBoundaryInvariant : Obligations.ResetMeetsTheBoundaryInvariant := by
  unfold Obligations.ResetMeetsTheBoundaryInvariant
  exact {
    bufWf := reset_buf_wf
    ldLe := Nat.zero_le 64
    lfdLe := Nat.zero_le 8
    ldfLd := fun _ => rfl
    idle := rfl
    rspOk := fun _ hw => nomatch hw
    traceOk := rfl }

end

section
/-! SUPPORT. What every host command does, whatever state it starts in: it works on the line in whole shapes, then gives one
response. One lemma per operation of the model, with no hypothesis on the state. -/

namespace Sys2Proof.Machine

/-- t follows s inside a command: the pad trace has grown by whole legal shapes and the host's further words are untouched. -/
structure WorksOnLine (s t : State) : Prop where
  shapes : ∃ items : List WireItem, (∀ x ∈ items, x.legal = true) ∧ t.trace = s.trace ++ wireEvents items
  cmds : t.cmds = s.cmds

theorem LineRun.cmds {s t : State} {n : Nat} {l : List WireItem} (h : LineRun s t n l) : t.cmds = s.cmds := by
  rw [h.eq]; rfl

theorem LineRun.worksOnLine {s t : State} {n : Nat} {l : List WireItem} (h : LineRun s t n l) : WorksOnLine s t :=
  ⟨⟨l, h.legal, h.trace⟩, h.cmds⟩

namespace WorksOnLine

/-- A change that keeps the trace and the host's words shows nothing. -/
theorem of_quiet {s t : State} (htrace : t.trace = s.trace) (hcmds : t.cmds = s.cmds) : WorksOnLine s t :=
  ⟨⟨[], by simp, by simp [htrace]⟩, hcmds⟩

theorem refl (s : State) : WorksOnLine s s := of_quiet rfl rfl

theorem trans {s t u : State} (hst : WorksOnLine s t) (htu : WorksOnLine t u) : WorksOnLine s u := by
  obtain ⟨⟨k, hk, hkt⟩, hcmds⟩ := hst
  obtain ⟨⟨l, hl, hlt⟩, hcmds'⟩ := htu
  refine ⟨⟨k ++ l, fun x hx => ?_, by simp [hlt, hkt]⟩, hcmds'.trans hcmds⟩
  exact (List.mem_append.mp hx).elim (hk x) (hl x)

/-- Work that starts from s with fields changed that the pad and the host's words do not show. -/
theorem after {s s' t : State} (h : WorksOnLine s' t) (htrace : s'.trace = s.trace) (hcmds : s'.cmds = s.cmds) :
    WorksOnLine s t := (of_quiet htrace hcmds).trans h

theorem opReset (s : State) : WorksOnLine s (opReset s).2 := by
  rcases opReset_cases s with ⟨_, -, -, -, -, hrun⟩ | ⟨-, -, hrun⟩
  · exact hrun.worksOnLine
  · exact hrun.worksOnLine

theorem opWbyte (d : Byte) (p : Bit) (s : State) : WorksOnLine s (opWbyte d p s) := by
  obtain ⟨_, hrun, -⟩ := opWbyte_run d p s
  exact hrun.worksOnLine

theorem opRbyte (s : State) : WorksOnLine s (opRbyte s).2 := by
  obtain ⟨⟨_, hrun, -⟩, -⟩ := opRbyte_run s
  exact hrun.worksOnLine

theorem writeBytes (l : List Byte) (p : Bit) (s : State) : WorksOnLine s (writeBytes l p s) := by
  obtain ⟨_, hrun, -⟩ := writeBytes_run l p s
  exact hrun.worksOnLine

/-- The line activity of a read range starts from s with its BUF replaced, which is no event of the line. -/
theorem readBytes (k i a : Nat) (s : State) : WorksOnLine s (readBytes k i a s) := by
  obtain ⟨⟨_, hrun, -⟩, -⟩ := readBytes_run k i a s
  exact hrun.worksOnLine.after rfl rfl

theorem setBufByte (s : State) (a : Nat) (v : Byte) : WorksOnLine s (s.setBufByte a v) := of_quiet rfl rfl

theorem memWrite (s : State) (a : Nat) (vs : List Byte) : WorksOnLine s (s.memWrite a vs) := by
  rw [memWrite_spec]
  exact of_quiet rfl rfl

/-- The traversal, position by position: two read slots where no device answers, a triplet where one does. -/
theorem searchLoop (k p lz : Nat) (s : State) : WorksOnLine s (searchLoop k p lz s).st := by
  induction k generalizing p lz s with
  | zero => exact refl s
  | succ k ih =>
    by_cases hsilent : s.answer 0 = true ∧ s.answer 1 = true
    · obtain ⟨t, _, hloop, hrun, -⟩ := searchLoop_silent k p lz s hsilent
      rw [hloop]
      exact hrun.worksOnLine
    · obtain ⟨t, _, hloop, hrun, -⟩ := searchLoop_resolved k p lz s hsilent
      have hposition : WorksOnLine s t := hrun.worksOnLine.after rfl rfl
      rw [hloop]
      exact hposition.trans (ih _ _ t)

theorem searchClear (s : State) : WorksOnLine s s.searchClear := of_quiet rfl rfl

theorem searchPrime (s : State) (d : Byte) : WorksOnLine s (s.searchPrime d) := of_quiet rfl rfl

/-- The last steps of a traversal write the search state only (41_rom_search.md R141, R142). -/
theorem searchFinish (w : Walk) : WorksOnLine w.st (searchFinish w).2 := by
  have hcommit : WorksOnLine w.st (if w.ok then searchCommit w.lz w.st else w.st) := by
    split_ifs
    · exact of_quiet rfl rfl
    · exact refl _
  unfold Machine.searchFinish
  generalize (if w.ok then searchCommit w.lz w.st else w.st) = u at hcommit
  dsimp only
  split_ifs
  · exact hcommit.trans (searchClear u)
  · exact hcommit

/-- The three ways through a SEARCH (41_rom_search.md R143): no device left to find, no presence, or a traversal. -/
theorem searchRun (m : Bit) (s : State) : WorksOnLine s (searchRun m s).2 := by
  unfold Machine.searchRun
  generalize (if m then Config.params.cmdCondSearch else Config.params.cmdSearch) = byte
  dsimp only
  split_ifs
  · exact searchClear s
  · have hbyte := ((opReset s).trans (gap_run _).worksOnLine).trans (opWbyte byte false _)
    exact (hbyte.trans (searchLoop _ 1 0 _)).trans (searchFinish _)
  · exact (opReset s).trans (searchClear _)

end WorksOnLine

/-- A command begun in s ends in t: work on the line, then one response, a refusal's with R = 0 and V = 0
(30_encoding.md R63, R64). -/
def AnswersCommand (s t : State) : Prop :=
  ∃ (u : State) (st : Status) (r : Bit) (v : Half),
    WorksOnLine s u ∧ (st = .ok ∨ (r = false ∧ v = 0)) ∧ t = u.respond st r v

theorem WorksOnLine.respondOk {s u : State} (h : WorksOnLine s u) (r : Bit) (v : Half) :
    AnswersCommand s (u.respond .ok r v) := ⟨u, .ok, r, v, h, .inl rfl, rfl⟩

namespace AnswersCommand

theorem refuse (s : State) (st : Status) : AnswersCommand s (s.refuse st) :=
  ⟨s, st, false, 0, .refl s, .inr ⟨rfl, rfl⟩, rfl⟩

/-- A command with a BUF range either runs or is refused (20_memory.md R44). -/
theorem ofRange {s t : State} (c : Bool) (h : AnswersCommand s t) :
    AnswersCommand s (if c then t else s.refuse .errRange) := by
  split_ifs
  · exact h
  · exact refuse s .errRange

theorem shapes {s t : State} (h : AnswersCommand s t) :
    ∃ items : List WireItem, (∀ x ∈ items, x.legal = true) ∧ t.trace = s.trace ++ wireEvents items := by
  obtain ⟨u, st, r, v, hwork, -, rfl⟩ := h
  exact hwork.shapes

/-- The response is a legal one, and the port is ready for the host's next word (10_state.md R32). -/
theorem response {s t : State} (h : AnswersCommand s t) :
    ∃ w, t.rsp = some w ∧ rspLegal w = true ∧ t.cmds = s.cmds ∧ t.busy = false := by
  obtain ⟨u, st, r, v, hwork, hlegal, rfl⟩ := h
  exact ⟨_, rfl, rspLegal_packRsp st r v hlegal, hwork.cmds, rfl⟩

end AnswersCommand

/-- Every host command answers, from every state. The four wire rows give no response (30_encoding.md R77). -/
theorem exec_answersCommand {i : Instr} (s : State) (hhost : i.wireByte = none) :
    ∃ t, exec i s = .next t ∧ AnswersCommand s t := by
  have hquiet := WorksOnLine.refl s
  cases i with
  | reset => exact ⟨_, rfl, (WorksOnLine.opReset s).respondOk _ _⟩
  | wbit v => exact ⟨_, rfl, (opWbit_run v s).worksOnLine.respondOk _ _⟩
  | rbit => exact ⟨_, rfl, (opRbit_run s).worksOnLine.respondOk _ _⟩
  | wbyte d p => exact ⟨_, rfl, (WorksOnLine.opWbyte d p s).respondOk _ _⟩
  | rbyte => exact ⟨_, rfl, (WorksOnLine.opRbyte s).respondOk _ _⟩
  | wbytes a n p => exact ⟨_, rfl, .ofRange _ ((WorksOnLine.writeBytes _ p s).respondOk _ _)⟩
  | rbytes a n => exact ⟨_, rfl, .ofRange _ ((WorksOnLine.readBytes _ 0 _ s).respondOk _ _)⟩
  | select a =>
    exact ⟨_, rfl, .ofRange _ (((WorksOnLine.opWbyte _ false s).trans (WorksOnLine.writeBytes _ false _)).respondOk _ _)⟩
  | skip => exact ⟨_, rfl, (WorksOnLine.opWbyte _ false s).respondOk _ _⟩
  | depower => exact ⟨_, rfl, (release_run s s.out).worksOnLine.respondOk _ _⟩
  | search m => exact ⟨_, rfl, (WorksOnLine.searchRun m s).respondOk _ _⟩
  | rstsrch => exact ⟨_, rfl, (WorksOnLine.searchClear s).respondOk _ _⟩
  | tgtsrch d => exact ⟨_, rfl, (WorksOnLine.searchPrime s d).respondOk _ _⟩
  | rdss => exact ⟨_, rfl, hquiet.respondOk _ _⟩
  | rom2buf a => exact ⟨_, rfl, .ofRange _ ((WorksOnLine.memWrite s _ _).respondOk _ _)⟩
  | crc8 a n => exact ⟨_, rfl, .ofRange _ (hquiet.respondOk _ _)⟩
  | crc16 a n seed => exact ⟨_, rfl, .ofRange _ (hquiet.respondOk _ _)⟩
  | chkcrc16 a n c seed => exact ⟨_, rfl, .ofRange _ (.ofRange _ (hquiet.respondOk _ _))⟩
  | bufwr a d => exact ⟨_, rfl, (WorksOnLine.setBufByte s _ d).respondOk _ _⟩
  | bufrd a => exact ⟨_, rfl, hquiet.respondOk _ _⟩
  | wireMatchRom | wireSkipRom | wireSearch | wireCondSearch => cases hhost

/-- The step at a command boundary with a word offered: it answers, whether the word decodes or not. -/
theorem step_answersCommand {s : State} {w : Cmd64} {rest : List Cmd64} (hidle : s.busy = false)
    (hword : s.cmds = w :: rest) : ∃ t, step s = .next t ∧ AnswersCommand (s.accept rest) t := by
  cases hdec : decodeCmd w with
  | error r => exact ⟨_, by simp [step, hidle, hword, hdec], .refuse (s.accept rest) (rejectStatus r)⟩
  | ok i =>
    rw [step_of_decodes hidle hword hdec]
    exact exec_answersCommand (s.accept rest) (wireByte_of_decodeCmd hdec)

end Sys2Proof.Machine
end

section
open Sys2Proof Sys2Proof.Machine

/-- Settles O15: a step without a word only ends the last response; a step with one answers a command, whose work on the line
is whole shapes (`WorksOnLine`), and acceptance and response leave the trace alone. -/
theorem stepShowsOnlyWholeWireShapes : Obligations.StepShowsOnlyWholeWireShapes := by
  unfold Obligations.StepShowsOnlyWholeWireShapes
  intro s t hstep
  obtain ⟨hidle, -⟩ := step_cases hstep
  cases hword : s.cmds with
  | nil =>
    have hwait : step s = .next { s with rsp := none } := by simp [step, hidle, hword]
    obtain rfl := next_inj (hwait.symm.trans hstep)
    exact (WorksOnLine.of_quiet rfl rfl).shapes
  | cons w rest =>
    obtain ⟨u, hnext, hanswers⟩ := step_answersCommand hidle hword
    obtain rfl := next_inj (hnext.symm.trans hstep)
    exact hanswers.shapes

/-- Settles O12: the one response is the one `AnswersCommand` ends with, a refusal's or a command's. -/
theorem everyCommandWordDrawsOneResponse : Obligations.EveryCommandWordDrawsOneResponse := by
  unfold Obligations.EveryCommandWordDrawsOneResponse
  intro s w rest hidle hword
  obtain ⟨t, hstep, hanswers⟩ := step_answersCommand hidle hword
  obtain ⟨r, hrsp, hlegal, hcmds, hbusy⟩ := hanswers.response
  exact ⟨t, r, hstep, hrsp, hlegal, hcmds, hbusy⟩

end

section
/-! SUPPORT. The opcode table read backwards: the row of an instruction, and the codes as numbers (30_encoding.md R62, R69). -/

namespace Sys2Proof

/-- The row of R62 an instruction stands in; none for a wire row. -/
def Instr.row : Instr → Option Op
  | .reset => some .reset
  | .wbit _ => some .wbit
  | .rbit => some .rbit
  | .wbyte _ _ => some .wbyte
  | .rbyte => some .rbyte
  | .wbytes _ _ _ => some .wbytes
  | .rbytes _ _ => some .rbytes
  | .select _ => some .select
  | .skip => some .skip
  | .depower => some .depower
  | .search _ => some .search
  | .rstsrch => some .rstsrch
  | .tgtsrch _ => some .tgtsrch
  | .rdss => some .rdss
  | .rom2buf _ => some .rom2buf
  | .crc8 _ _ => some .crc8
  | .crc16 _ _ _ => some .crc16
  | .chkcrc16 _ _ _ _ => some .chkcrc16
  | .bufwr _ _ => some .bufwr
  | .bufrd _ => some .bufrd
  | .wireMatchRom | .wireSkipRom | .wireSearch | .wireCondSearch => none

@[simp] theorem Op.row_instr (o : Op) (w : Cmd64) : (o.instr w).row = some o := by cases o <;> rfl

theorem Op.instr_injective {o o' : Op} {w : Cmd64} (h : o.instr w = o'.instr w) : o = o' := by
  simpa using congrArg Instr.row h

theorem match_of_decodeCmd {w : Cmd64} {o : Op} (h : decodeCmd w = .ok (o.instr w)) : w &&& o.mask = o.pattern := by
  obtain ⟨herr, -⟩ | ⟨_, herr, -⟩ | ⟨o', hok, hmatch⟩ := decodeCmd_cases w
  · cases herr.symm.trans h
  · cases herr.symm.trans h
  · obtain rfl := Op.instr_injective (Except.ok.inj (hok.symm.trans h))
    exact hmatch

theorem decodeCmd_of_mismatch {w : Cmd64} {o : Op} (hop : fieldOP w = o.code) (hne : w &&& o.mask ≠ o.pattern) :
    decodeCmd w = .error .field := by
  simp [decodeCmd, hop, Op.ofCode_code, hne]

/-- A word matches one row only, since a match fixes `OP` and no two rows share it. -/
theorem Op.match_unique {w : Cmd64} {o o' : Op} (h : w &&& o.mask = o.pattern) (h' : w &&& o'.mask = o'.pattern) :
    o = o' :=
  Op.code_injective ((Op.code_of_match h).symm.trans (Op.code_of_match h'))

theorem decodeCmd_eq_opcode_iff (w : Cmd64) : decodeCmd w = .error .opcode ↔ ∀ o : Op, fieldOP w ≠ o.code := by
  obtain ⟨herr, hnone⟩ | ⟨o, herr, hop, -⟩ | ⟨o, hok, hmatch⟩ := decodeCmd_cases w
  · exact ⟨fun _ => hnone, fun _ => herr⟩
  · exact ⟨fun h => (nomatch herr.symm.trans h), fun hall => absurd hop (hall o)⟩
  · exact ⟨fun h => (nomatch hok.symm.trans h), fun hall => absurd (Op.code_of_match hmatch) (hall o)⟩

/-- The listed illegal values are the gaps between the codes of the table (30_encoding.md R69). -/
theorem Machine.illegalOpcode_eq_false_iff (n : Nat) :
    illegalOpcode n = false ↔ n ∈ Op.all.map fun o => o.code.toNat := by
  have hcodes : (Op.all.map fun o => o.code.toNat) =
      [1, 2, 3, 4, 5, 6, 7, 8, 9, 10, 16, 17, 18, 19, 20, 32, 33, 34, 48, 49] := rfl
  simp only [hcodes, illegalOpcode, decide_eq_false_iff_not, List.mem_cons, List.not_mem_nil, or_false]
  omega

theorem Machine.illegalOpcode_iff (b : Byte) : illegalOpcode b.toNat = true ↔ ∀ o : Op, b ≠ o.code := by
  have hlegal : illegalOpcode b.toNat = false ↔ ∃ o : Op, b = o.code := by
    rw [illegalOpcode_eq_false_iff, List.mem_map]
    exact ⟨fun ⟨o, _, ho⟩ => ⟨o, (BitVec.eq_of_toNat_eq ho).symm⟩, fun ⟨o, ho⟩ => ⟨o, Op.mem_all o, ho ▸ rfl⟩⟩
  rw [← not_exists, ← hlegal, Bool.not_eq_false]

end Sys2Proof
end

section
open Sys2Proof Sys2Proof.Machine

/-- Settles O5: a decoded instruction names its row (`Instr.row`), so decoding to a row's instruction is matching that row;
every mask covers `OP`, whose codes tell the rows apart. -/
theorem aWordSpellsARowExactlyWhenItsMaskedBitsMatch :
    Obligations.AWordSpellsARowExactlyWhenItsMaskedBitsMatch := by
  unfold Obligations.AWordSpellsARowExactlyWhenItsMaskedBitsMatch
  exact ⟨fun _ _ => ⟨decodeCmd_of_match, match_of_decodeCmd⟩,
    fun _ _ hop hne => ⟨decodeCmd_of_mismatch hop hne, rfl⟩, fun _ _ _ => Op.match_unique⟩

/-- Settles O6: a word is rejected for its opcode exactly when its `OP` is no row's code, and the listed values are exactly
the bytes that are no row's code. -/
theorem opcodeIsRejectedExactlyOnTheIllegalValues : Obligations.OpcodeIsRejectedExactlyOnTheIllegalValues := by
  unfold Obligations.OpcodeIsRejectedExactlyOnTheIllegalValues
  exact fun w => (decodeCmd_eq_opcode_iff w).trans (illegalOpcode_iff (fieldOP w)).symm

/-- Settles O7: the ten command words and the three response words of R72, each evaluated. -/
theorem workedWordsDecode : Obligations.WorkedWordsDecode := by
  unfold Obligations.WorkedWordsDecode
  refine ⟨?_, ?_, ?_, ?_, ?_, ?_, ?_, ?_, ?_, ?_, ?_, ?_, ?_⟩ <;> decide

/-- Settles O8: what the decoder accepts is the instruction of a row of R62, and no such row has a wire byte. -/
theorem noHostWordIsAWireCommandByte : Obligations.NoHostWordIsAWireCommandByte := by
  unfold Obligations.NoHostWordIsAWireCommandByte
  exact fun _ _ => wireByte_of_decodeCmd

end

section
/-! SUPPORT. A byte sent with hold-power 0, as the pad shows it (40_bus_line_driver.md R107, R108). -/

namespace Sys2Proof.Machine

/-- The eight slots of the byte and the tail are shown, the line is released, and nothing else changes. -/
theorem opWbyte_released (d : Byte) (s : State) :
    opWbyte d false s = { s with
      oe := false, out := false, trace := (opWbyte d false s).trace, gapDraws := (opWbyte d false s).gapDraws } ∧
    s.trace <+: (opWbyte d false s).trace ∧
    (opWbyte d false s).padTrace = s.padTrace ++ wireEvents (byteSlots d ++ [.release false]) := by
  obtain ⟨items, hrun, hitems, hoe, hout⟩ := opWbyte_run d false s
  refine ⟨?_, hrun.trace_grows, by rw [hrun.padTrace, hitems]; rfl⟩
  have heq := hrun.eq
  rwa [consume_zero, hoe, hout, ← hrun.trace] at heq

end Sys2Proof.Machine
end

section
open Sys2Proof Sys2Proof.Machine

/-- Settles O27: each wire row sends its byte with hold-power 0, and the listed bits are that byte's, bit 0 first. -/
theorem wireCommandBytesShowTheirSlots : Obligations.WireCommandBytesShowTheirSlots := by
  unfold Obligations.WireCommandBytesShowTheirSlots
  intro s x hx
  simp only [List.mem_cons, List.not_mem_nil, or_false] at hx
  obtain rfl | rfl | rfl | rfl := hx
  · exact ⟨_, rfl, opWbyte_released 0x55 s⟩
  · exact ⟨_, rfl, opWbyte_released 0xCC s⟩
  · exact ⟨_, rfl, opWbyte_released 0xF0 s⟩
  · exact ⟨_, rfl, opWbyte_released 0xEC s⟩

end

section
/-! SUPPORT. How a command is spelled, once for all commands (30_encoding.md R61, R62). -/

namespace Sys2Proof.Machine

/-- A word that fits its row of the table, names that row by its `OP` and spells the command there is the command's word. -/
theorem commandWord_of_fits {i : Instr} {w : Cmd64} {o : Op} (hfits : Laws.EncodeFits.Statement i)
    (hword : encode i = .cmd64 w) (hop : fieldOP w = o.code) (hinstr : o.instr w = i) : CommandWord i w o := by
  simp only [Laws.EncodeFits.Statement, hword] at hfits
  obtain ⟨o', hmatch, -⟩ := hfits
  obtain rfl : o' = o := Op.code_injective ((Op.code_of_match hmatch).symm.trans hop)
  exact ⟨hword, hop, hinstr ▸ decodeCmd_of_match hmatch, fun _ => decodeCmd_of_mismatch⟩

end Sys2Proof.Machine
end

section
/-! SUPPORT. The bus line driver commands: line activity, then one response (40_bus_line_driver.md section 2). -/

namespace Sys2Proof.Machine

/-- The response to a command that reports nothing (30_encoding.md R63). -/
@[simp] theorem packRsp_ok_zero : packRsp .ok false 0#16 = 0#32 := rfl

theorem packRsp_ok_bit (r : Bit) : packRsp .ok r 0 = if r then 0x00000100 else 0x00000000 := by
  cases r <;> rfl

/-- The state after line activity and a response: the answers used up, the driver, the trace and the port, nothing else. -/
theorem LineRun.respond {s t : State} {n : Nat} {l : List WireItem} {oe out : Bit} (h : LineRun s t n l)
    (hoe : t.oe = oe) (hout : t.out = out) (st : Status) (r : Bit) (v : Half) :
    t.respond st r v = { s.consume n with
      oe := oe, out := out, trace := (t.respond st r v).trace, gapDraws := (t.respond st r v).gapDraws,
      rsp := some (packRsp st r v), busy := false } := by
  have heq := h.eq
  rw [hoe, hout, ← h.trace] at heq
  exact congrArg (·.respond st r v) heq

/-- The pad trace after them: the response shows nothing on the wire. -/
theorem LineRun.respond_padTrace {s t : State} {n : Nat} {l items : List WireItem} (h : LineRun s t n l)
    (hitems : noGaps l = items) (st : Status) (r : Bit) (v : Half) :
    (t.respond st r v).padTrace = s.padTrace ++ wireEvents items :=
  hitems ▸ h.padTrace

/-- The answers `op_reset` finds where the line reads high after k low polls, read off the list. -/
theorem upcoming_poll {s : State} {k : Nat} {v : Bit}
    (h : s.upcoming (k + 2) = List.replicate k false ++ [true, v]) :
    (∀ i < k, s.answer i = false) ∧ s.answer k = true ∧ s.answer (k + 1) = v := by
  have hget (i : Nat) (hi : i < k + 2) : some (s.answer i) = (List.replicate k false ++ [true, v])[i]? := by
    rw [← h]; simp [State.upcoming, hi]
  refine ⟨fun i hi => ?_, ?_, ?_⟩
  · simpa [List.getElem?_append, hi] using hget i (by omega)
  · simpa [List.getElem?_append] using hget k (by omega)
  · simpa [List.getElem?_append] using hget (k + 1) (by omega)

theorem answer_of_upcoming_low {s : State} {n : Nat} (h : s.upcoming n = List.replicate n false) :
    ∀ i < n, s.answer i = false := by
  intro i hi
  have hmem : s.answer i ∈ s.upcoming n := List.mem_map_of_mem (List.mem_range.mpr hi)
  exact List.eq_of_mem_replicate (h ▸ hmem)

/-- The two ways of a command with a BUF range (20_memory.md R44): a range that leaves BUF is refused. -/
theorem ofRange_refused {a : Byte} {n : Nat} (h : a.toNat + n > 256) (s t : State) :
    (.next (if rangeOk a n then t else s.refuse .errRange) : Host.Outcome State Fault Refusal) = rangeRefusal s := by
  simp only [rangeOk_of_gt h, Bool.false_eq_true, if_false]; rfl

/-- A range inside BUF runs. -/
theorem ofRange_runs {a : Byte} {n : Nat} (h : a.toNat + n ≤ 256) (s t : State) :
    (.next (if rangeOk a n then t else s.refuse .errRange) : Host.Outcome State Fault Refusal) = .next t := by
  rw [rangeOk_of_le h, if_pos rfl]

theorem memRead_eq_bytesAt (s : State) (a n : Nat) : s.memRead a n = s.bytesAt a n := memRead_eq_map s a n

theorem bytesAt_eq_nil_iff (s : State) (a : Nat) (n : Byte) : s.bytesAt a n.toNat = [] ↔ n = 0 := by
  simp [State.bytesAt, ← BitVec.toNat_inj]

/-- Bytes read in leave the line released (40_bus_line_driver.md R113). -/
theorem readBytes_driver (k i a : Nat) (s : State) :
    (readBytes k i a s).oe = (if k = 0 then s.oe else false) ∧
    (readBytes k i a s).out = (if k = 0 then s.out else false) := by
  induction k generalizing i a s with
  | zero => exact ⟨rfl, rfl⟩
  | succ k ih =>
    obtain ⟨hoe, hout⟩ := ih (i + 1) (a + 1)
      ((opRbyte (if i = 0 then s else s.gap)).2.setBufByte a (opRbyte (if i = 0 then s else s.gap)).1)
    obtain ⟨hoe', hout'⟩ := opRbyte_driver (if i = 0 then s else s.gap)
    simp [readBytes, hoe, hout, hoe', hout']

end Sys2Proof.Machine
end

section
open Sys2Proof Sys2Proof.Machine

/-- Settles O17: `op_reset` on the listed answers, on each of its two paths, and the response it gives. -/
theorem resetPollsThenPulsesOrGivesUp : Obligations.ResetPollsThenPulsesOrGivesUp := by
  unfold Obligations.ResetPollsThenPulsesOrGivesUp
  refine ⟨commandWord_of_fits Laws.EncodeFits.reset rfl rfl rfl, fun s k v hk hanswers => ?pulse, fun s hlow => ?giveUp⟩
  case pulse =>
    obtain ⟨hlow, hhigh, rfl⟩ := upcoming_poll hanswers
    refine ⟨?_, duration_resetPulse ..⟩
    simp only [exec, execReset, opReset_high k s hk hlow hhigh]
    rfl
  case giveUp =>
    refine ⟨?_, duration_resetGiveUp s.out⟩
    simp only [exec, execReset, opReset_low s (answer_of_upcoming_low hlow)]
    rfl

/-- Settles O18: the slot is `op_wbit`'s, and the command gives the response with nothing in it. -/
theorem wbitShowsOneWriteSlotAndDrivesHigh : Obligations.WbitShowsOneWriteSlotAndDrivesHigh := by
  unfold Obligations.WbitShowsOneWriteSlotAndDrivesHigh
  intro s v
  refine ⟨commandWord_of_fits (Laws.EncodeFits.wbit v) rfl (fieldOP_layCmd ..) (by simp [Op.instr]), ?_⟩
  simp only [exec, execWbit, opWbit_eq]
  rfl

/-- Settles O19: the slot is `op_rbit`'s, and the bit sampled is the response's R. -/
theorem rbitReportsTheLevelSampled : Obligations.RbitReportsTheLevelSampled := by
  unfold Obligations.RbitReportsTheLevelSampled
  intro s
  refine ⟨commandWord_of_fits Laws.EncodeFits.rbit rfl rfl rfl, ?_⟩
  simp only [exec, execRbit, opRbit_eq, ← packRsp_ok_bit]
  rfl

/-- Settles O20: what `op_wbyte` shows and how long it lasts; the response adds nothing to the trace. -/
theorem wbyteSendsBitZeroFirstThenItsTail : Obligations.WbyteSendsBitZeroFirstThenItsTail := by
  unfold Obligations.WbyteSendsBitZeroFirstThenItsTail
  intro s d p
  refine ⟨commandWord_of_fits (Laws.EncodeFits.wbyte d p) rfl (fieldOP_layCmd ..) (by simp [Op.instr]), _, rfl, ?_⟩
  obtain ⟨items, hrun, hitems, hoe, hout⟩ := opWbyte_run d p s
  refine ⟨?state, hrun.trace_grows, hrun.respond_padTrace hitems .., ?time⟩
  case state => simpa using hrun.respond hoe hout .ok false 0
  case time => exact (opWbyte_duration d p s).trans (Nat.add_assoc ..).symm

/-- Settles O21: the eight answers are the bits of `op_rbyte`'s byte, which the response carries in V. -/
theorem rbyteAssemblesBitZeroFirst : Obligations.RbyteAssemblesBitZeroFirst := by
  unfold Obligations.RbyteAssemblesBitZeroFirst
  intro s
  obtain ⟨⟨items, hrun, hitems⟩, hbits⟩ := opRbyte_run s
  obtain ⟨hoe, hout⟩ := opRbyte_driver s
  refine ⟨commandWord_of_fits Laws.EncodeFits.rbyte rfl rfl rfl,
    (opRbyte s).2.respond .ok false (valueOfByte (opRbyte s).1), (opRbyte s).1, rfl, hbits, hrun.respond hoe hout ..,
    hrun.trace_grows, hrun.respond_padTrace hitems .., opRbyte_duration s⟩

/-- Settles O22: inside BUF the command is `writeBytes` on the bytes of the range, an empty list exactly where n = 0. -/
theorem wbytesSendsTheRangeInOrder : Obligations.WbytesSendsTheRangeInOrder := by
  unfold Obligations.WbytesSendsTheRangeInOrder
  intro s a n p
  refine ⟨commandWord_of_fits (Laws.EncodeFits.wbytes a n p) rfl (fieldOP_layCmd ..) (by simp [Op.instr]),
    fun hout => ofRange_refused hout s _, fun hin => ⟨_, ofRange_runs hin s _, ?_⟩⟩
  rw [memRead_eq_bytesAt]
  obtain ⟨items, hrun, hitems, hoe, hout⟩ := writeBytes_run (s.bytesAt a.toNat n.toNat) p s
  simp only [bytesAt_eq_nil_iff] at hoe hout
  refine ⟨?state, hrun.trace_grows, hrun.respond_padTrace hitems .., ?empty⟩
  case state => simpa using hrun.respond hoe hout .ok false 0
  case empty => rintro rfl; rfl

/-- Settles O23: inside BUF the command is `readBytes`, which changes the bytes of the range, and the line as its slots do. -/
theorem rbytesStoresTheBytesRead : Obligations.RbytesStoresTheBytesRead := by
  unfold Obligations.RbytesStoresTheBytesRead
  intro s a n
  refine ⟨commandWord_of_fits (Laws.EncodeFits.rbytes a n) rfl (fieldOP_layCmd ..) (by simp [Op.instr]),
    fun hout => ofRange_refused hout s _, fun hin => ⟨_, ofRange_runs hin s _, ?_⟩⟩
  obtain ⟨⟨items, hrun, hitems⟩, hbits, hothers, -⟩ := readBytes_run n.toNat 0 a.toNat s
  obtain ⟨hoe, hout⟩ := readBytes_driver n.toNat 0 a.toNat s
  have hzero : n.toNat = 0 ↔ n = 0 := by simp [← BitVec.toNat_inj]
  simp only [hzero] at hoe hout
  refine ⟨?state, hbits, hothers, hrun.trace_grows, hrun.respond_padTrace hitems .., ?empty⟩
  case state => simpa using hrun.respond hoe hout .ok false 0
  case empty => rintro rfl; rfl

/-- Settles O24: the match-ROM byte, then the eight bytes of BUF, one run of line activity after the other. -/
theorem selectSendsMatchRomThenTheAddress : Obligations.SelectSendsMatchRomThenTheAddress := by
  unfold Obligations.SelectSendsMatchRomThenTheAddress
  intro s a
  refine ⟨commandWord_of_fits (Laws.EncodeFits.select a) rfl (fieldOP_layCmd ..) (by simp [Op.instr]),
    fun hout => ofRange_refused hout s _, fun hin => ⟨_, ofRange_runs hin s _, ?_⟩⟩
  have hbyte : Config.params.cmdMatchRom = 0x55 := rfl
  rw [memRead_eq_bytesAt, hbyte]
  obtain ⟨matchRom, hmatch, hmatchItems, -⟩ := opWbyte_run 0x55 false s
  obtain ⟨address, haddress, haddressItems, hoe, hout⟩ :=
    writeBytes_run (s.bytesAt a.toNat 8) false (opWbyte 0x55 false s)
  have hrun := hmatch.trans haddress
  have hitems : noGaps (matchRom ++ address) = byteItems 0x55 false ++ bytesItems (s.bytesAt a.toNat 8) false := by
    rw [noGaps_append, hmatchItems, haddressItems]
  have hne : s.bytesAt a.toNat 8 ≠ [] := by simp [State.bytesAt]
  rw [if_neg hne] at hoe hout
  refine ⟨?state, hrun.trace_grows, hrun.respond_padTrace hitems ..⟩
  case state => simpa using hrun.respond hoe hout .ok false 0

/-- Settles O25: SKIP does what WBYTE with 0xCC and hold-power 0 does, and 0xCC has four 1 bits. -/
theorem skipSendsSkipRom : Obligations.SkipSendsSkipRom := by
  unfold Obligations.SkipSendsSkipRom
  intro s
  obtain ⟨-, t, hexec, hstate, hgrows, hpad, htime⟩ := wbyteSendsBitZeroFirstThenItsTail s 0xCC false
  have hones : onesOf 0xCC = 4 := by decide
  rw [hones] at htime
  exact ⟨commandWord_of_fits Laws.EncodeFits.skip rfl rfl rfl, t, hexec, hstate, hgrows, hpad, htime⟩

/-- Settles O26: `Drive(0, OUT)` outside any section, then the response. -/
theorem depowerReleasesAndKeepsTheLatch : Obligations.DepowerReleasesAndKeepsTheLatch := by
  unfold Obligations.DepowerReleasesAndKeepsTheLatch
  exact fun s => ⟨commandWord_of_fits Laws.EncodeFits.depower rfl rfl rfl, rfl⟩

end

section
/-! SUPPORT. What no instruction touches, and what none of the commands off the bus touches: each as the list of the fields,
with one lemma per operation of the model that it is kept. -/

namespace Sys2Proof.Machine

/-- The host's further words, the count of resets and the line: read by no command (log 1, log 7, log 16). -/
def State.surroundings (s : State) : List Cmd64 × Nat × Nat := (s.cmds, s.bufEpoch, s.line)

/-- The driver, the pad trace with its gaps, and the environment's answers (40_bus_line_driver.md R125). -/
def State.busSide (s : State) : Bit × Bit × List PadEvent × Nat × List Bit × Nat :=
  (s.oe, s.out, s.trace, s.gapDraws, s.samples, s.sampleDraws)

/-- A command with a BUF range keeps what it keeps both where it runs and where it is refused (20_memory.md R44). -/
theorem ofRange_keeps {α : Type} (f : State → α) {s t : State} (c : Bool) (hruns : f t = f s)
    (hrefused : f (s.refuse .errRange) = f s) : f (if c then t else s.refuse .errRange) = f s := by
  split_ifs
  · exact hruns
  · exact hrefused

theorem LineRun.surroundings {s t : State} {n : Nat} {l : List WireItem} (h : LineRun s t n l) :
    t.surroundings = s.surroundings := by
  rw [h.eq]; rfl

theorem surroundings_respond {s t : State} (h : t.surroundings = s.surroundings) (st : Status) (r : Bit) (v : Half) :
    (t.respond st r v).surroundings = s.surroundings := h

@[simp] theorem surroundings_gap (s : State) : s.gap.surroundings = s.surroundings := rfl

@[simp] theorem surroundings_searchClear (s : State) : s.searchClear.surroundings = s.surroundings := rfl

@[simp] theorem surroundings_opReset (s : State) : (opReset s).2.surroundings = s.surroundings := by
  rcases opReset_cases s with ⟨_, -, -, -, -, hrun⟩ | ⟨-, -, hrun⟩
  · exact hrun.surroundings
  · exact hrun.surroundings

@[simp] theorem surroundings_opWbyte (d : Byte) (p : Bit) (s : State) :
    (opWbyte d p s).surroundings = s.surroundings := by
  obtain ⟨_, hrun, -⟩ := opWbyte_run d p s
  exact hrun.surroundings

theorem surroundings_opRbyte (s : State) : (opRbyte s).2.surroundings = s.surroundings := by
  obtain ⟨⟨_, hrun, -⟩, -⟩ := opRbyte_run s
  exact hrun.surroundings

theorem surroundings_writeBytes (l : List Byte) (p : Bit) (s : State) :
    (writeBytes l p s).surroundings = s.surroundings := by
  obtain ⟨_, hrun, -⟩ := writeBytes_run l p s
  exact hrun.surroundings

theorem surroundings_readBytes (k i a : Nat) (s : State) : (readBytes k i a s).surroundings = s.surroundings := by
  obtain ⟨⟨_, hrun, -⟩, -⟩ := readBytes_run k i a s
  exact hrun.surroundings

theorem surroundings_memWrite (s : State) (a : Nat) (vs : List Byte) :
    (s.memWrite a vs).surroundings = s.surroundings := by
  rw [memWrite_spec]; rfl

/-- Position by position: a silent one ends the traversal, a resolved one writes the search state and goes on. -/
@[simp] theorem surroundings_searchLoop (k p lz : Nat) (s : State) :
    (searchLoop k p lz s).st.surroundings = s.surroundings := by
  induction k generalizing p lz s with
  | zero => rfl
  | succ k ih =>
    by_cases hsilent : s.answer 0 = true ∧ s.answer 1 = true
    · obtain ⟨t, _, hloop, hrun, -⟩ := searchLoop_silent k p lz s hsilent
      rw [hloop]
      exact hrun.surroundings
    · obtain ⟨t, _, hloop, hrun, -⟩ := searchLoop_resolved k p lz s hsilent
      rw [hloop, ih]
      exact hrun.surroundings

@[simp] theorem surroundings_searchFinish (w : Walk) : (searchFinish w).2.surroundings = w.st.surroundings := by
  have hcommit : (if w.ok then searchCommit w.lz w.st else w.st).surroundings = w.st.surroundings := by
    split_ifs <;> rfl
  unfold searchFinish
  generalize (if w.ok then searchCommit w.lz w.st else w.st) = u at hcommit
  dsimp only
  split_ifs <;> exact hcommit

theorem surroundings_searchRun (m : Bit) (s : State) : (searchRun m s).2.surroundings = s.surroundings := by
  unfold searchRun
  dsimp only
  split_ifs <;> simp

theorem busSide_memWrite (s : State) (a : Nat) (vs : List Byte) : (s.memWrite a vs).busSide = s.busSide := by
  rw [memWrite_spec]; rfl

theorem exec_surroundings (i : Instr) (s : State) : ∃ t, exec i s = .next t ∧ t.surroundings = s.surroundings := by
  cases i with
  | reset => exact ⟨_, rfl, surroundings_respond (surroundings_opReset s) ..⟩
  | wbit v => exact ⟨_, rfl, surroundings_respond (opWbit_run v s).surroundings ..⟩
  | rbit => exact ⟨_, rfl, surroundings_respond (opRbit_run s).surroundings ..⟩
  | wbyte d p => exact ⟨_, rfl, surroundings_respond (surroundings_opWbyte d p s) ..⟩
  | rbyte => exact ⟨_, rfl, surroundings_respond (surroundings_opRbyte s) ..⟩
  | wbytes a n p => exact ⟨_, rfl, ofRange_keeps _ _ (surroundings_respond (surroundings_writeBytes _ p s) ..) rfl⟩
  | rbytes a n => exact ⟨_, rfl, ofRange_keeps _ _ (surroundings_respond (surroundings_readBytes _ 0 _ s) ..) rfl⟩
  | select a =>
    have hrun := (surroundings_writeBytes (s.memRead a.toNat 8) false _).trans
      (surroundings_opWbyte Config.params.cmdMatchRom false s)
    exact ⟨_, rfl, ofRange_keeps _ _ (surroundings_respond hrun ..) rfl⟩
  | skip => exact ⟨_, rfl, surroundings_respond (surroundings_opWbyte _ false s) ..⟩
  | search m => exact ⟨_, rfl, surroundings_respond (surroundings_searchRun m s) ..⟩
  | rom2buf a => exact ⟨_, rfl, ofRange_keeps _ _ (surroundings_memWrite s _ _) rfl⟩
  | crc8 a n => exact ⟨_, rfl, ofRange_keeps _ _ rfl rfl⟩
  | crc16 a n seed => exact ⟨_, rfl, ofRange_keeps _ _ rfl rfl⟩
  | chkcrc16 a n c seed => exact ⟨_, rfl, ofRange_keeps _ _ (ofRange_keeps _ _ rfl rfl) rfl⟩
  | wireMatchRom | wireSkipRom | wireSearch | wireCondSearch => exact ⟨_, rfl, surroundings_opWbyte _ false s⟩
  | depower | rstsrch | tgtsrch _ | rdss | bufwr _ _ | bufrd _ => exact ⟨_, rfl, rfl⟩

/-- The commands off the bus (40_bus_line_driver.md R125, last row). -/
def offBus (i : Instr) : Prop :=
  i = .rstsrch ∨ (∃ d, i = .tgtsrch d) ∨ i = .rdss ∨ (∃ a, i = .rom2buf a) ∨ (∃ a n, i = .crc8 a n) ∨
    (∃ a n sd, i = .crc16 a n sd) ∨ (∃ a n c sd, i = .chkcrc16 a n c sd) ∨ (∃ a d, i = .bufwr a d) ∨ (∃ a, i = .bufrd a)

/-- They write the search state, BUF and the port only. -/
theorem exec_busSide {i : Instr} (s : State) (hoff : offBus i) :
    ∃ t, exec i s = .next t ∧ t.busSide = s.busSide := by
  obtain rfl | ⟨_, rfl⟩ | rfl | ⟨_, rfl⟩ | ⟨_, _, rfl⟩ | ⟨_, _, _, rfl⟩ | ⟨_, _, _, _, rfl⟩ | ⟨_, _, rfl⟩ | ⟨_, rfl⟩ := hoff
  · exact ⟨_, rfl, rfl⟩
  · exact ⟨_, rfl, rfl⟩
  · exact ⟨_, rfl, rfl⟩
  · exact ⟨_, rfl, ofRange_keeps _ _ (busSide_memWrite s _ _) rfl⟩
  · exact ⟨_, rfl, ofRange_keeps _ _ rfl rfl⟩
  · exact ⟨_, rfl, ofRange_keeps _ _ rfl rfl⟩
  · exact ⟨_, rfl, ofRange_keeps _ _ (ofRange_keeps _ _ rfl rfl) rfl⟩
  · exact ⟨_, rfl, rfl⟩
  · exact ⟨_, rfl, rfl⟩

end Sys2Proof.Machine
end

section
open Sys2Proof Sys2Proof.Machine

/-- Settles O54: what every instruction leaves alone, and what the nine commands off the bus leave alone beside it. -/
theorem commandsOffTheBusLeaveTheLineAlone : Obligations.CommandsOffTheBusLeaveTheLineAlone := by
  unfold Obligations.CommandsOffTheBusLeaveTheLineAlone
  intro i s t hexec
  obtain ⟨u, hnext, hsurroundings⟩ := exec_surroundings i s
  obtain rfl := next_inj (hnext.symm.trans hexec)
  simp only [State.surroundings, Prod.mk.injEq] at hsurroundings
  obtain ⟨hcmds, hepoch, hline⟩ := hsurroundings
  refine ⟨hcmds, hepoch, hline, fun hoff => ?_⟩
  obtain ⟨v, hnext', hbus⟩ := exec_busSide s hoff
  obtain rfl := next_inj (hnext'.symm.trans hexec)
  simpa only [State.busSide, Prod.mk.injEq] using hbus

end

section
/-! SUPPORT. The ways of SEARCH (41_rom_search.md R143): an equation for each branch of `searchRun` and of its end. -/

namespace Sys2Proof.Machine

/-- SEARCH answers R of its run (R143). -/
theorem exec_search_of_run {m r : Bit} {s t : State} (h : searchRun m s = (r, t)) :
    exec (.search m) s = .next (t.respond .ok r 0) := by
  simp only [exec, execSearch, h]

theorem searchRun_lastDevice (m : Bit) {s : State} (h : s.ldf = true) : searchRun m s = (false, s.searchClear) := by
  simp only [searchRun, h, if_true]

theorem searchRun_noPresence (m : Bit) {s : State} (hldf : s.ldf = false) (h : (opReset s).1 = false) :
    searchRun m s = (false, (opReset s).2.searchClear) := by
  simp only [searchRun, hldf, h, Bool.false_eq_true, if_false]

/-- The state in which the traversal begins: presence was seen and the command byte sent (R134). -/
def searchStart (m : Bit) (s : State) : State := opWbyte (searchByte m) false (opReset s).2.gap

theorem searchRun_presence (m : Bit) {s : State} (hldf : s.ldf = false) (h : (opReset s).1 = true) :
    searchRun m s = searchFinish (searchLoop 64 1 0 (searchStart m s)) := by
  simp only [searchRun, hldf, h, Bool.false_eq_true, if_false, if_true]
  rfl

theorem searchFinish_aborted (lz : Nat) (t : State) : searchFinish ⟨false, lz, t⟩ = (false, t.searchClear) := rfl

theorem searchFinish_zeros (lz : Nat) {t : State} (h : t.rom = Vector.replicate 8 0) :
    searchFinish ⟨true, lz, t⟩ = (false, t.searchClear) := by
  have hzero : romAllZero (searchCommit lz t).rom = true := (romAllZero_iff _).mpr h
  simp only [searchFinish, if_true, hzero, Bool.or_true]
  rfl

theorem searchFinish_found (lz : Nat) {t : State} (h : t.rom ≠ Vector.replicate 8 0) :
    searchFinish ⟨true, lz, t⟩ = (true, searchCommit lz t) := by
  have hnonzero : romAllZero (searchCommit lz t).rom = false :=
    Bool.eq_false_iff.mpr fun hz => h ((romAllZero_iff _).mp hz)
  simp [searchFinish, hnonzero]

/-- Line activity neither reads nor writes `LD` and `LDF` either, so the whole search state may be changed around it. -/
theorem LineRun.withSearchState {s t : State} {n : Nat} {l : List WireItem} (h : LineRun s t n l) (rom : Vector Byte 8)
    (ld : BitVec 7) (lfd : BitVec 4) (ldf : Bit) :
    LineRun { s with rom := rom, ld := ld, lfd := lfd, ldf := ldf }
      { t with rom := rom, ld := ld, lfd := lfd, ldf := ldf } n l := by
  refine ⟨?_, h.legal, h.driver⟩
  conv_lhs => rw [h.eq]
  rfl

/-- The search state is cleared after the activity as if it had been cleared before. -/
theorem LineRun.searchClear {s t : State} {n : Nat} {l : List WireItem} (h : LineRun s t n l) :
    LineRun s.searchClear t.searchClear n l :=
  h.withSearchState _ _ _ _

/-- A gap leaves the driver as it is, so the shapes without the gaps tell how it is left. -/
theorem LineRun.driver_noGaps {s t : State} {n : Nat} {l : List WireItem} (h : LineRun s t n l) :
    (t.oe, t.out) = (noGaps l).foldl WireItem.driverAfter (s.oe, s.out) := by
  rw [h.driver]
  generalize (s.oe, s.out) = d
  clear h
  induction l generalizing d with
  | nil => rfl
  | cons x l ih => cases x <;> exact ih _

end Sys2Proof.Machine
end

section
open Sys2Proof Sys2Proof.Machine

/-- Settles O29: the first branch of SEARCH. -/
theorem searchAfterTheLastDeviceClearsSilently : Obligations.SearchAfterTheLastDeviceClearsSilently := by
  unfold Obligations.SearchAfterTheLastDeviceClearsSilently
  intro s m hldf
  exact exec_search_of_run (searchRun_lastDevice m hldf)

/-- Settles O30: the two ways in which `op_reset` answers 0. -/
theorem searchWithoutPresenceClears : Obligations.SearchWithoutPresenceClears := by
  unfold Obligations.SearchWithoutPresenceClears
  refine ⟨fun s m k hldf hk hanswers => ?noPulse, fun s m hldf hlow => ?stuckLow⟩
  case noPulse =>
    obtain ⟨hlow, hhigh, hpresence⟩ := upcoming_poll hanswers
    have hreset := opReset_high k s hk hlow hhigh
    rw [hpresence] at hreset
    have hrun := searchRun_noPresence m hldf (by rw [hreset]; rfl)
    rw [hreset] at hrun
    exact exec_search_of_run hrun
  case stuckLow =>
    have hreset := opReset_low s (answer_of_upcoming_low hlow)
    have hrun := searchRun_noPresence m hldf (by rw [hreset])
    rw [hreset] at hrun
    exact exec_search_of_run hrun

/-- Settles O39: `search_clear()` and the response with nothing in it. -/
theorem rstsrchClearsTheSearchState : Obligations.RstsrchClearsTheSearchState := by
  unfold Obligations.RstsrchClearsTheSearchState
  exact fun s => ⟨commandWord_of_fits Laws.EncodeFits.rstsrch rfl rfl rfl, rfl⟩

end

section
/-! SUPPORT. The other commands of the enumerator: the register file TGTSRCH primes, the V field of RDSS, the bytes ROM2BUF
copies. -/

namespace Sys2Proof.Machine

/-- The register file after TGTSRCH (41_rom_search.md R148). -/
theorem romByte_searchPrime (s : State) (d : Byte) (i : Nat) :
    romByte (s.searchPrime d).rom i = if i = 0 then d else 0 := by
  have hzero : romByte (Vector.replicate 8 0) i = 0 := by
    unfold romByte
    by_cases hi : i < 8 <;> simp [Vector.getD, hi]
  rw [searchPrime_rom, romByte_set _ _ _ _ (by omega), hzero]

/-- A concatenation as a number. -/
theorem toNat_append_add {m n : Nat} (x : BitVec m) (y : BitVec n) : (x ++ y).toNat = x.toNat * 2 ^ n + y.toNat := by
  rw [BitVec.toNat_append, ← Nat.shiftLeft_add_eq_or_of_lt y.isLt, Nat.shiftLeft_eq]

/-- V of RDSS as a number (41_rom_search.md R150). -/
theorem searchStateValue_toNat (ld : BitVec 7) (lfd : BitVec 4) :
    (searchStateValue ld lfd).toNat = lfd.toNat * 256 + ld.toNat :=
  (toNat_append_add (0#4 ++ lfd) (0#1 ++ ld)).trans (by rw [toNat_append_add, toNat_append_add]; simp)

/-- A response of status OK as a number (30_encoding.md R63). -/
theorem packRsp_ok_toNat (r : Bit) (v : Half) : (packRsp .ok r v).toNat = v.toNat * 65536 + if r then 256 else 0 := by
  refine (toNat_append_add (v ++ (0#7 ++ BitVec.ofBool r)) (0#4 ++ Status.ok.code)).trans ?_
  have hflag : (0#7 ++ BitVec.ofBool r).toNat = if r then 1 else 0 := by cases r <;> rfl
  have hstatus : (0#4 ++ Status.ok.code).toNat = 0 := rfl
  rw [toNat_append_add, hflag, hstatus]
  split_ifs <;> omega

theorem romByte_eq_getElem (rom : Vector Byte 8) (i : Nat) (h : i < rom.toList.length) : rom.toList[i] = romByte rom i := by
  have hi : i < 8 := by simpa using h
  simp [romByte, Vector.getD, hi]

end Sys2Proof.Machine
end

section
open Sys2Proof Sys2Proof.Machine

/-- Settles O40: the priming is `searchPrime`, byte by byte. -/
theorem tgtsrchPrimesTheSearchState : Obligations.TgtsrchPrimesTheSearchState := by
  unfold Obligations.TgtsrchPrimesTheSearchState
  intro s d
  refine ⟨commandWord_of_fits (Laws.EncodeFits.tgtsrch d) rfl (fieldOP_layCmd ..) (by simp [Op.instr]),
    (s.searchPrime d).respond .ok false 0, rfl, rfl, ?_, fun i hi _ => ?_⟩
  · exact romByte_searchPrime s d 0
  · rw [respond_rom, romByte_searchPrime, if_neg (by omega)]

/-- Settles O41: the response word read as a number, field by field. -/
theorem rdssReportsTheSearchState : Obligations.RdssReportsTheSearchState := by
  unfold Obligations.RdssReportsTheSearchState
  intro s
  refine ⟨commandWord_of_fits Laws.EncodeFits.rdss rfl rfl rfl, packRsp .ok s.ldf (searchStateValue s.ld s.lfd), rfl, ?_⟩
  rw [packRsp_ok_toNat, searchStateValue_toNat]

/-- Settles O42: inside BUF the command is a range write of the eight registers. -/
theorem rom2bufCopiesTheAddress : Obligations.Rom2bufCopiesTheAddress := by
  unfold Obligations.Rom2bufCopiesTheAddress
  intro s a
  have hlen : s.rom.toList.length = 8 := by simp
  refine ⟨commandWord_of_fits (Laws.EncodeFits.rom2buf a) rfl (fieldOP_layCmd ..) (by simp [Op.instr]),
    fun hout => ofRange_refused hout s _, fun hin => ⟨_, ofRange_runs hin s _, ?state, fun i hi => ?copied, fun x hx => ?others⟩⟩
  case state => rw [memWrite_spec]; rfl
  case copied => exact (memWrite_bufByte_inside s a.toNat s.rom.toList i (by rwa [hlen])).trans (romByte_eq_getElem ..)
  case others => exact memWrite_bufByte_outside s a.toNat s.rom.toList x (by rwa [hlen])

end

section
/-! SUPPORT. The traversal read off its answers: the functions of Safety.lean position by position, and the state of the loop
after n resolved positions. -/

namespace Sys2Proof.Machine

@[simp] theorem noGaps_resetPulse (out : Bit) (zeros : Nat) (v : Bit) (l : List WireItem) :
    noGaps (.resetPulse out zeros v :: l) = .resetPulse out zeros v :: noGaps l := rfl

theorem traversalItems_succ (s : State) (k n : Nat) : traversalItems s k (n + 1) = traversalItems s k n ++
    [.rslot (traversalPair s k (n + 1)).1, .rslot (traversalPair s k (n + 1)).2, .wslot (traversalDir s k (n + 1))] := by
  simp [traversalItems, List.range'_1_concat, Nat.add_comm 1]

theorem traversalLast_succ (s : State) (k n : Nat) :
    traversalLast s k (n + 1) = if traversalDefers s k (n + 1) then n + 1 else traversalLast s k n := by
  unfold traversalLast
  rw [List.range'_1_concat, List.filter_append, Nat.add_comm 1]
  cases h : traversalDefers s k (n + 1) <;> simp [h]

theorem traversalLast_le (s : State) (k n : Nat) : traversalLast s k n ≤ n := by
  induction n with
  | zero => rfl
  | succ n ih => rw [traversalLast_succ]; split_ifs <;> omega

/-- The direction of position q+1 needs that bit of `rom` only. -/
theorem searchDir_eq_masterDir {rom : Vector Byte 8} {old : BitVec 64} {q : Nat}
    (h : romBit rom (q + 1) = old.getLsbD q) (ld : Nat) (a b : Bit) :
    searchDir ld rom (q + 1) a b = masterDir ld old q (a, b) := by
  simp only [searchDir, masterDir, h]

/-- v is s after the reset that polled k low samples, the command byte of m and n resolved positions: the directions stand in
`rom`, and `LFD` records the last deferred of positions 1..8 (R137 to R140). -/
structure Traversed (s : State) (m : Bit) (k n : Nat) (v : State) : Prop where
  run : ∃ items, LineRun { s with rom := v.rom, lfd := v.lfd } v (k + 2 + 2 * n) items ∧
    noGaps items = [.resetPulse s.out k false] ++ byteItems (searchByte m) false ++ traversalItems s k n
  rom : ∀ p, 1 ≤ p → romBit v.rom p = if p ≤ n then traversalDir s k p else romBit s.rom p
  lfd : v.lfd = if traversalLast s k (min n 8) = 0 then s.lfd else BitVec.ofNat 4 (traversalLast s k (min n 8))

/-- Presence was seen after k low polls (R101), in terms of the single answers. -/
theorem State.presenceAfter.answers {s : State} {k : Nat} (h : s.presenceAfter k) :
    k < 125 ∧ (∀ i < k, s.answer i = false) ∧ s.answer k = true ∧ s.answer (k + 1) = false :=
  ⟨h.1, upcoming_poll h.2⟩

theorem searchRun_of_presenceAfter (m : Bit) {s : State} {k : Nat} (hldf : s.ldf = false) (h : s.presenceAfter k) :
    searchRun m s = searchFinish (searchLoop 64 1 0 (searchStart m s)) := by
  obtain ⟨hk, hlow, hhigh, hpresence⟩ := h.answers
  exact searchRun_presence m hldf (by rw [opReset_high k s hk hlow hhigh, hpresence]; rfl)

theorem searchStart_traversed (m : Bit) {s : State} {k : Nat} (h : s.presenceAfter k) :
    Traversed s m k 0 (searchStart m s) := by
  obtain ⟨hk, hlow, hhigh, hpresence⟩ := h.answers
  have hreset : LineRun s (opReset s).2 (k + 2) [.resetPulse s.out k false] := by
    rw [opReset_high k s hk hlow hhigh, hpresence]
    exact ⟨by simp, by simpa [WireItem.legal] using hk, rfl⟩
  obtain ⟨byte, hbyte, hbyteItems, -⟩ := opWbyte_run (searchByte m) false (opReset s).2.gap
  have hrun : LineRun s (searchStart m s) (k + 2) _ := hreset.trans ((gap_run _).trans hbyte)
  have hrom : (searchStart m s).rom = s.rom := by rw [hrun.eq]; rfl
  have hlfd : (searchStart m s).lfd = s.lfd := by rw [hrun.eq]; rfl
  refine ⟨⟨_, by rw [hrom, hlfd]; exact hrun, ?_⟩, fun p hp => ?_, ?_⟩
  · simp [hbyteItems, traversalItems]
  · rw [hrom, if_neg (by omega)]
  · rw [hlfd]; rfl

namespace Traversed

variable {s v : State} {m : Bit} {k n : Nat}

theorem ld (h : Traversed s m k n v) : v.ld = s.ld := by
  obtain ⟨_, hrun, -⟩ := h.run
  rw [hrun.eq]; rfl

theorem ldf (h : Traversed s m k n v) : v.ldf = s.ldf := by
  obtain ⟨_, hrun, -⟩ := h.run
  rw [hrun.eq]; rfl

/-- The next two answers are the pair of the next position. -/
theorem pair (h : Traversed s m k n v) : (v.answer 0, v.answer 1) = traversalPair s k (n + 1) := by
  obtain ⟨_, hrun, -⟩ := h.run
  have hanswer (j : Nat) : v.answer j = s.answer (k + 2 + 2 * n + j) :=
    (hrun.answer j).trans (answer_congr rfl rfl rfl _)
  rw [hanswer, hanswer, traversalPair, show k + 2 + 2 * n = k + 2 * (n + 1) by ring, Nat.add_zero]

theorem dir (h : Traversed s m k n v) (hn : n < 64) :
    searchDir v.ld.toNat v.rom (n + 1) (v.answer 0) (v.answer 1) = traversalDir s k (n + 1) := by
  have hbit : romBit v.rom (n + 1) = (romWord s.rom).getLsbD n := by
    rw [h.rom _ (by omega), if_neg (by omega), romWord_getLsbD _ _ hn]
  rw [searchDir_eq_masterDir hbit, h.ld, h.pair]
  rfl

theorem defers (h : Traversed s m k n v) :
    deferred (v.answer 0) (v.answer 1) (traversalDir s k (n + 1)) = traversalDefers s k (n + 1) := by
  rw [traversalDefers, ← h.pair, deferred]
  cases v.answer 0 <;> cases v.answer 1 <;> rfl

/-- One position further (R137 to R140). -/
theorem step (h : Traversed s m k n v) (hn : n < 64) (hpair : traversalPair s k (n + 1) ≠ (true, true)) (j : Nat) :
    ∃ v', searchLoop (j + 1) (n + 1) (traversalLast s k n) v = searchLoop j (n + 2) (traversalLast s k (n + 1)) v' ∧
      Traversed s m k (n + 1) v' := by
  have hanswered : ¬(v.answer 0 = true ∧ v.answer 1 = true) := fun ⟨h0, h1⟩ => hpair (by rw [← h.pair, h0, h1])
  obtain ⟨v', items, hloop, hrun, hitems, -⟩ := searchLoop_resolved j (n + 1) (traversalLast s k n) v hanswered
  rw [h.dir hn, h.defers] at hloop hrun
  rw [h.dir hn] at hitems
  obtain ⟨before, hbefore, hbeforeItems⟩ := h.run
  have hrom : v'.rom = setRomBit v.rom (n + 1) (traversalDir s k (n + 1)) := by rw [hrun.eq]; rfl
  have hlfd : v'.lfd = if traversalDefers s k (n + 1) && decide (n + 1 ≤ 8) then BitVec.ofNat 4 (n + 1) else v.lfd := by
    rw [hrun.eq]; rfl
  rw [← hrom, ← hlfd] at hrun
  refine ⟨v', by rw [hloop, traversalLast_succ], ⟨_, (hbefore.withSearch _ _).trans hrun, ?_⟩, fun p hp => ?_, ?_⟩
  · rw [noGaps_append, hbeforeItems, hitems, traversalItems_succ, ← h.pair]; simp
  · rw [hrom, romBit_setRomBit _ _ _ _ (by omega) hp, h.rom p hp]
    by_cases hlast : p = n + 1
    · subst hlast; rw [if_pos rfl, if_pos le_rfl]
    · rw [if_neg hlast]; simp only [show p ≤ n + 1 ↔ p ≤ n by omega]
  · rw [hlfd, h.lfd]
    by_cases h8 : n + 1 ≤ 8
    · rw [min_eq_left h8, min_eq_left (by omega : n ≤ 8), traversalLast_succ]
      cases traversalDefers s k (n + 1) <;> simp [h8]
    · rw [min_eq_right (by omega : 8 ≤ n + 1), min_eq_right (by omega : 8 ≤ n)]
      simp [h8]

end Traversed

/-- The traversal up to any position before the first silent pair (R135). -/
theorem searchLoop_traversed (m : Bit) {s : State} {k n : Nat} (hpresence : s.presenceAfter k) (hn : n ≤ 64)
    (hpairs : ∀ p, 1 ≤ p → p ≤ n → traversalPair s k p ≠ (true, true)) :
    ∃ v, searchLoop 64 1 0 (searchStart m s) = searchLoop (64 - n) (n + 1) (traversalLast s k n) v ∧
      Traversed s m k n v := by
  induction n with
  | zero => exact ⟨_, rfl, searchStart_traversed m hpresence⟩
  | succ n ih =>
    obtain ⟨v, hloop, hv⟩ := ih (by omega) fun p h1 h2 => hpairs p h1 (by omega)
    obtain ⟨v', hstep, hv'⟩ := hv.step (by omega) (hpairs _ (by omega) (by omega)) (64 - (n + 1))
    exact ⟨v', by rw [hloop, ← hstep, show 64 - (n + 1) + 1 = 64 - n by omega], hv'⟩

end Sys2Proof.Machine
end

section
/-! SUPPORT. How a traversal ends (41_rom_search.md R136, R141, R142). -/

namespace Sys2Proof.Machine

namespace Traversed

variable {s v w : State} {m : Bit} {k : Nat}

/-- A whole traversal ends with a write slot, which leaves the line driven high (R143 corner case f). -/
theorem driver (h : Traversed s m k 64 v) : v.oe = true ∧ v.out = true := by
  obtain ⟨_, hrun, hitems⟩ := h.run
  have hdriver := hrun.driver_noGaps
  rw [hitems, traversalItems_succ s k 63, ← List.append_assoc, List.foldl_append] at hdriver
  exact ⟨congrArg Prod.fst hdriver, congrArg Prod.snd hdriver⟩

/-- After a whole traversal only the search state is still written, and the response given: what else the command did. -/
theorem respond (h : Traversed s m k 64 v)
    (hw : w = { v with rom := w.rom, ld := w.ld, lfd := w.lfd, ldf := w.ldf }) (r : Bit) :
    w.respond .ok r 0 = { s.consume (k + 130) with
      oe := true, out := true, rom := w.rom, ld := w.ld, lfd := w.lfd, ldf := w.ldf, trace := w.trace,
      gapDraws := w.gapDraws, rsp := some (packRsp .ok r 0), busy := false } ∧
    s.trace <+: w.trace ∧
    (w.respond .ok r 0).padTrace = s.padTrace ++ wireEvents ([.resetPulse s.out k false] ++
      byteItems (searchByte m) false ++ traversalItems s k 64) := by
  obtain ⟨_, hrun, hitems⟩ := h.run
  obtain ⟨hoe, hout⟩ := h.driver
  have hrun' := hrun.withSearchState w.rom w.ld w.lfd w.ldf
  rw [← hw] at hrun'
  exact ⟨hrun'.respond ((congrArg State.oe hw).trans hoe) ((congrArg State.out hw).trans hout) .ok r 0,
    hrun'.trace_grows, hrun'.respond_padTrace hitems ..⟩

/-- The address is all zeros exactly where every direction is 0. -/
theorem rom_eq_zero_iff (h : Traversed s m k 64 v) :
    v.rom = Vector.replicate 8 0 ↔ ∀ p, 1 ≤ p → p ≤ 64 → traversalDir s k p = false := by
  have hbit (p : Nat) (h1 : 1 ≤ p) (h64 : p ≤ 64) : romBit v.rom p = traversalDir s k p := by rw [h.rom p h1, if_pos h64]
  constructor
  · intro hz p h1 h64
    rw [← hbit p h1 h64, hz, romBit_zero]
  · intro hz
    exact rom_ext fun p h1 h64 => by rw [hbit p h1 h64, hz p h1 h64, romBit_zero]

end Traversed

/-- `LD` after a success: the candidate fits the register (R141). -/
theorem searchCommit_ld_toNat (s : State) (k : Nat) (t : State) :
    (searchCommit (traversalLast s k 64) t).ld.toNat = traversalLast s k 64 := by
  have hle := traversalLast_le s k 64
  simp only [searchCommit, BitVec.toNat_ofNat]
  omega

theorem searchCommit_ldf {lz : Nat} {t : State} (h : t.ldf = false) : (searchCommit lz t).ldf = decide (lz = 0) := by
  simp only [searchCommit, h]
  split_ifs with hz <;> simp [hz]

end Sys2Proof.Machine
end

section
open Sys2Proof Sys2Proof.Machine

/-- Settles O31: p-1 resolved positions, then the silent one, then `search_clear()`. -/
theorem searchAbortsOnASilentPosition : Obligations.SearchAbortsOnASilentPosition := by
  unfold Obligations.SearchAbortsOnASilentPosition
  intro s m k p hldf hpresence h1 h64 hpairs hsilent
  obtain ⟨n, rfl⟩ : ∃ n, p = n + 1 := ⟨p - 1, by omega⟩
  obtain ⟨v, hloop, hv⟩ := searchLoop_traversed m hpresence (n := n) (by omega)
    fun q hq hqn => hpairs q hq (by omega)
  have hanswers : v.answer 0 = true ∧ v.answer 1 = true := by simpa using hv.pair.trans hsilent
  obtain ⟨w, _, habort, hrun, hslots, hoe, hout⟩ :=
    searchLoop_silent (63 - n) (n + 1) (traversalLast s k n) v hanswers
  obtain ⟨_, hbefore, hitems⟩ := hv.run
  have hwhole := (hbefore.trans hrun).searchClear
  rw [show k + 2 + 2 * n + 2 = k + 2 + 2 * (n + 1) by ring] at hwhole
  have hsearch : searchRun m s = (false, w.searchClear) := by
    rw [searchRun_of_presenceAfter m hldf hpresence, hloop, show 64 - n = 63 - n + 1 by omega, habort,
      searchFinish_aborted]
  refine ⟨w.searchClear.respond .ok false 0, exec_search_of_run hsearch, hwhole.respond hoe hout .ok false 0,
    hwhole.trace_grows, hwhole.respond_padTrace ?_ ..⟩
  rw [noGaps_append, hitems, hslots]
  rfl

/-- Settles O32: the state after 64 resolved positions, and its two ends, the failure of an all-zero address and the
success. -/
theorem searchResolvesAllPositions : Obligations.SearchResolvesAllPositions := by
  unfold Obligations.SearchResolvesAllPositions
  refine ⟨fun m => commandWord_of_fits (Laws.EncodeFits.search m) rfl (fieldOP_layCmd ..) (by simp [Op.instr]),
    fun s m k hldf hpresence hpairs => ?_⟩
  obtain ⟨v, hloop, hv⟩ := searchLoop_traversed m hpresence le_rfl hpairs
  have hsearch := searchRun_of_presenceAfter m hldf hpresence
  rw [hloop] at hsearch
  by_cases hzero : v.rom = Vector.replicate 8 0
  case pos =>
    have hdirs := hv.rom_eq_zero_iff.mp hzero
    obtain ⟨hstate, hgrows, hpad⟩ := hv.respond (w := v.searchClear) rfl false
    refine ⟨v.searchClear.respond .ok false 0, exec_search_of_run (hsearch.trans (searchFinish_zeros _ hzero)),
      hstate, hgrows, hpad, fun _ => ⟨rfl, rfl, rfl, rfl, rfl⟩, ?_⟩
    rintro ⟨p, h1, h64, hone⟩
    simp [hdirs p h1 h64] at hone
  case neg =>
    obtain ⟨hstate, hgrows, hpad⟩ := hv.respond (w := searchCommit (traversalLast s k 64) v) rfl true
    refine ⟨(searchCommit (traversalLast s k 64) v).respond .ok true 0,
      exec_search_of_run (hsearch.trans (searchFinish_found _ hzero)),
      hstate, hgrows, hpad, fun hdirs => absurd (hv.rom_eq_zero_iff.mpr hdirs) hzero, fun _ => ?_⟩
    exact ⟨fun p h1 h64 => (hv.rom p h1).trans (if_pos h64), searchCommit_ld_toNat s k v, hv.lfd,
      searchCommit_ldf (hv.ldf.trans hldf), rfl⟩

end

section
/-! SUPPORT. The paths of SEARCH: each state and its answers fall under one of the statements above. -/

namespace Sys2Proof.Machine

theorem upcoming_add (s : State) (m n : Nat) :
    s.upcoming (m + n) = s.upcoming m ++ (List.range n).map fun j => s.answer (m + j) := by
  simp [State.upcoming, List.range_add, Function.comp_def]

theorem upcoming_low {s : State} {n : Nat} (h : ∀ i < n, s.answer i = false) : s.upcoming n = List.replicate n false := by
  refine List.eq_replicate_iff.mpr ⟨by simp [State.upcoming], fun b hb => ?_⟩
  obtain ⟨i, hi, rfl⟩ := List.mem_map.mp hb
  exact h i (List.mem_range.mp hi)

/-- The answers of a reset that sees the line high after k low polls, as a list. -/
theorem upcoming_poll_of_answers {s : State} {k : Nat} (hlow : ∀ i < k, s.answer i = false) (hhigh : s.answer k = true) :
    s.upcoming (k + 2) = List.replicate k false ++ [true, s.answer (k + 1)] := by
  rw [upcoming_add, upcoming_low hlow, ← hhigh]
  rfl

/-- SEARCH fails from s after n answers: the five causes, by what decides each (R132, R133, R136, R142). -/
inductive SearchFails (s : State) : Nat → Prop where
  | lastDevice (hldf : s.ldf = true) : SearchFails s 0
  | noPulse (hldf : s.ldf = false) (k : Nat) (hk : k < 125)
      (hanswers : s.upcoming (k + 2) = List.replicate k false ++ [true, true]) : SearchFails s (k + 2)
  | stuckLow (hldf : s.ldf = false) (hlow : s.upcoming 125 = List.replicate 125 false) : SearchFails s 125
  | aborted (hldf : s.ldf = false) (k p : Nat) (hpresence : s.presenceAfter k) (h1 : 1 ≤ p) (h64 : p ≤ 64)
      (hpairs : ∀ q, 1 ≤ q → q < p → traversalPair s k q ≠ (true, true))
      (hsilent : traversalPair s k p = (true, true)) : SearchFails s (k + 2 + 2 * p)
  | zeros (hldf : s.ldf = false) (k : Nat) (hpresence : s.presenceAfter k)
      (hpairs : ∀ p, 1 ≤ p → p ≤ 64 → traversalPair s k p ≠ (true, true))
      (hdirs : ∀ p, 1 ≤ p → p ≤ 64 → traversalDir s k p = false) : SearchFails s (k + 130)

/-- SEARCH finds an address from s, after k low polls: presence, no silent position, and some direction 1. -/
structure SearchFinds (s : State) (k : Nat) : Prop where
  ldf : s.ldf = false
  presence : s.presenceAfter k
  pairs : ∀ p, 1 ≤ p → p ≤ 64 → traversalPair s k p ≠ (true, true)
  one : ∃ p, 1 ≤ p ∧ p ≤ 64 ∧ traversalDir s k p = true

/-- With presence seen: the first silent position aborts; without one the directions decide. -/
theorem searchPath_of_presence {s : State} {k : Nat} (hldf : s.ldf = false) (h : s.presenceAfter k) :
    (∃ n, SearchFails s n) ∨ SearchFinds s k := by
  by_cases hsilent : ∃ p, 1 ≤ p ∧ p ≤ 64 ∧ traversalPair s k p = (true, true)
  · obtain ⟨h1, h64, hp⟩ := Nat.find_spec hsilent
    have hfirst (q : Nat) (hq : 1 ≤ q) (hlt : q < Nat.find hsilent) : traversalPair s k q ≠ (true, true) :=
      fun heq => Nat.find_min hsilent hlt ⟨hq, by omega, heq⟩
    exact .inl ⟨_, .aborted hldf k _ h h1 h64 hfirst hp⟩
  · have hpairs : ∀ p, 1 ≤ p → p ≤ 64 → traversalPair s k p ≠ (true, true) :=
      fun p h1 h64 hp => hsilent ⟨p, h1, h64, hp⟩
    by_cases hone : ∃ p, 1 ≤ p ∧ p ≤ 64 ∧ traversalDir s k p = true
    · exact .inr ⟨hldf, h, hpairs, hone⟩
    · exact .inl ⟨_, .zeros hldf k h hpairs fun p h1 h64 => Bool.eq_false_iff.mpr fun hp => hone ⟨p, h1, h64, hp⟩⟩

/-- From every state SEARCH fails or finds. -/
theorem searchPath (s : State) : (∃ n, SearchFails s n) ∨ ∃ k, SearchFinds s k := by
  cases hldf : s.ldf with
  | true => exact .inl ⟨_, .lastDevice hldf⟩
  | false =>
    rcases first_high s.answer 125 with ⟨k, hk, hlow, hhigh⟩ | hlow
    · have hanswers := upcoming_poll_of_answers hlow hhigh
      cases hpresence : s.answer (k + 1) with
      | true => exact .inl ⟨_, .noPulse hldf k hk (hpresence ▸ hanswers)⟩
      | false => exact (searchPath_of_presence hldf ⟨hk, hpresence ▸ hanswers⟩).imp_right fun h => ⟨k, h⟩
    · exact .inl ⟨_, .stuckLow hldf (upcoming_low hlow)⟩

/-- t is left by a SEARCH from s that failed after n answers (R144). -/
structure ClearedAfter (s t : State) (n : Nat) : Prop where
  rom : t.rom = Vector.replicate 8 0
  ld : t.ld = 0
  lfd : t.lfd = 0
  ldf : t.ldf = false
  rsp : t.rsp = some 0x00000000
  answer : ∀ j, t.answer j = s.answer (n + j)

/-- t is left by a SEARCH from s that found an address, after k low polls (R141). -/
structure FoundAfter (s t : State) (k : Nat) : Prop where
  rom : ∀ p, 1 ≤ p → p ≤ 64 → romBit t.rom p = traversalDir s k p
  ld : t.ld.toNat = traversalLast s k 64
  lfd : t.lfd = if traversalLast s k 8 = 0 then s.lfd else BitVec.ofNat 4 (traversalLast s k 8)
  ldf : t.ldf = decide (traversalLast s k 64 = 0)
  rsp : t.rsp = some 0x00000100
  answer : ∀ j, t.answer j = s.answer (k + 130 + j)

/-- Each cause of failure leaves the same (R144), by the statement about it. -/
theorem SearchFails.outcome {s : State} {n : Nat} (h : SearchFails s n) (m : Bit) :
    ∃ t, exec (.search m) s = .next t ∧ ClearedAfter s t n := by
  cases h with
  | lastDevice hldf =>
    exact ⟨_, searchAfterTheLastDeviceClearsSilently s m hldf, rfl, rfl, rfl, rfl, rfl, fun j => by rw [Nat.zero_add]; rfl⟩
  | noPulse hldf k hk hanswers =>
    exact ⟨_, searchWithoutPresenceClears.1 s m k hldf hk hanswers, rfl, rfl, rfl, rfl, rfl, consume_answer s (k + 2)⟩
  | stuckLow hldf hlow =>
    exact ⟨_, searchWithoutPresenceClears.2 s m hldf hlow, rfl, rfl, rfl, rfl, rfl, consume_answer s 125⟩
  | aborted hldf k p hpresence h1 h64 hpairs hsilent =>
    obtain ⟨t, hexec, hstate, -⟩ := searchAbortsOnASilentPosition s m k p hldf hpresence h1 h64 hpairs hsilent
    refine ⟨t, hexec, ?_⟩
    rw [hstate]
    exact ⟨rfl, rfl, rfl, rfl, rfl, consume_answer s (k + 2 + 2 * p)⟩
  | zeros hldf k hpresence hpairs hdirs =>
    obtain ⟨t, hexec, hstate, -, -, hfails, -⟩ := searchResolvesAllPositions.2 s m k hldf hpresence hpairs
    obtain ⟨hrom, hld, hlfd, hldf, hrsp⟩ := hfails hdirs
    exact ⟨t, hexec, hrom, hld, hlfd, hldf, hrsp, fun j => by rw [hstate]; exact consume_answer s (k + 130) j⟩

theorem SearchFinds.outcome {s : State} {k : Nat} (h : SearchFinds s k) (m : Bit) :
    ∃ t, exec (.search m) s = .next t ∧ FoundAfter s t k := by
  obtain ⟨t, hexec, hstate, -, -, -, hfinds⟩ := searchResolvesAllPositions.2 s m k h.ldf h.presence h.pairs
  obtain ⟨hrom, hld, hlfd, hldf, hrsp⟩ := hfinds h.one
  exact ⟨t, hexec, hrom, hld, hlfd, hldf, hrsp, fun j => by rw [hstate]; exact consume_answer s (k + 130) j⟩

/-- The address found is not zero. -/
theorem FoundAfter.rom_ne_zero {s t : State} {k : Nat} (ht : FoundAfter s t k) (h : SearchFinds s k) :
    t.rom ≠ Vector.replicate 8 0 := by
  intro hzero
  obtain ⟨p, h1, h64, hp⟩ := h.one
  rw [← ht.rom p h1 h64, hzero, romBit_zero] at hp
  cases hp

/-- `LDF` stands exactly where no branch is left (R141). -/
theorem FoundAfter.ldf_iff {s t : State} {k : Nat} (ht : FoundAfter s t k) : t.ldf = true ↔ t.ld = 0 := by
  rw [ht.ldf, decide_eq_true_iff, ← ht.ld, ← BitVec.toNat_inj]
  rfl

end Sys2Proof.Machine
end

section
open Sys2Proof Sys2Proof.Machine

/-- Settles O33: SEARCH fails, and clears, or it finds an address. -/
theorem searchFailureLeavesTheZeroState : Obligations.SearchFailureLeavesTheZeroState := by
  unfold Obligations.SearchFailureLeavesTheZeroState
  intro s m
  rcases searchPath s with ⟨n, hfails⟩ | ⟨k, hfinds⟩
  · obtain ⟨t, hexec, ht⟩ := hfails.outcome m
    exact ⟨t, hexec, .inl ht.rsp, fun _ => ⟨ht.rom, ht.ld, ht.lfd, ht.ldf⟩, by simp [ht.rsp]⟩
  · obtain ⟨t, hexec, ht⟩ := hfinds.outcome m
    exact ⟨t, hexec, .inr ht.rsp, by simp [ht.rsp], fun _ => ⟨ht.rom_ne_zero hfinds, ht.ldf_iff⟩⟩

end

section
/-! SUPPORT. Two states with the same search state and the same answers to come (41_rom_search.md R145). -/

namespace Sys2Proof.Machine

/-- All that SEARCH reads of a state (R145). -/
structure SameSearchInputs (s s' : State) : Prop where
  rom : s'.rom = s.rom
  ld : s'.ld = s.ld
  lfd : s'.lfd = s.lfd
  ldf : s'.ldf = s.ldf
  answer : s'.answer = s.answer

/-- What SEARCH leaves for a reader of the search state and of the response, and for the next sample. -/
structure SameSearchOutputs (t t' : State) : Prop extends SameSearchInputs t t' where
  rsp : t'.rsp = t.rsp

namespace SameSearchInputs

variable {s s' : State} (h : SameSearchInputs s s')
include h

theorem upcoming (n : Nat) : s'.upcoming n = s.upcoming n := by
  rw [State.upcoming, h.answer, State.upcoming]

theorem presenceAfter {k : Nat} (hp : s.presenceAfter k) : s'.presenceAfter k := ⟨hp.1, (h.upcoming _).trans hp.2⟩

theorem traversalPair (k : Nat) : traversalPair s' k = traversalPair s k := by
  funext p
  rw [Machine.traversalPair, h.answer, Machine.traversalPair]

theorem traversalDir (k : Nat) : traversalDir s' k = traversalDir s k := by
  funext p
  rw [Machine.traversalDir, h.traversalPair, h.ld, h.rom, Machine.traversalDir]

theorem traversalLast (k : Nat) : traversalLast s' k = traversalLast s k := by
  have hdefers : traversalDefers s' k = traversalDefers s k := by
    funext p
    rw [traversalDefers, h.traversalPair, h.traversalDir, traversalDefers]
  funext n
  rw [Machine.traversalLast, hdefers, Machine.traversalLast]

theorem fails {n : Nat} (hs : SearchFails s n) : SearchFails s' n := by
  cases hs with
  | lastDevice hldf => exact .lastDevice (h.ldf.trans hldf)
  | noPulse hldf k hk hanswers => exact .noPulse (h.ldf.trans hldf) k hk ((h.upcoming _).trans hanswers)
  | stuckLow hldf hlow => exact .stuckLow (h.ldf.trans hldf) ((h.upcoming _).trans hlow)
  | aborted hldf k p hpresence h1 h64 hpairs hsilent =>
    rw [← h.traversalPair] at hpairs hsilent
    exact .aborted (h.ldf.trans hldf) k p (h.presenceAfter hpresence) h1 h64 hpairs hsilent
  | zeros hldf k hpresence hpairs hdirs =>
    rw [← h.traversalPair] at hpairs
    rw [← h.traversalDir] at hdirs
    exact .zeros (h.ldf.trans hldf) k (h.presenceAfter hpresence) hpairs hdirs

theorem finds {k : Nat} (hs : SearchFinds s k) : SearchFinds s' k where
  ldf := h.ldf.trans hs.ldf
  presence := h.presenceAfter hs.presence
  pairs := h.traversalPair k ▸ hs.pairs
  one := h.traversalDir k ▸ hs.one

theorem outputs_cleared {t t' : State} {n : Nat} (ht : ClearedAfter s t n) (ht' : ClearedAfter s' t' n) :
    SameSearchOutputs t t' where
  rom := ht'.rom.trans ht.rom.symm
  ld := ht'.ld.trans ht.ld.symm
  lfd := ht'.lfd.trans ht.lfd.symm
  ldf := ht'.ldf.trans ht.ldf.symm
  rsp := ht'.rsp.trans ht.rsp.symm
  answer := funext fun j => by rw [ht'.answer, ht.answer, h.answer]

theorem outputs_found {t t' : State} {k : Nat} (ht : FoundAfter s t k) (ht' : FoundAfter s' t' k) :
    SameSearchOutputs t t' where
  rom := rom_ext fun p h1 h64 => by rw [ht'.rom p h1 h64, ht.rom p h1 h64, h.traversalDir]
  ld := BitVec.eq_of_toNat_eq (by rw [ht'.ld, ht.ld, h.traversalLast])
  lfd := by rw [ht'.lfd, ht.lfd, h.traversalLast, h.lfd]
  ldf := by rw [ht'.ldf, ht.ldf, h.traversalLast]
  rsp := ht'.rsp.trans ht.rsp.symm
  answer := funext fun j => by rw [ht'.answer, ht.answer, h.answer]

/-- Both fail or both find, with the same outputs. -/
theorem outputs (m : Bit) :
    ∃ t t', exec (.search m) s = .next t ∧ exec (.search m) s' = .next t' ∧ SameSearchOutputs t t' := by
  rcases searchPath s with ⟨n, hfails⟩ | ⟨k, hfinds⟩
  · obtain ⟨t, hexec, ht⟩ := hfails.outcome m
    obtain ⟨t', hexec', ht'⟩ := (h.fails hfails).outcome m
    exact ⟨t, t', hexec, hexec', h.outputs_cleared ht ht'⟩
  · obtain ⟨t, hexec, ht⟩ := hfinds.outcome m
    obtain ⟨t', hexec', ht'⟩ := (h.finds hfinds).outcome m
    exact ⟨t, t', hexec, hexec', h.outputs_found ht ht'⟩

end SameSearchInputs

end Sys2Proof.Machine
end

section
open Sys2Proof Sys2Proof.Machine

/-- Settles O34: from two states with the same inputs SEARCH takes the same path. -/
theorem searchDependsOnlyOnSearchStateAndAnswers : Obligations.SearchDependsOnlyOnSearchStateAndAnswers := by
  unfold Obligations.SearchDependsOnlyOnSearchStateAndAnswers
  intro s s' m hrom hld hlfd hldf hanswer
  have hsame : SameSearchInputs s s' := ⟨hrom, hld, hlfd, hldf, funext hanswer⟩
  obtain ⟨t, t', hexec, hexec', ht⟩ := hsame.outputs m
  exact ⟨t, t', hexec, hexec', ht.rom, ht.ld, ht.lfd, ht.ldf, ht.rsp, congrFun ht.answer⟩

end

section
/-! SUPPORT. Addresses as bit strings: the first difference of two addresses and the order of enumeration (41_rom_search.md
R146). -/

namespace Sys2Proof.Machine

variable {x y : BitVec 64} {q : Nat}

theorem agreeBelow_iff : agreeBelow x y q = true ↔ ∀ j < q, x.getLsbD j = y.getLsbD j := by
  simp [agreeBelow]

theorem agreeBelow_refl (x : BitVec 64) (q : Nat) : agreeBelow x x q = true := agreeBelow_iff.mpr fun _ _ => rfl

theorem agreeBelow_comm (h : agreeBelow x y q = true) : agreeBelow y x q = true :=
  agreeBelow_iff.mpr fun j hj => (agreeBelow_iff.mp h j hj).symm

theorem agreeBelow_trans {z : BitVec 64} (hxy : agreeBelow x y q = true) (hyz : agreeBelow y z q = true) :
    agreeBelow x z q = true :=
  agreeBelow_iff.mpr fun j hj => (agreeBelow_iff.mp hxy j hj).trans (agreeBelow_iff.mp hyz j hj)

theorem agreeBelow_mono {n : Nat} (h : agreeBelow x y n = true) (hqn : q ≤ n) : agreeBelow x y q = true :=
  agreeBelow_iff.mpr fun j hj => agreeBelow_iff.mp h j (by omega)

theorem agreeBelow_succ : agreeBelow x y (q + 1) = (agreeBelow x y q && x.getLsbD q == y.getLsbD q) := by
  simp [agreeBelow, List.range_succ]

theorem eq_of_agreeBelow_64 (h : agreeBelow x y 64 = true) : x = y :=
  BitVec.eq_of_getLsbD_eq fun j hj => agreeBelow_iff.mp h j hj

/-- Two different addresses have a first difference. -/
theorem exists_first_difference (h : x ≠ y) :
    ∃ q < 64, agreeBelow x y q = true ∧ x.getLsbD q ≠ y.getLsbD q := by
  have hex : ∃ q, q < 64 ∧ x.getLsbD q ≠ y.getLsbD q := by
    by_contra hnone
    exact h (BitVec.eq_of_getLsbD_eq fun j hj => by_contra fun hne => hnone ⟨j, hj, hne⟩)
  obtain ⟨hlt, hne⟩ := Nat.find_spec hex
  refine ⟨_, hlt, agreeBelow_iff.mpr fun j hj => ?_, hne⟩
  exact by_contra fun hdiff => Nat.find_min hex hj ⟨by omega, hdiff⟩

/-- The address that has 0 at the first difference comes first. -/
theorem addressLt_of_first_difference (hq : q < 64) (hagree : agreeBelow x y q = true) (hx : x.getLsbD q = false)
    (hy : y.getLsbD q = true) : addressLt x y := by
  have htestBit (z : BitVec 64) (j : Nat) : z.reverse.toNat.testBit j = (decide (j < 64) && z.getLsbD (63 - j)) := by
    rw [← BitVec.getLsbD, BitVec.getLsbD_reverse, BitVec.getMsbD]
  refine Nat.lt_of_testBit (63 - q) ?_ ?_ fun j hj => ?_
  · rw [htestBit, show 63 - (63 - q) = q by omega, hx, Bool.and_false]
  · rw [htestBit, show 63 - (63 - q) = q by omega, hy]; simp; omega
  · rw [htestBit, htestBit]
    by_cases h64 : j < 64
    · rw [agreeBelow_iff.mp hagree (63 - j) (by omega)]
    · simp [h64]

/-- The order of enumeration read off the first difference. -/
theorem addressLt_iff : addressLt x y ↔
    ∃ q < 64, agreeBelow x y q = true ∧ x.getLsbD q = false ∧ y.getLsbD q = true := by
  refine ⟨fun h => ?_, fun ⟨q, hq, hagree, hx, hy⟩ => addressLt_of_first_difference hq hagree hx hy⟩
  have hne : x ≠ y := by rintro rfl; exact lt_irrefl _ h
  obtain ⟨q, hq, hagree, hdiff⟩ := exists_first_difference hne
  cases hx : x.getLsbD q with
  | false => exact ⟨q, hq, hagree, hx, by simpa [hx] using hdiff.symm⟩
  | true =>
    have hy : y.getLsbD q = false := by simpa [hx] using hdiff.symm
    exact absurd h (lt_asymm (addressLt_of_first_difference hq (agreeBelow_comm hagree) hy hx))

/-- A device that leaves an address for a later branch leaves in the same way all that agree with it through that branch. -/
theorem addressLt_of_leaves {old : BitVec 64} {n : Nat} (hold : agreeBelow old x n = true) (hqn : q < n) (hq : q < 64)
    (hagree : agreeBelow old y q = true) (hzero : old.getLsbD q = false) (hone : y.getLsbD q = true) :
    addressLt x y :=
  addressLt_of_first_difference hq (agreeBelow_trans (agreeBelow_comm (agreeBelow_mono hold hqn.le)) hagree)
    ((agreeBelow_iff.mp hold q hqn).symm.trans hzero) hone

end Sys2Proof.Machine
end

section
/-! SUPPORT. The well-behaved bus (30_encoding.md R76): the devices still active at a position are those that agree with the
directions written before it. -/

namespace Sys2Proof.Machine

/-- The address whose bits are the directions of the traversal. -/
def traversalWord (s : State) (k : Nat) : BitVec 64 := BitVec.ofFnLE fun q : Fin 64 => traversalDir s k (q + 1)

theorem traversalWord_getLsbD (s : State) (k : Nat) {q : Nat} (hq : q < 64) :
    (traversalWord s k).getLsbD q = traversalDir s k (q + 1) := by
  simp [traversalWord, hq]

/-- The devices that agree with x below index q. -/
def activeDevices (devs : List (BitVec 64)) (x : BitVec 64) (q : Nat) : List (BitVec 64) :=
  devs.filter fun y => agreeBelow x y q

theorem mem_activeDevices {devs : List (BitVec 64)} {x y : BitVec 64} {q : Nat} :
    y ∈ activeDevices devs x q ↔ y ∈ devs ∧ agreeBelow x y q = true := by
  simp [activeDevices]

theorem activeDevices_zero (devs : List (BitVec 64)) (x : BitVec 64) : activeDevices devs x 0 = devs := by
  simp [activeDevices, agreeBelow]

theorem activeDevices_succ (devs : List (BitVec 64)) (x : BitVec 64) (q : Nat) :
    activeDevices devs x (q + 1) = (activeDevices devs x q).filter fun y => y.getLsbD q == x.getLsbD q := by
  rw [activeDevices, activeDevices, List.filter_filter]
  refine List.filter_congr fun y _ => ?_
  rw [agreeBelow_succ, Bool.and_comm, Bool.beq_comm]

/-- A read slot gives 0 exactly where some device pulls it: the first one those with bit 0, the second those with bit 1. -/
theorem busPair_fst_eq_false {devs : List (BitVec 64)} {q : Nat} :
    (busPair devs q).1 = false ↔ ∃ y ∈ devs, y.getLsbD q = false := by
  simp [busPair]

theorem busPair_snd_eq_false {devs : List (BitVec 64)} {q : Nat} :
    (busPair devs q).2 = false ↔ ∃ y ∈ devs, y.getLsbD q = true := by
  simp [busPair]

/-- A silent position has no active device (R136). -/
theorem busPair_ne_silent {devs : List (BitVec 64)} (h : devs ≠ []) (q : Nat) : busPair devs q ≠ (true, true) := by
  intro hsilent
  obtain ⟨y, hy⟩ := List.exists_mem_of_ne_nil _ h
  cases hbit : y.getLsbD q with
  | false => simpa [hsilent] using busPair_fst_eq_false.mpr ⟨y, hy, hbit⟩
  | true => simpa [hsilent] using busPair_snd_eq_false.mpr ⟨y, hy, hbit⟩

/-- Whatever the master writes, some active device agrees with it. -/
theorem exists_mem_masterDir {devs : List (BitVec 64)} (h : devs ≠ []) (ld : Nat) (old : BitVec 64) (q : Nat) :
    ∃ y ∈ devs, y.getLsbD q = masterDir ld old q (busPair devs q) := by
  cases ha : (busPair devs q).1 <;> cases hb : (busPair devs q).2
  case true.true => exact absurd (Prod.ext ha hb) (busPair_ne_silent h q)
  case true.false => simpa [masterDir, ha, hb] using busPair_snd_eq_false.mp hb
  case false.true => simpa [masterDir, ha, hb] using busPair_fst_eq_false.mp ha
  case false.false =>
    cases masterDir ld old q (busPair devs q) with
    | false => exact busPair_fst_eq_false.mp ha
    | true => exact busPair_snd_eq_false.mp hb

/-- One position of the bus read off the answers: the pair first, then the devices the direction leaves active. -/
theorem busAnswers_step {s : State} {n q : Nat} {devs : List (BitVec 64)}
    (h : busAnswers s.ld.toNat (romWord s.rom) (n + 1) q devs =
      (List.range (2 * (n + 1))).map fun j => s.answer (0 + 2 * (q + 1) + j)) :
    traversalPair s 0 (q + 1) = busPair devs q ∧
    busAnswers s.ld.toNat (romWord s.rom) n (q + 1) (devs.filter fun y => y.getLsbD q == traversalDir s 0 (q + 1)) =
      (List.range (2 * n)).map fun j => s.answer (0 + 2 * (q + 2) + j) := by
  rw [show 2 * (n + 1) = 2 * n + 1 + 1 by ring, List.range_succ_eq_map, List.range_succ_eq_map] at h
  simp only [busAnswers, List.map_cons, List.map_map, List.cons.injEq] at h
  obtain ⟨hfst, hsnd, hrest⟩ := h
  have hpair : traversalPair s 0 (q + 1) = busPair devs q := Prod.ext hfst.symm hsnd.symm
  have hdir : traversalDir s 0 (q + 1) = masterDir s.ld.toNat (romWord s.rom) q (busPair devs q) := by
    rw [traversalDir, hpair]; rfl
  refine ⟨hpair, hdir ▸ hrest.trans (List.map_congr_left fun j _ => ?_)⟩
  simp only [Function.comp_apply, Nat.succ_eq_add_one]
  congr 1
  ring

namespace State.wellBehaved

variable {s : State} {devs : List (BitVec 64)} (hbus : s.wellBehaved devs)
include hbus

/-- The reset's two answers, then the traversal's. -/
theorem split : s.upcoming 2 = [true, false] ∧
    busAnswers s.ld.toNat (romWord s.rom) 64 0 devs = (List.range 128).map fun j => s.answer (2 + j) := by
  have h := (upcoming_add s 2 128).symm.trans hbus
  obtain ⟨hreset, htraversal⟩ := List.append_inj h (by simp [State.upcoming])
  exact ⟨hreset, htraversal.symm⟩

theorem presence : s.presenceAfter 0 := ⟨by omega, hbus.split.1⟩

/-- From every position on, the answers are those of the devices still active. -/
theorem answers_from {q : Nat} (hq : q ≤ 64) :
    busAnswers s.ld.toNat (romWord s.rom) (64 - q) q (activeDevices devs (traversalWord s 0) q) =
      (List.range (2 * (64 - q))).map fun j => s.answer (0 + 2 * (q + 1) + j) := by
  induction q with
  | zero => rw [activeDevices_zero]; exact hbus.split.2
  | succ q ih =>
    have h := ih (by omega)
    rw [show 64 - q = 64 - (q + 1) + 1 by omega] at h
    rw [activeDevices_succ, traversalWord_getLsbD s 0 (by omega)]
    exact (busAnswers_step h).2

theorem pair {q : Nat} (hq : q < 64) :
    traversalPair s 0 (q + 1) = busPair (activeDevices devs (traversalWord s 0) q) q := by
  have h := hbus.answers_from (Nat.le_of_lt hq)
  rw [show 64 - q = 63 - q + 1 by omega] at h
  exact (busAnswers_step h).1

theorem word_getLsbD {q : Nat} (hq : q < 64) : (traversalWord s 0).getLsbD q =
    masterDir s.ld.toNat (romWord s.rom) q (busPair (activeDevices devs (traversalWord s 0) q) q) := by
  rw [traversalWord_getLsbD s 0 hq, traversalDir, hbus.pair hq]
  rfl

/-- The master follows some active device at every position. -/
theorem active_ne_nil (hne : devs ≠ []) {q : Nat} (hq : q ≤ 64) : activeDevices devs (traversalWord s 0) q ≠ [] := by
  induction q with
  | zero => rwa [activeDevices_zero]
  | succ q ih =>
    obtain ⟨y, hy, hbit⟩ := exists_mem_masterDir (ih (by omega)) s.ld.toNat (romWord s.rom) q
    rw [activeDevices_succ, hbus.word_getLsbD (by omega)]
    exact List.ne_nil_of_mem (List.mem_filter.mpr ⟨hy, beq_iff_eq.mpr hbit⟩)

theorem pair_ne_silent (hne : devs ≠ []) {p : Nat} (h1 : 1 ≤ p) (h64 : p ≤ 64) : traversalPair s 0 p ≠ (true, true) := by
  obtain ⟨q, rfl⟩ : ∃ q, p = q + 1 := ⟨p - 1, by omega⟩
  rw [hbus.pair (by omega)]
  exact busPair_ne_silent (hbus.active_ne_nil hne (by omega)) q

/-- The address the traversal spells is a present one: the device active to the end. -/
theorem word_mem (hne : devs ≠ []) : traversalWord s 0 ∈ devs := by
  obtain ⟨y, hy⟩ := List.exists_mem_of_ne_nil _ (hbus.active_ne_nil hne le_rfl)
  obtain ⟨hmem, hagree⟩ := mem_activeDevices.mp hy
  exact eq_of_agreeBelow_64 hagree ▸ hmem

theorem word_active (hne : devs ≠ []) (q : Nat) : traversalWord s 0 ∈ activeDevices devs (traversalWord s 0) q :=
  mem_activeDevices.mpr ⟨hbus.word_mem hne, agreeBelow_refl _ q⟩

/-- The pair is (0,0) where both bits are among the active devices (R76). -/
theorem pair_eq_branch_iff {q : Nat} (hq : q < 64) : traversalPair s 0 (q + 1) = (false, false) ↔
    (∃ y ∈ activeDevices devs (traversalWord s 0) q, y.getLsbD q = false) ∧
    ∃ y ∈ activeDevices devs (traversalWord s 0) q, y.getLsbD q = true := by
  rw [hbus.pair hq, Prod.ext_iff, busPair_fst_eq_false, busPair_snd_eq_false]

/-- Where a device leaves the address found, the master chose at a discrepancy, by `LD` and `rom` (R138). -/
theorem branch (hne : devs ≠ []) {y : BitVec 64} (hy : y ∈ devs) {q : Nat} (hq : q < 64)
    (hagree : agreeBelow (traversalWord s 0) y q = true) (hdiff : (traversalWord s 0).getLsbD q ≠ y.getLsbD q) :
    (traversalWord s 0).getLsbD q =
      if q + 1 < s.ld.toNat then (romWord s.rom).getLsbD q else decide (q + 1 = s.ld.toNat) := by
  have hactive : y ∈ activeDevices devs (traversalWord s 0) q := mem_activeDevices.mpr ⟨hy, hagree⟩
  have hself := hbus.word_active hne q
  have hpair : traversalPair s 0 (q + 1) = (false, false) := by
    rw [hbus.pair_eq_branch_iff hq]
    cases hx : (traversalWord s 0).getLsbD q with
    | false => exact ⟨⟨_, hself, hx⟩, y, hactive, by simpa [hx] using hdiff.symm⟩
    | true => exact ⟨⟨y, hactive, by simpa [hx] using hdiff.symm⟩, _, hself, hx⟩
  rw [traversalWord_getLsbD s 0 hq, traversalDir, hpair]
  rfl

/-- A position is deferred where the address found has 0 and some device that agrees with it so far has 1 (R139). -/
theorem defers (hne : devs ≠ []) {q : Nat} (hq : q < 64) : traversalDefers s 0 (q + 1) =
    (!(traversalWord s 0).getLsbD q && devs.any fun y => y.getLsbD q && agreeBelow (traversalWord s 0) y q) := by
  rw [traversalDefers, ← traversalWord_getLsbD s 0 hq, Bool.and_comm]
  cases hx : (traversalWord s 0).getLsbD q with
  | true => rfl
  | false =>
    simp only [Bool.not_false, Bool.true_and]
    rw [Bool.eq_iff_iff, beq_iff_eq, hbus.pair_eq_branch_iff hq]
    simp only [mem_activeDevices, List.any_eq_true, Bool.and_eq_true]
    constructor
    · rintro ⟨-, y, ⟨hy, hagree⟩, hbit⟩
      exact ⟨y, hy, hbit, hagree⟩
    · rintro ⟨y, hy, hbit, hagree⟩
      exact ⟨⟨_, mem_activeDevices.mp (hbus.word_active hne q), hx⟩, y, ⟨hy, hagree⟩, hbit⟩

theorem last (hne : devs ≠ []) : traversalLast s 0 64 = lastDeferred devs (traversalWord s 0) := by
  have hrange : List.range' 1 64 = (List.range 64).map (· + 1) := rfl
  rw [traversalLast, lastDeferred, hrange, List.filter_map]
  refine congrArg (fun l : List Nat => (l.map (· + 1)).getLast?.getD 0) (List.filter_congr fun q hq => ?_)
  exact hbus.defers hne (List.mem_range.mp hq)

/-- On such a bus, with no device of address 0, SEARCH finds the address the traversal spells. -/
theorem finds (hne : devs ≠ []) (hzero : (0 : BitVec 64) ∉ devs) (hldf : s.ldf = false) : SearchFinds s 0 := by
  refine ⟨hldf, hbus.presence, fun p => hbus.pair_ne_silent hne, ?_⟩
  have hnonzero : traversalWord s 0 ≠ 0 := fun h => hzero (h ▸ hbus.word_mem hne)
  obtain ⟨q, hq, -, hdiff⟩ := exists_first_difference hnonzero
  exact ⟨q + 1, by omega, by omega, by simpa [traversalWord_getLsbD s 0 hq] using hdiff⟩

end State.wellBehaved

/-- `rom` then holds that address. -/
theorem FoundAfter.romWord {s t : State} {k : Nat} (ht : FoundAfter s t k) : romWord t.rom = traversalWord s k :=
  BitVec.eq_of_getLsbD_eq fun q hq => by
    rw [romWord_getLsbD _ _ hq, traversalWord_getLsbD s k hq, ht.rom _ (by omega) (by omega)]

end Sys2Proof.Machine
end

section
/-! SUPPORT. The search of a present address (41_rom_search.md R138, R146, R149): how the address found lies to the others. -/

namespace Sys2Proof.Machine

/-- The last of the positions 1..n whose index satisfies P, 0 if there is none: the shape of `lastDeferred`. -/
def lastPosition (P : Nat → Bool) (n : Nat) : Nat := (((List.range n).filter P).map (· + 1)).getLast?.getD 0

theorem lastPosition_succ (P : Nat → Bool) (n : Nat) :
    lastPosition P (n + 1) = if P n then n + 1 else lastPosition P n := by
  unfold lastPosition
  rw [List.range_succ, List.filter_append]
  cases h : P n <;> simp [h]

theorem exists_of_lastPosition_ne_zero {P : Nat → Bool} {n : Nat} (h : lastPosition P n ≠ 0) :
    ∃ q < n, lastPosition P n = q + 1 ∧ P q = true := by
  induction n with
  | zero => exact absurd rfl h
  | succ n ih =>
    rw [lastPosition_succ] at h ⊢
    by_cases hP : P n = true
    · exact ⟨n, by omega, if_pos hP, hP⟩
    · rw [if_neg hP] at h ⊢
      obtain ⟨q, hq, hlast, hPq⟩ := ih h
      exact ⟨q, by omega, hlast, hPq⟩

theorem le_lastPosition {P : Nat → Bool} {n q : Nat} (hq : q < n) (hP : P q = true) : q + 1 ≤ lastPosition P n := by
  induction n with
  | zero => omega
  | succ n ih =>
    rw [lastPosition_succ]
    split_ifs with hPn
    · omega
    · exact ih (Nat.lt_of_le_of_ne (by omega) fun heq => hPn (heq ▸ hP))

/-- The branch deferred last, where there is one: the address has 0 there and a device that agrees with it so far has 1. -/
theorem lastDeferred_spec {devs : List (BitVec 64)} {x : BitVec 64} (h : lastDeferred devs x ≠ 0) :
    ∃ q < 64, lastDeferred devs x = q + 1 ∧ x.getLsbD q = false ∧
      ∃ y ∈ devs, y.getLsbD q = true ∧ agreeBelow x y q = true := by
  obtain ⟨q, hq, hlast, hbranch⟩ := exists_of_lastPosition_ne_zero h
  exact ⟨q, hq, hlast, by simpa using hbranch⟩

/-- No branch is deferred after the last. -/
theorem le_lastDeferred {devs : List (BitVec 64)} {x y : BitVec 64} {q : Nat} (hq : q < 64) (hx : x.getLsbD q = false)
    (hy : y ∈ devs) (hbit : y.getLsbD q = true) (hagree : agreeBelow x y q = true) : q + 1 ≤ lastDeferred devs x :=
  le_lastPosition hq (by simpa [hx] using ⟨y, hy, hbit, hagree⟩)

/-- The family byte is the first eight bits of the address (20_memory.md R45). -/
theorem romWord_getLsbD_byteZero (rom : Vector Byte 8) {j : Nat} (hj : j < 8) :
    (romWord rom).getLsbD j = (romByte rom 0).getLsbD j := by
  rw [romWord_getLsbD rom j (by omega), romBit, Nat.add_sub_cancel, Nat.div_eq_of_lt hj, Nat.mod_eq_of_lt hj]

namespace State.wellBehaved

variable {s : State} {devs : List (BitVec 64)} (hbus : s.wellBehaved devs)
include hbus

/-- SEARCH on a well-behaved bus: it answers R = 1 with the address the traversal spells. -/
theorem exec_search (hne : devs ≠ []) (hzero : (0 : BitVec 64) ∉ devs) (hldf : s.ldf = false) (m : Bit) :
    ∃ t, exec (.search m) s = .next t ∧ t.rsp = some 0x00000100 ∧ romWord t.rom = traversalWord s 0 ∧
      t.ld.toNat = lastDeferred devs (romWord t.rom) ∧ (t.ldf = true ↔ t.ld = 0) := by
  obtain ⟨t, hexec, ht⟩ := (hbus.finds hne hzero hldf).outcome m
  exact ⟨t, hexec, ht.rsp, ht.romWord, by rw [ht.ld, ht.romWord, hbus.last hne], ht.ldf_iff⟩

/-- Beyond `LD` the master chooses 0, so the devices it leaves only there come later (R138). -/
theorem addressLt_of_agreeBelow_ld {y : BitVec 64} (hy : y ∈ devs) (hne : y ≠ traversalWord s 0)
    (hagree : agreeBelow (traversalWord s 0) y s.ld.toNat = true) : addressLt (traversalWord s 0) y := by
  obtain ⟨q, hq, hbelow, hdiff⟩ := exists_first_difference hne.symm
  have hld : s.ld.toNat < q + 1 := by
    by_contra hle
    exact hdiff (agreeBelow_iff.mp hagree q (by omega))
  have hbranch := hbus.branch (List.ne_nil_of_mem hy) hy hq hbelow hdiff
  rw [if_neg (by omega), decide_eq_false (by omega)] at hbranch
  exact addressLt_of_first_difference hq hbelow hbranch (by simpa [hbranch] using hdiff.symm)

/-- Before `LD` the master follows a present device as far as `rom` holds its bits (R138). -/
theorem replays {y : BitVec 64} (hy : y ∈ devs) {n : Nat} (hn : n < s.ld.toNat) (h64 : n ≤ 64)
    (hrom : agreeBelow (romWord s.rom) y n = true) : agreeBelow (traversalWord s 0) y n = true := by
  induction n with
  | zero => exact agreeBelow_iff.mpr fun j hj => absurd hj (Nat.not_lt_zero j)
  | succ n ih =>
    rw [agreeBelow_succ, Bool.and_eq_true, beq_iff_eq] at hrom ⊢
    obtain ⟨hbelow, hbit⟩ := hrom
    have hagree := ih (by omega) (by omega) hbelow
    refine ⟨hagree, by_contra fun hdiff => hdiff ?_⟩
    exact (hbus.branch (List.ne_nil_of_mem hy) hy (by omega) hagree hdiff).trans ((if_pos (by omega)).trans hbit)

/-- At the branch deferred last the master now chooses 1; before it, it follows `rom` (R138). -/
theorem takes_lastDeferred (hmem : romWord s.rom ∈ devs) {q : Nat} (hq : q < 64) (hld : s.ld.toNat = q + 1)
    (hbranch : ∃ y ∈ devs, y.getLsbD q = true ∧ agreeBelow (romWord s.rom) y q = true) :
    agreeBelow (romWord s.rom) (traversalWord s 0) q = true ∧ (traversalWord s 0).getLsbD q = true := by
  have hold := agreeBelow_comm (hbus.replays hmem (by omega) (by omega) (agreeBelow_refl _ q))
  obtain ⟨y, hy, hone, hagree⟩ := hbranch
  have hactive := hbus.replays hy (by omega) (by omega) hagree
  refine ⟨hold, by_contra fun hzero => ?_⟩
  have hdir := hbus.branch (List.ne_nil_of_mem hy) hy hq hactive (by rwa [hone])
  rw [if_neg (by omega), decide_eq_true hld.symm] at hdir
  exact hzero hdir

end State.wellBehaved

end Sys2Proof.Machine
end

section
open Sys2Proof Sys2Proof.Machine

/-- Settles O35: with `LD` = 0 every device the master leaves comes later. -/
theorem firstSearchFindsTheLeastAddress : Obligations.FirstSearchFindsTheLeastAddress := by
  unfold Obligations.FirstSearchFindsTheLeastAddress
  intro s m devs hne hzero hldf hld hbus
  obtain ⟨t, hexec, hrsp, hrom, hlast, hdone⟩ := hbus.exec_search hne hzero hldf m
  refine ⟨t, hexec, hrsp, hrom ▸ hbus.word_mem hne, fun y hy hyt => ?_, hlast, hdone⟩
  rw [hrom] at hyt ⊢
  exact hbus.addressLt_of_agreeBelow_ld hy hyt (by rw [hld]; rfl)

/-- Settles O36: the address found takes the 1 of the old address's last deferred branch. A later device leaves the old
address before that branch, and the address found with it, or it takes the same 1, and agrees with the address found through
`LD`. -/
theorem nextSearchFindsTheNextAddress : Obligations.NextSearchFindsTheNextAddress := by
  unfold Obligations.NextSearchFindsTheNextAddress
  intro s m devs hzero hmem hld hlast hldf hbus
  have hne := List.ne_nil_of_mem hmem
  obtain ⟨t, hexec, hrsp, hrom, hlast', hdone⟩ := hbus.exec_search hne hzero hldf m
  have hdeferred : lastDeferred devs (romWord s.rom) ≠ 0 := by
    rw [← hlast]
    exact fun h => hld (BitVec.eq_of_toNat_eq h)
  obtain ⟨b, hb, hlastb, holdb, hbranch⟩ := lastDeferred_spec hdeferred
  have hldb : s.ld.toNat = b + 1 := hlast.trans hlastb
  obtain ⟨hagree, hone⟩ := hbus.takes_lastDeferred hmem hb hldb hbranch
  refine ⟨t, hexec, hrsp, hrom ▸ hbus.word_mem hne, ?next, fun y hy hlt hyt => ?none, hlast', hdone⟩
  case next => exact hrom ▸ addressLt_of_first_difference hb hagree holdb hone
  case none =>
    rw [hrom] at hyt ⊢
    obtain ⟨q, hq, hagreey, holdq, hyq⟩ := addressLt_iff.mp hlt
    have hqb : q + 1 ≤ b + 1 := hlastb ▸ le_lastDeferred hq holdq hy hyq hagreey
    rcases Nat.lt_or_eq_of_le (Nat.le_of_succ_le_succ hqb) with hbefore | rfl
    · exact addressLt_of_leaves hagree hbefore hq hagreey holdq hyq
    · refine hbus.addressLt_of_agreeBelow_ld hy hyt ?_
      rw [hldb, agreeBelow_succ, agreeBelow_trans (agreeBelow_comm hagree) hagreey, hone, hyq]
      rfl

/-- Settles O37: the master follows a device of the family through the first eight positions, which lie before `LD` = 64. -/
theorem targetedFirstSearchFindsTheFamily : Obligations.TargetedFirstSearchFindsTheFamily := by
  unfold Obligations.TargetedFirstSearchFindsTheFamily
  rintro s s1 m d devs hzero ⟨y, hy, rfl⟩ hprime hbus
  obtain rfl := next_inj hprime
  obtain ⟨t, hexec, hrsp, hrom, -⟩ := hbus.exec_search (List.ne_nil_of_mem hy) hzero rfl m
  refine ⟨t, hexec, hrsp, hrom ▸ hbus.word_mem (List.ne_nil_of_mem hy), ?_⟩
  have hrom8 : agreeBelow (romWord (s.searchPrime (y.extractLsb' 0 8)).rom) y 8 = true :=
    agreeBelow_iff.mpr fun j hj => by
      rw [romWord_getLsbD_byteZero _ hj, romByte_searchPrime, if_pos rfl]; simp [hj]
  have hld : 8 < (s.searchPrime (y.extractLsb' 0 8)).ld.toNat := by rw [searchPrime_ld]; decide
  have hfamily := agreeBelow_iff.mp (hbus.replays hy hld (by omega) hrom8)
  refine BitVec.eq_of_getLsbD_eq fun j hj => ?_
  rw [← romWord_getLsbD_byteZero _ hj, hrom, hfamily j hj]
  simp [hj]

end

section
/-! SUPPORT. The CRC commands on their ranges (42_crc.md R162, R166, R168): a function of the bytes read, or the refusal. -/

namespace Sys2Proof.Machine

/-- CHKCRC16 names two ranges, and is refused when either leaves BUF (42_crc.md R168). -/
theorem execChkcrc16_refused {s : State} {a n c : Byte} {seed : Half}
    (h : a.toNat + n.toNat > 256 ∨ c.toNat + 2 > 256) : execChkcrc16 a n c seed s = rangeRefusal s := by
  rcases Nat.lt_or_ge 256 (a.toNat + n.toNat) with hdata | hdata
  · exact ofRange_refused hdata s _
  · have hc : c.toNat + 2 > 256 := h.resolve_left (by omega)
    exact (ofRange_runs hdata s _).trans (ofRange_refused hc s _)

end Sys2Proof.Machine
end

section
open Sys2Proof Sys2Proof.Machine

/-- Settles O43: inside BUF each command responds with its function of the bytes read, and that changes only the port. -/
theorem crcCommandsReportTheirFunction : Obligations.CrcCommandsReportTheirFunction := by
  unfold Obligations.CrcCommandsReportTheirFunction
  intro s a n c seed
  simp only [← memRead_eq_bytesAt]
  refine ⟨?crc8Word, ?crc16Word, ?chkcrc16Word, fun hout => ⟨ofRange_refused hout s _, ofRange_refused hout s _⟩,
    execChkcrc16_refused, fun hin => ofRange_runs hin s _, fun hin => ofRange_runs hin s _,
    fun hin hc => (ofRange_runs hin s _).trans (ofRange_runs hc s _)⟩
  case crc8Word =>
    exact commandWord_of_fits (Laws.EncodeFits.crc8 a n) rfl (fieldOP_layCmd ..) (by simp [Op.instr])
  case crc16Word =>
    exact commandWord_of_fits (Laws.EncodeFits.crc16 a n seed) rfl (fieldOP_layCmd ..) (by simp [Op.instr])
  case chkcrc16Word =>
    exact commandWord_of_fits (Laws.EncodeFits.chkcrc16 a n c seed) rfl (fieldOP_layCmd ..) (by simp [Op.instr])

end

section
/-! SUPPORT. The CRC updates as linear maps over exclusive-or (42_crc.md R160, R163, R164, R169): linearity step by step, and
that linear maps are equal when they agree on single bits. -/

namespace Sys2Proof.Machine

/-- Two xor-linear maps that agree on the single bits below k agree on every word with no bit at k or above. -/
theorem xorLinear_eq_below {w v : Nat} {f g : BitVec w → BitVec v} (hf : ∀ a b, f (a ^^^ b) = f a ^^^ f b)
    (hg : ∀ a b, g (a ^^^ b) = g a ^^^ g b) (hbits : ∀ i < w, f (1#w <<< i) = g (1#w <<< i)) {k : Nat} (hk : k ≤ w)
    {x : BitVec w} (hx : ∀ i, k ≤ i → x.getLsbD i = false) : f x = g x := by
  induction k generalizing x with
  | zero =>
    obtain rfl : x = 0 ^^^ 0 := BitVec.eq_of_getLsbD_eq fun i _ => by simp [hx i (Nat.zero_le i)]
    rw [hf, hg, BitVec.xor_self, BitVec.xor_self]
  | succ k ih =>
    cases htop : x.getLsbD k with
    | false => exact ih (by omega) fun i hi => (Nat.eq_or_lt_of_le hi).elim (fun h => h ▸ htop) (hx i)
    | true =>
      have hrest : f (x ^^^ 1#w <<< k) = g (x ^^^ 1#w <<< k) := ih (by omega) fun i hi => by
        rw [BitVec.getLsbD_xor, ← BitVec.twoPow_eq, BitVec.getLsbD_twoPow]
        rcases Nat.eq_or_lt_of_le hi with rfl | hlt
        · simp [htop]; omega
        · simp [hx i hlt]; omega
      rw [hf, hg, hbits k hk] at hrest
      exact (BitVec.xor_left_inj _).mp hrest

/-- A xor-linear map is fixed by its values on single bits. -/
theorem xorLinear_eq {w v : Nat} {f g : BitVec w → BitVec v} (hf : ∀ a b, f (a ^^^ b) = f a ^^^ f b)
    (hg : ∀ a b, g (a ^^^ b) = g a ^^^ g b) (hbits : ∀ i < w, f (1#w <<< i) = g (1#w <<< i)) (x : BitVec w) : f x = g x :=
  xorLinear_eq_below hf hg hbits le_rfl fun i hi => BitVec.getLsbD_of_ge x i hi

/-- A map xor-linear in a pair is fixed by its values on the single bits of each side. -/
theorem xorLinear_eq_pair {w u v : Nat} {f g : BitVec w → BitVec u → BitVec v}
    (hf : ∀ a b x y, f (a ^^^ b) (x ^^^ y) = f a x ^^^ f b y) (hg : ∀ a b x y, g (a ^^^ b) (x ^^^ y) = g a x ^^^ g b y)
    (hleft : ∀ i < w, f (1#w <<< i) 0#u = g (1#w <<< i) 0#u) (hright : ∀ i < u, f 0#w (1#u <<< i) = g 0#w (1#u <<< i))
    (a : BitVec w) (x : BitVec u) : f a x = g a x := by
  have hsplit (h : BitVec w → BitVec u → BitVec v) (hh : ∀ a b x y, h (a ^^^ b) (x ^^^ y) = h a x ^^^ h b y) :
      h a x = h a 0#u ^^^ h 0#w x := by
    rw [← hh, BitVec.xor_zero, BitVec.zero_xor]
  have ha : f a 0#u = g a 0#u := xorLinear_eq (f := (f · 0#u)) (g := (g · 0#u))
    (fun a b => by simpa using hf a b 0#u 0#u) (fun a b => by simpa using hg a b 0#u 0#u) hleft a
  have hx : f 0#w x = g 0#w x := xorLinear_eq
    (fun x y => by simpa using hf 0#w 0#w x y) (fun x y => by simpa using hg 0#w 0#w x y) hright x
  rw [hsplit f hf, hsplit g hg, ha, hx]

theorem xor_xor_xor_comm {w : Nat} (x y z u : BitVec w) : x ^^^ y ^^^ (z ^^^ u) = x ^^^ z ^^^ (y ^^^ u) := by
  ac_rfl

/-- The feedback of a shift register is linear in the register and the bit that decides on it. -/
theorem feedback_xor {w : Nat} (b c : Bool) (x y p : BitVec w) :
    (if b ^^ c then x ^^^ y ^^^ p else x ^^^ y) = (if b then x ^^^ p else x) ^^^ (if c then y ^^^ p else y) := by
  match b, c with
  | false, false => rfl
  | false, true => exact BitVec.xor_assoc x y p
  | true, false => show x ^^^ y ^^^ p = x ^^^ p ^^^ y; ac_rfl
  | true, true => show x ^^^ y = x ^^^ p ^^^ (y ^^^ p); rw [xor_xor_xor_comm, BitVec.xor_self, BitVec.xor_zero]

theorem crc8Bits_xor (k : Nat) (a b x y : Byte) :
    crc8Bits k (a ^^^ b) (x ^^^ y) = crc8Bits k a x ^^^ crc8Bits k b y := by
  induction k generalizing a b x y with
  | zero => rfl
  | succ k ih =>
    simp only [crc8Bits, xor_xor_xor_comm a b, BitVec.getLsbD_xor (x := a ^^^ x), BitVec.ushiftRight_xor_distrib,
      feedback_xor, ih]

theorem crc16Bits_xor (k : Nat) (a b : Half) (x y : Byte) :
    crc16Bits k (a ^^^ b) (x ^^^ y) = crc16Bits k a x ^^^ crc16Bits k b y := by
  induction k generalizing a b x y with
  | zero => rfl
  | succ k ih =>
    have hbit : ((a ^^^ b).getLsbD 0 ^^ (x ^^^ y).getLsbD 0) =
        ((a.getLsbD 0 ^^ x.getLsbD 0) ^^ (b.getLsbD 0 ^^ y.getLsbD 0)) := by simp [Bool.xor_left_comm]
    simp only [crc16Bits, hbit, BitVec.ushiftRight_xor_distrib, feedback_xor, ih]

theorem oddParity_xor (c d : BitVec 4) : oddParity (c ^^^ d) = (oddParity c ^^ oddParity d) := by
  revert c d; decide

theorem crc8Update_xor (a b x y : Byte) : crc8Update (a ^^^ b) (x ^^^ y) = crc8Update a x ^^^ crc8Update b y :=
  crc8Bits_xor 8 a b x y

theorem crc16Update_xor (a b : Half) (x y : Byte) :
    crc16Update (a ^^^ b) (x ^^^ y) = crc16Update a x ^^^ crc16Update b y :=
  crc16Bits_xor 8 a b x y

theorem crc16UpdateParity_xor (a b : Half) (x y : Byte) :
    crc16UpdateParity (a ^^^ b) (x ^^^ y) = crc16UpdateParity a x ^^^ crc16UpdateParity b y := by
  have hparity (c d : Half) : (oddParity ((c ^^^ d).extractLsb' 0 4) ^^ oddParity ((c ^^^ d).extractLsb' 4 4)) =
      ((oddParity (c.extractLsb' 0 4) ^^ oddParity (c.extractLsb' 4 4)) ^^
        (oddParity (d.extractLsb' 0 4) ^^ oddParity (d.extractLsb' 4 4))) := by
    simp [BitVec.extractLsb'_xor, oddParity_xor, Bool.xor_left_comm]
  simp only [crc16UpdateParity, BitVec.extractLsb'_xor (x := a), xor_xor_xor_comm x y, BitVec.truncate_eq_setWidth,
    BitVec.setWidth_xor, hparity, BitVec.ushiftRight_xor_distrib, BitVec.shiftLeft_xor_distrib, feedback_xor]
  ac_rfl

end Sys2Proof.Machine
end

section
open Sys2Proof Sys2Proof.Machine

/-- Settles O47: each step of the two shift registers is linear, so eight steps are. -/
theorem crcUpdatesAreLinear : Obligations.CrcUpdatesAreLinear :=
  ⟨crc8Update_xor, crc16Update_xor⟩

/-- Settles O46: both forms are linear, and they agree on the single bits of the accumulator and of the byte. -/
theorem crc16ParityFormAgrees : Obligations.Crc16ParityFormAgrees :=
  xorLinear_eq_pair crc16UpdateParity_xor crc16Update_xor (by decide) (by decide)

end

section
/-! SUPPORT. The 8-bit update is zero on equal registers only (42_crc.md R160, R161): the feedback sets the bit that the shift
cleared, so no step maps a word other than 0 to 0. -/

namespace Sys2Proof.Machine

/-- The byte run into itself is shifted out without feedback. -/
theorem crc8Bits_self (k : Nat) (x : Byte) : crc8Bits k x x = x >>> k := by
  induction k generalizing x with
  | zero => simp [crc8Bits]
  | succ k ih => simp [crc8Bits, ih, ← BitVec.shiftRight_add, Nat.add_comm]

theorem ushiftRight_one_eq_zero_iff {w : Nat} {a : BitVec w} (hbit : a.getLsbD 0 = false) : a >>> 1 = 0#w ↔ a = 0#w := by
  refine ⟨fun h => BitVec.eq_of_getLsbD_eq fun i _ => ?_, fun h => by simp [h]⟩
  cases i with
  | zero => simpa using hbit
  | succ i => simpa [Nat.add_comm] using congrArg (·.getLsbD i) h

theorem shift_feedback_eq_zero_iff (a : Byte) :
    (if a.getLsbD 0 then a >>> 1 ^^^ Config.params.crc8Poly else a >>> 1) = 0#8 ↔ a = 0#8 := by
  cases hbit : a.getLsbD 0 with
  | false => exact ushiftRight_one_eq_zero_iff hbit
  | true =>
    have htop : (a >>> 1 ^^^ Config.params.crc8Poly).getLsbD 7 = true := by simp [Config.params]
    refine iff_of_false (fun h => ?_) (fun h => ?_)
    · rw [if_pos rfl] at h; simp [h] at htop
    · simp [h] at hbit

theorem crc8Bits_zero_eq_zero_iff (k : Nat) (a : Byte) : crc8Bits k a 0#8 = 0#8 ↔ a = 0#8 := by
  induction k generalizing a with
  | zero => rfl
  | succ k ih =>
    rw [crc8Bits, BitVec.xor_zero, BitVec.zero_ushiftRight, ih]
    exact shift_feedback_eq_zero_iff a

theorem crc8Update_eq_zero_iff (acc x : Byte) : crc8Update acc x = 0#8 ↔ acc = x := by
  have hself : crc8Update x x = 0#8 := (crc8Bits_self 8 x).trans (BitVec.ushiftRight_eq_zero le_rfl)
  calc crc8Update acc x = 0#8
      ↔ crc8Update (acc ^^^ x) (x ^^^ x) = 0#8 := by rw [crc8Update_xor, hself, BitVec.xor_zero]
    _ ↔ acc ^^^ x = 0#8 := by rw [BitVec.xor_self]; exact crc8Bits_zero_eq_zero_iff 8 _
    _ ↔ acc = x := BitVec.xor_eq_zero_iff

theorem crc8_concat (bytes : List Byte) (b : Byte) : crc8 (bytes ++ [b]) = crc8Update (crc8 bytes) b := by
  simp [crc8]

end Sys2Proof.Machine
end

section
open Sys2Proof Sys2Proof.Machine

/-- Settles O44: the last update is of the crc8 so far by the byte, and is 0 exactly when they are equal. -/
theorem crc8OfASequenceWithItsCrcIsZero : Obligations.Crc8OfASequenceWithItsCrcIsZero := by
  unfold Obligations.Crc8OfASequenceWithItsCrcIsZero
  intro bytes b
  rw [crc8_concat]
  exact (crc8Update_eq_zero_iff _ b).trans eq_comm

end

section
/-! SUPPORT. A 16-bit word by its two bytes (42_crc.md R167). -/

namespace Sys2Proof.Machine

/-- A word laid out as two bytes, low byte first. -/
theorem append_eq_iff_bytes (hi lo : Byte) (c : Half) :
    hi ++ lo = c ↔ c.extractLsb' 0 8 = lo ∧ c.extractLsb' 8 8 = hi := by
  constructor
  · rintro rfl
    exact ⟨BitVec.extractLsb'_append_eq_right, BitVec.extractLsb'_append_eq_left⟩
  · rintro ⟨rfl, rfl⟩
    exact BitVec.extractLsb'_append_extractLsb'_eq_extractLsb' rfl |>.trans BitVec.extractLsb'_eq_self

end Sys2Proof.Machine
end

section
open Sys2Proof Sys2Proof.Machine

/-- Settles O45: the crc16 is a left fold from its seed. -/
theorem crc16ChainsThroughItsSeed : Obligations.Crc16ChainsThroughItsSeed :=
  ⟨fun _ _ _ => List.foldl_append, fun _ => rfl, fun _ _ _ => rfl⟩

/-- Settles O48: the check compares the complement byte by byte. -/
theorem checkCrc16AcceptsExactlyTheInvertedCrc : Obligations.CheckCrc16AcceptsExactlyTheInvertedCrc := by
  unfold Obligations.CheckCrc16AcceptsExactlyTheInvertedCrc
  intro bytes seed inv0 inv1
  simp only [checkCrc16, append_eq_iff_bytes, Bool.and_eq_true, beq_iff_eq]

set_option maxRecDepth 4000 in
/-- Settles O49: both functions evaluated. -/
theorem crcCheckValues : Obligations.CrcCheckValues := by
  unfold Obligations.CrcCheckValues
  decide

end

section
/-! SUPPORT. What a response leaves of BUF, and a byte in the V field (30_encoding.md R63). -/

namespace Sys2Proof.Machine

@[simp] theorem respond_bufByte (s : State) (st : Status) (r : Bit) (v : Half) (x : Nat) :
    (s.respond st r v).bufByte x = s.bufByte x := rfl

@[simp] theorem valueOfByte_toNat (b : Byte) : (valueOfByte b).toNat = b.toNat :=
  BitVec.toNat_setWidth_of_le (by decide)

end Sys2Proof.Machine
end

section
open Sys2Proof Sys2Proof.Machine

/-- Settles O50: the command is one `MemWrite` of one byte, then the response. -/
theorem bufwrStoresOneByte : Obligations.BufwrStoresOneByte := by
  unfold Obligations.BufwrStoresOneByte
  intro s a d
  refine ⟨commandWord_of_fits (Laws.EncodeFits.bufwr a d) rfl (fieldOP_layCmd ..) (by simp [Op.instr]),
    (s.setBufByte a.toNat d).respond .ok false 0, rfl, rfl, ?stored, fun x hx => ?others⟩
  case stored => rw [respond_bufByte, setBufByte_bufByte_same]
  case others => rw [respond_bufByte, setBufByte_bufByte_other s a.toNat x d hx]

/-- Settles O51: the response is the byte in V, and giving it changes only the port. -/
theorem bufrdLoadsOneByte : Obligations.BufrdLoadsOneByte := by
  unfold Obligations.BufrdLoadsOneByte
  intro s a
  refine ⟨commandWord_of_fits (Laws.EncodeFits.bufrd a) rfl (fieldOP_layCmd ..) (by simp [Op.instr]),
    packRsp .ok false (valueOfByte (s.bufByte a.toNat)), rfl, ?word⟩
  case word => simp [packRsp_ok_toNat]

end

section
/-! SUPPORT. How a step answers a word that spells nothing, and a well-formed command (60_exceptions.md R201 to R204). -/

namespace Sys2Proof.Machine

/-- A word the decoder turns away is taken and refused with its code (30_encoding.md R68). -/
theorem step_of_rejects {s : State} {w : Cmd64} {rest : List Cmd64} {r : Reject} (hidle : s.busy = false)
    (hword : s.cmds = w :: rest) (hdec : decodeCmd w = .error r) :
    step s = .next ((s.accept rest).refuse (rejectStatus r)) := by
  simp [step, hidle, hword, hdec]

/-- A host command whose ranges lie inside BUF takes the branch that runs, and that branch ends with status OK
(20_memory.md R44). -/
theorem exec_respondsOk {i : Instr} (s : State) (hwf : i.WellFormed) (hhost : i.wireByte = none) :
    ∃ (u : State) (r : Bit) (v : Half), exec i s = .next (u.respond .ok r v) := by
  cases i with
  | wbytes a n _ | rbytes a n | crc8 a n | crc16 a n _ =>
    have hrange : a.toNat + n.toNat ≤ 256 := hwf (a, n.toNat) (.head _)
    exact ⟨_, _, _, ofRange_runs hrange s _⟩
  | select a | rom2buf a =>
    have hrange : a.toNat + 8 ≤ 256 := hwf (a, 8) (.head _)
    exact ⟨_, _, _, ofRange_runs hrange s _⟩
  | chkcrc16 a n c _ =>
    have hdata : a.toNat + n.toNat ≤ 256 := hwf (a, n.toNat) (.head _)
    have hcrc : c.toNat + 2 ≤ 256 := hwf (c, 2) (.tail _ (.head _))
    exact ⟨_, _, _, (ofRange_runs hdata s _).trans (ofRange_runs hcrc s _)⟩
  | reset | wbit _ | rbit | wbyte _ _ | rbyte | skip | depower => exact ⟨_, _, _, rfl⟩
  | search _ | rstsrch | tgtsrch _ | rdss | bufwr _ _ | bufrd _ => exact ⟨_, _, _, rfl⟩
  | wireMatchRom | wireSkipRom | wireSearch | wireCondSearch => cases hhost

end Sys2Proof.Machine
end

section
open Sys2Proof Sys2Proof.Machine

/-- Settles O16: each command checks its range before it does anything else, so outside BUF it is `rangeRefusal`
(`ofRange_refused`, for either range of CHKCRC16 `execChkcrc16_refused`), and inside BUF it ends with status OK. -/
theorem outOfRangeCommandsAreRefused : Obligations.OutOfRangeCommandsAreRefused := by
  unfold Obligations.OutOfRangeCommandsAreRefused
  refine ⟨fun s a n p seed hout => ?counted, fun s a hout => ?eight, fun s a n c seed hout => ?twoRanges,
    fun s i hwf hhost => ?inside⟩
  case counted =>
    exact ⟨ofRange_refused hout s _, ofRange_refused hout s _, ofRange_refused hout s _, ofRange_refused hout s _⟩
  case eight => exact ⟨ofRange_refused hout s _, ofRange_refused hout s _⟩
  case twoRanges => exact execChkcrc16_refused hout
  case inside =>
    obtain ⟨u, r, v, hexec⟩ := exec_respondsOk s hwf hhost
    exact ⟨_, _, hexec, rfl, rspST_packRsp .ok r v⟩

/-- Settles O10: the decoder rejects the word with the reason that belongs to each clause, and the refusal of an accepted
word changes only the port. -/
theorem stepRefusesAWordThatSpellsNothing : Obligations.StepRefusesAWordThatSpellsNothing := by
  unfold Obligations.StepRefusesAWordThatSpellsNothing
  intro s w rest hidle hword
  exact ⟨fun hillegal => step_of_rejects hidle hword ((decodeCmd_eq_opcode_iff w).mpr hillegal),
    fun _ hop hne => step_of_rejects hidle hword (decodeCmd_of_mismatch hop hne)⟩

end

section
/-! SUPPORT. The lines of several instances (00_scope.md R5, 60_exceptions.md R213; log 16): reset and step leave the list of
them as it is. -/

namespace Sys2Proof.Machine

theorem step_line {s t : State} (h : step s = .next t) : t.line = s.line := by
  obtain ⟨-, ⟨-, rfl⟩ | ⟨_, _, _, -, -, rfl⟩ | ⟨_, rest, i, -, -, hexec⟩⟩ := step_cases h
  · rfl
  · rfl
  · obtain ⟨u, hnext, hsurroundings⟩ := exec_surroundings i (s.accept rest)
    obtain rfl := next_inj (hnext.symm.trans hexec)
    simp only [State.surroundings, Prod.mk.injEq] at hsurroundings
    obtain ⟨-, -, hline⟩ := hsurroundings
    exact hline

namespace Instances

theorem start_getElem? {n k : Nat} (h : k < n) : (start n)[k]? = some (State.resetOn k) := by
  simp [start, h]

theorem length_start (n : Nat) : (start n).length = n := by simp [start]

theorem wf_start (n : Nat) : (start n).wf := by
  simp [wf, start, Function.comp_def, State.resetOn]

/-- Being bound to the lines of their places is a matter of the list of lines alone. -/
theorem wf.of_lines {sys sys' : Instances} (hwf : sys.wf) (h : sys'.map State.line = sys.map State.line) : sys'.wf := by
  have hlength : sys'.length = sys.length := by simpa using congrArg List.length h
  exact h.trans (hlength ▸ hwf)

end Instances

theorem length_resetInstances (ks : List Nat) (sys : Instances) : (resetInstances ks sys).length = sys.length := by
  simp [resetInstances]

theorem resetInstances_lines (ks : List Nat) (sys : Instances) :
    (resetInstances ks sys).map State.line = sys.map State.line := by
  refine List.ext_getElem? fun k => ?_
  have hline : ∀ s : State, (if k ∈ ks then s.hwReset else s).line = s.line := fun s => by
    split_ifs
    · exact hwReset_line s
    · rfl
  simp [resetInstances_getElem?, Function.comp_def, hline]

theorem stepInstance_lines {k : Nat} {sys sys' : Instances} (h : stepInstance k sys = some sys') :
    sys'.map State.line = sys.map State.line := by
  obtain ⟨s, t, hs, ht, rfl⟩ := stepInstance_cases h
  obtain ⟨hk, rfl⟩ := List.getElem?_eq_some_iff.mp hs
  rw [List.map_set, step_line ht, ← List.getElem_map State.line (h := by simpa using hk), List.set_getElem_self]

end Sys2Proof.Machine
end

section
open Sys2Proof Sys2Proof.Machine

/-- Settles O57: the start and the resets are read off place by place (`resetInstances_getElem?`), and resets and steps leave
the list of lines as it is. -/
theorem instancesStartAndResetOnTheirOwnLines : Obligations.InstancesStartAndResetOnTheirOwnLines := by
  unfold Obligations.InstancesStartAndResetOnTheirOwnLines
  refine ⟨fun n k => Instances.start_getElem?, fun n => ⟨Instances.length_start n, Instances.wf_start n⟩,
    fun ks sys => ⟨length_resetInstances ks sys, fun k hk => ?others, fun k hk => ?reset⟩,
    fun ks sys hwf => hwf.of_lines (resetInstances_lines ks sys),
    fun k sys sys' hwf hstep => hwf.of_lines (stepInstance_lines hstep)⟩
  case others => simp [resetInstances_getElem?, hk]
  case reset => simp [resetInstances_getElem?, hk]

end

section
/-! SUPPORT. How long a traversal lasts (70_reset_and_hazards.md R237). -/

namespace Sys2Proof.Machine

/-- A triplet: two read slots of 66, and a write slot of 70, less 5 where it writes a 1. -/
theorem duration_triplets (pair : Nat → Bit × Bit) (dir : Nat → Bit) (l : List Nat) :
    duration (wireEvents (l.flatMap fun p => [.rslot (pair p).1, .rslot (pair p).2, .wslot (dir p)])) +
      5 * (l.filter dir).length = 202 * l.length := by
  induction l with
  | nil => rfl
  | cons p l ih =>
    simp only [List.flatMap_cons, wireEvents_append, wireEvents_cons, wireEvents_nil, List.append_nil, duration_append,
      duration_rslot, duration_wslot, List.filter_cons, List.length_cons]
    split_ifs
    · rw [List.length_cons]; omega
    · omega

theorem traversalOnes_le (s : State) (k n : Nat) : traversalOnes s k n ≤ n := by
  simpa [traversalOnes] using List.length_filter_le (traversalDir s k) (List.range' 1 n)

theorem duration_traversalItems (s : State) (k n : Nat) :
    duration (wireEvents (traversalItems s k n)) =
      n * 132 + 65 * traversalOnes s k n + 70 * (n - traversalOnes s k n) := by
  have htriplets : duration (wireEvents (traversalItems s k n)) + 5 * traversalOnes s k n = 202 * n := by
    simpa [traversalItems, traversalOnes] using
      duration_triplets (traversalPair s k) (traversalDir s k) (List.range' 1 n)
  have hle := traversalOnes_le s k n
  omega

/-- The command byte has five ones with m = 1, four with m = 0 (41_rom_search.md R134). -/
theorem duration_searchByte (m : Bit) :
    duration (wireEvents (byteItems (searchByte m) false)) = if m then 535 else 540 := by
  rw [duration_byteItems]
  cases m <;> rfl

/-- The gaps are not counted, so what the pad trace grows by tells how much longer it lasts. -/
theorem duration_of_padTrace {s t : State} {l : List PadEvent} (h : t.padTrace = s.padTrace ++ l) :
    duration t.trace = duration s.trace + duration l := by
  rw [← duration_dropGaps t.trace, ← duration_dropGaps s.trace, ← duration_append]
  exact congrArg duration h

end Sys2Proof.Machine
end

section
open Sys2Proof Sys2Proof.Machine

/-- Settles O38: the pad trace of a full traversal is known shape by shape (O32), and each shape lasts its own time. -/
theorem fullSearchDuration : Obligations.FullSearchDuration := by
  unfold Obligations.FullSearchDuration
  intro s m k hldf hpresence hpairs
  obtain ⟨t, hexec, -, -, hpad, -, -⟩ := searchResolvesAllPositions.2 s m k hldf hpresence hpairs
  refine ⟨t, hexec, ?_⟩
  rw [duration_of_padTrace hpad, wireEvents_append, wireEvents_append, duration_append, duration_append,
    duration_searchByte, duration_traversalItems, wireEvents_cons, wireEvents_nil, List.append_nil, duration_resetPulse]
  omega

end

section
/-! SUPPORT. Two runs of one command that differ in the gaps drawn and in the trace before it (93_implementation_defined.md U4).
The relation holds of their two starts; one lemma per operation of the model says that it is kept and that the operation
answers the same in both. -/

namespace Sys2Proof.Machine

/-- The state with the trace and the count of gaps drawn forgotten: all that a result can depend on. -/
def State.untraced (s : State) : State := { s with gapDraws := 0, trace := [] }

/-- s and s' stand at the same point of two runs whose gap-free traces were a and b: alike but for the trace and the gaps
drawn, and with the same gap-free events added. -/
structure GapTwins (a b : List PadEvent) (s s' : State) : Prop where
  untraced : s'.untraced = s.untraced
  events : ∃ ev, s.padTrace = a ++ ev ∧ s'.padTrace = b ++ ev

theorem LineRun.untraced {s t : State} {n : Nat} {l : List WireItem} (h : LineRun s t n l) :
    t.untraced = { s.untraced.consume n with oe := t.oe, out := t.out } := by
  conv_lhs => rw [h.eq]
  rfl

theorem LineRun.opReset_high {s : State} {k : Nat} (hk : k < 125) (hlow : ∀ i < k, s.answer i = false)
    (hhigh : s.answer k = true) : LineRun s (opReset s).2 (k + 2) [.resetPulse s.out k (s.answer (k + 1))] := by
  rw [Machine.opReset_high k s hk hlow hhigh]
  exact ⟨by simp, by simpa [WireItem.legal] using hk, rfl⟩

theorem LineRun.opReset_low {s : State} (hlow : ∀ i < 125, s.answer i = false) :
    LineRun s (opReset s).2 125 [.resetGiveUp s.out] := by
  rw [Machine.opReset_low s hlow]
  exact ⟨by simp, by simp [WireItem.legal], rfl⟩

namespace GapTwins

theorem start (s : State) (g : Nat) (tr : List PadEvent) :
    GapTwins s.padTrace (dropGaps tr) s { s with gapDraws := g, trace := tr } :=
  ⟨rfl, [], (List.append_nil _).symm, (List.append_nil _).symm⟩

variable {a b : List PadEvent} {s s' : State}

theorem eq (h : GapTwins a b s s') : s' = { s with gapDraws := s'.gapDraws, trace := s'.trace } :=
  congrArg (fun u : State => { u with gapDraws := s'.gapDraws, trace := s'.trace }) h.untraced

/-- Both runs read the same off the state, the trace and the gaps drawn left aside. -/
theorem read {α : Type} (h : GapTwins a b s s') (f : State → α) : f s'.untraced = f s.untraced := congrArg f h.untraced

theorem out (h : GapTwins a b s s') : s'.out = s.out := h.read State.out
theorem rom (h : GapTwins a b s s') : s'.rom = s.rom := h.read State.rom
theorem ld (h : GapTwins a b s s') : s'.ld = s.ld := h.read State.ld
theorem lfd (h : GapTwins a b s s') : s'.lfd = s.lfd := h.read State.lfd
theorem ldf (h : GapTwins a b s s') : s'.ldf = s.ldf := h.read State.ldf
theorem answer (h : GapTwins a b s s') : s'.answer = s.answer := h.read State.answer
theorem bufByte (h : GapTwins a b s s') : s'.bufByte = s.bufByte := h.read State.bufByte

theorem memRead (h : GapTwins a b s s') (x n : Nat) : s'.memRead x n = s.memRead x n := by
  rw [memRead_eq_map, memRead_eq_map, h.bufByte]

/-- A change that shows nothing on the pad, made in both runs. -/
theorem quiet {t t' : State} (h : GapTwins a b s s') (huntraced : t'.untraced = t.untraced) (htrace : t.trace = s.trace)
    (htrace' : t'.trace = s'.trace) : GapTwins a b t t' := by
  obtain ⟨ev, hev, hev'⟩ := h.events
  exact ⟨huntraced, ev, (congrArg dropGaps htrace).trans hev, (congrArg dropGaps htrace').trans hev'⟩

/-- Line activity that shows the same shapes, gaps left out, in both runs. -/
theorem lineRun {t t' : State} {n : Nat} {l l' : List WireItem} (h : GapTwins a b s s') (hrun : LineRun s t n l)
    (hrun' : LineRun s' t' n l') (hshapes : noGaps l' = noGaps l) : GapTwins a b t t' := by
  have hstart : (s'.oe, s'.out) = (s.oe, s.out) := h.read fun u => (u.oe, u.out)
  have hdriver : (t'.oe, t'.out) = (t.oe, t.out) := by
    rw [hrun'.driver_noGaps, hrun.driver_noGaps, hshapes, hstart]
  obtain ⟨hoe, hout⟩ := Prod.mk.inj hdriver
  obtain ⟨ev, hev, hev'⟩ := h.events
  refine ⟨?_, ev ++ wireEvents (noGaps l), ?_, ?_⟩
  · rw [hrun'.untraced, hrun.untraced, h.untraced, hoe, hout]
  · rw [hrun.padTrace, hev, List.append_assoc]
  · rw [hrun'.padTrace, hev', hshapes, List.append_assoc]

theorem respond (h : GapTwins a b s s') (st : Status) {r r' : Bit} {v v' : Half} (hr : r' = r) (hv : v' = v) :
    GapTwins a b (s.respond st r v) (s'.respond st r' v') := by
  subst hr hv
  exact h.quiet (congrArg (·.respond st r' v') h.untraced) rfl rfl

theorem respondOk (h : GapTwins a b s s') (v : Half) : GapTwins a b (s.respond .ok false v) (s'.respond .ok false v) :=
  h.respond .ok rfl rfl

/-- A command with a BUF range runs in both or is refused in both (20_memory.md R44). -/
theorem ofRange {t t' : State} (h : GapTwins a b s s') (c : Bool) (hruns : GapTwins a b t t') :
    GapTwins a b (if c then t else s.refuse .errRange) (if c then t' else s'.refuse .errRange) := by
  split_ifs
  · exact hruns
  · exact h.respond .errRange rfl rfl

theorem setBufByte (h : GapTwins a b s s') (x : Nat) (v : Byte) :
    GapTwins a b (s.setBufByte x v) (s'.setBufByte x v) :=
  h.quiet (congrArg (·.setBufByte x v) h.untraced) rfl rfl

theorem memWrite (h : GapTwins a b s s') (x : Nat) (vs : List Byte) :
    GapTwins a b (s.memWrite x vs) (s'.memWrite x vs) := by
  induction vs generalizing x s s' with
  | nil => exact h
  | cons v vs ih => exact ih (h.setBufByte x v) (x + 1)

theorem searchClear (h : GapTwins a b s s') : GapTwins a b s.searchClear s'.searchClear :=
  h.quiet (congrArg State.searchClear h.untraced) rfl rfl

theorem searchPrime (h : GapTwins a b s s') (d : Byte) : GapTwins a b (s.searchPrime d) (s'.searchPrime d) :=
  h.quiet (congrArg (·.searchPrime d) h.untraced) rfl rfl

theorem searchCommit (h : GapTwins a b s s') (lz : Nat) : GapTwins a b (searchCommit lz s) (searchCommit lz s') :=
  h.quiet (congrArg (Machine.searchCommit lz) h.untraced) rfl rfl

/-- The one place where the runs differ: each draws a gap of its own. -/
theorem gap (h : GapTwins a b s s') : GapTwins a b s.gap s'.gap := h.lineRun (gap_run s) (gap_run s') rfl

theorem gapUnless (h : GapTwins a b s s') (c : Prop) [Decidable c] :
    GapTwins a b (if c then s else s.gap) (if c then s' else s'.gap) := by
  split_ifs
  · exact h
  · exact h.gap

theorem release (h : GapTwins a b s s') : GapTwins a b (s.drive false s.out) (s'.drive false s'.out) :=
  h.lineRun (release_run s _) (release_run s' _) (by rw [h.out])

theorem opWbit (h : GapTwins a b s s') (v : Bit) : GapTwins a b (opWbit v s) (opWbit v s') :=
  h.lineRun (opWbit_run v s) (opWbit_run v s') rfl

theorem opRbit (h : GapTwins a b s s') : (opRbit s').1 = (opRbit s).1 ∧ GapTwins a b (opRbit s).2 (opRbit s').2 :=
  ⟨by rw [opRbit_fst, opRbit_fst, h.answer], h.lineRun (opRbit_run s) (opRbit_run s') (by rw [h.answer])⟩

theorem opWbyte (h : GapTwins a b s s') (d : Byte) (p : Bit) : GapTwins a b (opWbyte d p s) (opWbyte d p s') := by
  obtain ⟨_, hrun, hitems, -⟩ := opWbyte_run d p s
  obtain ⟨_, hrun', hitems', -⟩ := opWbyte_run d p s'
  exact h.lineRun hrun hrun' (hitems'.trans hitems.symm)

theorem opRbyte (h : GapTwins a b s s') : (opRbyte s').1 = (opRbyte s).1 ∧ GapTwins a b (opRbyte s).2 (opRbyte s').2 := by
  obtain ⟨⟨_, hrun, hitems⟩, hbits⟩ := opRbyte_run s
  obtain ⟨⟨_, hrun', hitems'⟩, hbits'⟩ := opRbyte_run s'
  rw [h.answer] at hitems' hbits'
  exact ⟨BitVec.eq_of_getLsbD_eq fun i hi => (hbits' i hi).trans (hbits i hi).symm,
    h.lineRun hrun hrun' (hitems'.trans hitems.symm)⟩

theorem writeBytes (h : GapTwins a b s s') (l : List Byte) (p : Bit) :
    GapTwins a b (writeBytes l p s) (writeBytes l p s') := by
  obtain ⟨_, hrun, hitems, -⟩ := writeBytes_run l p s
  obtain ⟨_, hrun', hitems', -⟩ := writeBytes_run l p s'
  exact h.lineRun hrun hrun' (hitems'.trans hitems.symm)

theorem readBytes (h : GapTwins a b s s') (k i x : Nat) : GapTwins a b (readBytes k i x s) (readBytes k i x s') := by
  induction k generalizing i x s s' with
  | zero => exact h
  | succ k ih =>
    obtain ⟨hbyte, hread⟩ := (h.gapUnless (i = 0)).opRbyte
    rw [Machine.readBytes, Machine.readBytes, hbyte]
    exact ih (hread.setBufByte x _) (i + 1) (x + 1)

/-- The reset polls and pulses alike, or gives up alike, since the answers are the same (R101). -/
theorem opReset (h : GapTwins a b s s') : (opReset s').1 = (opReset s).1 ∧ GapTwins a b (opReset s).2 (opReset s').2 := by
  have hanswer := h.answer
  rcases first_high s.answer 125 with ⟨k, hk, hlow, hhigh⟩ | hlow
  · have hlow' : ∀ i < k, s'.answer i = false := by rwa [hanswer]
    have hhigh' : s'.answer k = true := by rwa [hanswer]
    refine ⟨?_, h.lineRun (.opReset_high hk hlow hhigh) (.opReset_high hk hlow' hhigh') (by rw [hanswer, h.out])⟩
    rw [opReset_high k s hk hlow hhigh, opReset_high k s' hk hlow' hhigh', hanswer]
  · have hlow' : ∀ i < 125, s'.answer i = false := by rwa [hanswer]
    refine ⟨?_, h.lineRun (.opReset_low hlow) (.opReset_low hlow') (by rw [h.out])⟩
    rw [opReset_low s hlow, opReset_low s' hlow']

theorem searchResolve (h : GapTwins a b s s') (p : Nat) (x y d : Bit) :
    GapTwins a b (searchResolve p x y d s) (searchResolve p x y d s') := by
  have hstored : GapTwins a b
      { s with lfd := if deferred x y d && decide (p ≤ 8) then BitVec.ofNat 4 p else s.lfd, rom := setRomBit s.rom p d }
      { s' with lfd := if deferred x y d && decide (p ≤ 8) then BitVec.ofNat 4 p else s'.lfd, rom := setRomBit s'.rom p d } :=
    h.quiet (congrArg (fun u : State => { u with
      lfd := if deferred x y d && decide (p ≤ 8) then BitVec.ofNat 4 p else u.lfd, rom := setRomBit u.rom p d }) h.untraced)
      rfl rfl
  exact hstored.gap.opWbit d

/-- The traversal takes the same way at every position: the reads agree, and so do `LD` and `rom`. -/
theorem searchLoop (h : GapTwins a b s s') (k p lz : Nat) :
    (searchLoop k p lz s').ok = (searchLoop k p lz s).ok ∧ (searchLoop k p lz s').lz = (searchLoop k p lz s).lz ∧
      GapTwins a b (searchLoop k p lz s).st (searchLoop k p lz s').st := by
  induction k generalizing p lz s s' with
  | zero => exact ⟨rfl, rfl, h⟩
  | succ k ih =>
    obtain ⟨hfirst, hread⟩ := (h.gapUnless (p = 1)).opRbit
    obtain ⟨hsecond, hreads⟩ := hread.gap.opRbit
    simp only [Machine.searchLoop, hfirst, hsecond, hreads.ld, hreads.rom]
    generalize (Machine.opRbit (if p = 1 then s else s.gap)).1 = x
    generalize (Machine.opRbit (Machine.opRbit (if p = 1 then s else s.gap)).2.gap).1 = y
    by_cases hsilent : (x && y) = true
    · simp only [hsilent, if_true]
      exact ⟨trivial, trivial, hreads⟩
    · simp only [hsilent]
      exact ih (hreads.searchResolve p x y _) _ _

theorem searchFinish {w w' : Walk} (hok : w'.ok = w.ok) (hlz : w'.lz = w.lz) (h : GapTwins a b w.st w'.st) :
    (searchFinish w').1 = (searchFinish w).1 ∧ GapTwins a b (searchFinish w).2 (searchFinish w').2 := by
  have hcommit : GapTwins a b (if w.ok then Machine.searchCommit w.lz w.st else w.st)
      (if w.ok then Machine.searchCommit w.lz w'.st else w'.st) := by
    split_ifs
    · exact h.searchCommit w.lz
    · exact h
  simp only [Machine.searchFinish, hok, hlz, hcommit.rom]
  generalize (if w.ok then Machine.searchCommit w.lz w.st else w.st) = u at hcommit ⊢
  generalize (if w.ok then Machine.searchCommit w.lz w'.st else w'.st) = u' at hcommit ⊢
  split_ifs
  · exact ⟨rfl, hcommit.searchClear⟩
  · exact ⟨rfl, hcommit⟩

theorem searchRun (h : GapTwins a b s s') (m : Bit) :
    (searchRun m s').1 = (searchRun m s).1 ∧ GapTwins a b (searchRun m s).2 (searchRun m s').2 := by
  obtain ⟨hpresence, hreset⟩ := h.opReset
  simp only [Machine.searchRun, h.ldf, hpresence]
  generalize (if m then Config.params.cmdCondSearch else Config.params.cmdSearch) = byte
  split_ifs
  · exact ⟨rfl, h.searchClear⟩
  · obtain ⟨hok, hlz, hwalk⟩ := (hreset.gap.opWbyte byte false).searchLoop Config.params.romBits 1 0
    exact searchFinish hok hlz hwalk
  · exact ⟨rfl, hreset.searchClear⟩

end GapTwins

/-- Every instruction, run twice. -/
theorem exec_gapTwins {a b : List PadEvent} {s s' : State} (h : GapTwins a b s s') (i : Instr) :
    ∃ t t', exec i s = .next t ∧ exec i s' = .next t' ∧ GapTwins a b t t' := by
  cases i with
  | reset => exact ⟨_, _, rfl, rfl, h.opReset.2.respond .ok h.opReset.1 rfl⟩
  | wbit v => exact ⟨_, _, rfl, rfl, (h.opWbit v).respondOk _⟩
  | rbit => exact ⟨_, _, rfl, rfl, h.opRbit.2.respond .ok h.opRbit.1 rfl⟩
  | wbyte d p => exact ⟨_, _, rfl, rfl, (h.opWbyte d p).respondOk _⟩
  | rbyte => exact ⟨_, _, rfl, rfl, h.opRbyte.2.respond .ok rfl (congrArg valueOfByte h.opRbyte.1)⟩
  | wbytes x n p =>
    refine ⟨_, _, rfl, rfl, h.ofRange _ ?_⟩
    rw [h.memRead]
    exact (h.writeBytes _ p).respondOk _
  | rbytes x n => exact ⟨_, _, rfl, rfl, h.ofRange _ ((h.readBytes ..).respondOk _)⟩
  | select x =>
    refine ⟨_, _, rfl, rfl, h.ofRange _ ?_⟩
    rw [h.memRead]
    exact ((h.opWbyte _ false).writeBytes _ false).respondOk _
  | skip => exact ⟨_, _, rfl, rfl, (h.opWbyte _ false).respondOk _⟩
  | depower => exact ⟨_, _, rfl, rfl, h.release.respondOk _⟩
  | search m => exact ⟨_, _, rfl, rfl, (h.searchRun m).2.respond .ok (h.searchRun m).1 rfl⟩
  | rstsrch => exact ⟨_, _, rfl, rfl, h.searchClear.respondOk _⟩
  | tgtsrch d => exact ⟨_, _, rfl, rfl, (h.searchPrime d).respondOk _⟩
  | rdss => exact ⟨_, _, rfl, rfl, h.respond .ok h.ldf (by rw [h.ld, h.lfd])⟩
  | rom2buf x =>
    refine ⟨_, _, rfl, rfl, h.ofRange _ ?_⟩
    rw [h.rom]
    exact (h.memWrite ..).respondOk _
  | crc8 x n => exact ⟨_, _, rfl, rfl, h.ofRange _ (h.respond .ok rfl (by rw [h.memRead]))⟩
  | crc16 x n seed => exact ⟨_, _, rfl, rfl, h.ofRange _ (h.respond .ok rfl (by rw [h.memRead]))⟩
  | chkcrc16 x n c seed =>
    exact ⟨_, _, rfl, rfl, h.ofRange _ (h.ofRange _ (h.respond .ok (by rw [h.memRead, h.bufByte]) rfl))⟩
  | bufwr x d => exact ⟨_, _, rfl, rfl, (h.setBufByte _ d).respondOk _⟩
  | bufrd x => exact ⟨_, _, rfl, rfl, h.respond .ok rfl (by rw [h.bufByte])⟩
  | wireMatchRom | wireSkipRom | wireSearch | wireCondSearch => exact ⟨_, _, rfl, rfl, h.opWbyte _ false⟩

end Sys2Proof.Machine
end

section
open Sys2Proof Sys2Proof.Machine

/-- Settles O55: the two starts are twins, and every instruction keeps them so. -/
theorem gapsNeverAffectAResult : Obligations.GapsNeverAffectAResult := by
  unfold Obligations.GapsNeverAffectAResult
  intro i s g tr
  obtain ⟨t, t', hexec, hexec', htwins⟩ := exec_gapTwins (.start s g tr) i
  obtain ⟨ev, hev, hev'⟩ := htwins.events
  exact ⟨t, t', ev, hexec, hexec', htwins.eq, hev, hev'⟩

end

section
/-! SUPPORT. Hardware reset at any time (70_reset_and_hazards.md R220, R221; log 10). -/

namespace Sys2Proof.Machine

/-- The invariant speaks of none of the fields that reset keeps, so it holds as it does right after the first reset. -/
theorem hwReset_inv (s : State) : Inv s.hwReset :=
  have h : Inv State.reset := resetMeetsTheBoundaryInvariant
  { bufWf := h.bufWf, ldLe := h.ldLe, lfdLe := h.lfdLe, ldfLd := h.ldfLd, idle := h.idle, rspOk := h.rspOk,
    traceOk := h.traceOk }

end Sys2Proof.Machine
end

section
open Sys2Proof Sys2Proof.Machine

/-- Settles O2: each field is read off `State.hwReset`, a byte of the empty BUF is the free value of the new epoch, and the
invariant is `hwReset_inv`. -/
theorem hardwareResetTakesEveryStateToTheResetValues : Obligations.HardwareResetTakesEveryStateToTheResetValues := by
  unfold Obligations.HardwareResetTakesEveryStateToTheResetValues
  exact fun s => ⟨rfl, hwReset_oe s, hwReset_out s, hwReset_rsp s, hwReset_busy s, hwReset_rom s, hwReset_ld s,
    hwReset_lfd s, hwReset_ldf s, fun _ => rfl, hwReset_inv s⟩

/-- Settles O11: the branch of `step` for an empty command channel. -/
theorem stepWaitsWithoutACommand : Obligations.StepWaitsWithoutACommand := by
  unfold Obligations.StepWaitsWithoutACommand
  intro s hidle hempty
  simp [step, hidle, hempty]

end

section
/-! SUPPORT. The encoder and the decoder as inverses (30_encoding.md R61, R62): a word is its fields, and a word that matches a
row has a zero in every field the row's command does not use. -/

namespace Sys2Proof

/-- A word whose `RSV` field is 0 is laid out from its own fields (R61). -/
theorem layCmd_fields {w : Cmd64} (hrsv : w.extractLsb' 9 7 = 0) :
    layCmd (fieldS w) (fieldC w) (fieldN w) (fieldA w) (fieldD w) (fieldF w) (fieldOP w) = w := by
  have hF : BitVec.ofBool (fieldF w) = w.extractLsb' 8 1 := by
    apply BitVec.eq_of_getLsbD_eq
    intro i hi
    obtain rfl : i = 0 := by omega
    simp [fieldF]
  have hfields : layCmd (fieldS w) (fieldC w) (fieldN w) (fieldA w) (fieldD w) (fieldF w) (fieldOP w) =
      w.extractLsb' 48 16 ++ w.extractLsb' 40 8 ++ w.extractLsb' 32 8 ++ w.extractLsb' 24 8 ++ w.extractLsb' 16 8 ++
        (w.extractLsb' 9 7 ++ w.extractLsb' 8 1) ++ w.extractLsb' 0 8 := by
    rw [hrsv, ← hF]; rfl
  rw [hfields]
  iterate 7 rw [BitVec.extractLsb'_append_extractLsb'_eq_extractLsb']
  · exact BitVec.extractLsb'_eq_self
  all_goals rfl

namespace Op

variable {w : Cmd64} {o : Op}

/-- The patterns fix `OP` alone to a value other than 0. -/
theorem pattern_getLsbD (o : Op) {i : Nat} (hi : 8 ≤ i) : o.pattern.getLsbD i = false := by
  have hlt : o.pattern.toNat < 2 ^ 8 := by cases o <;> decide
  exact Nat.testBit_lt_two_pow (hlt.trans_le (Nat.pow_le_pow_right (by decide) hi))

/-- In a word that matches a row, the bits above `OP` that the mask covers are 0 (R62). -/
theorem getLsbD_of_match (h : w &&& o.mask = o.pattern) {i : Nat} (hi : 8 ≤ i) (hmask : o.mask.getLsbD i = true) :
    w.getLsbD i = false := by
  simpa [hmask, pattern_getLsbD o hi] using congrArg (·.getLsbD i) h

theorem extractLsb'_of_match (h : w &&& o.mask = o.pattern) {start len : Nat} (hstart : 8 ≤ start)
    (hmask : o.mask.extractLsb' start len = BitVec.allOnes len) : w.extractLsb' start len = 0 := by
  apply BitVec.eq_of_getLsbD_eq
  intro i hi
  have hbit : o.mask.getLsbD (start + i) = true := by simpa [hi] using congrArg (·.getLsbD i) hmask
  simp [getLsbD_of_match h (by omega) hbit]

/-- The instruction a matching word spells is encoded in that word: a field is an operand, or the mask covers it. -/
theorem encode_instr_of_match (h : w &&& o.mask = o.pattern) : encode (o.instr w) = .cmd64 w := by
  have hrsv : w.extractLsb' 9 7 = 0 := extractLsb'_of_match h (by decide) (by cases o <;> decide)
  calc encode (o.instr w)
      = .cmd64 (layCmd (fieldS w) (fieldC w) (fieldN w) (fieldA w) (fieldD w) (fieldF w) o.code) := by
        cases o <;> simp (disch := decide) only [encode, instr, code, fieldS, fieldC, fieldN, fieldA, fieldD, fieldF,
          extractLsb'_of_match h, getLsbD_of_match h]
    _ = .cmd64 w := by rw [← code_of_match h, layCmd_fields hrsv]

end Op

end Sys2Proof
end

section
/-! SUPPORT. The code of every instruction read back: a host command by its row, a wire row by its byte (30_encoding.md R62, R74). -/

namespace Sys2Proof

/-- The family of Laws/PerInstr.lean, over all instructions. -/
theorem Laws.EncodeFits.all : ∀ i : Instr, Statement i
  | .reset => reset
  | .wbit v => wbit v
  | .rbit => rbit
  | .wbyte d p => wbyte d p
  | .rbyte => rbyte
  | .wbytes a n p => wbytes a n p
  | .rbytes a n => rbytes a n
  | .select a => select a
  | .skip => skip
  | .depower => depower
  | .search m => search m
  | .rstsrch => rstsrch
  | .tgtsrch d => tgtsrch d
  | .rdss => rdss
  | .rom2buf a => rom2buf a
  | .crc8 a n => crc8 a n
  | .crc16 a n seed => crc16 a n seed
  | .chkcrc16 a n c seed => chkcrc16 a n c seed
  | .bufwr a d => bufwr a d
  | .bufrd a => bufrd a
  | .wireMatchRom => wireMatchRom
  | .wireSkipRom => wireSkipRom
  | .wireSearch => wireSearch
  | .wireCondSearch => wireCondSearch

/-- A command is laid out with its row's `OP` and its operands in their fields, where its row finds them again (R61). -/
theorem Instr.layout {i : Instr} {o : Op} (hrow : i.row = some o) :
    ∃ s c n a d f, encode i = .cmd64 (layCmd s c n a d f o.code) ∧ o.instr (layCmd s c n a d f o.code) = i := by
  cases i <;> cases hrow <;> exact ⟨_, _, _, _, _, _, rfl, by simp [Op.instr]⟩

namespace Machine

theorem exists_commandWord {i : Instr} {o : Op} (hrow : i.row = some o) : ∃ w, CommandWord i w o := by
  obtain ⟨_, _, _, _, _, _, hword, hinstr⟩ := Instr.layout hrow
  exact ⟨_, commandWord_of_fits (Laws.EncodeFits.all i) hword (fieldOP_layCmd ..) hinstr⟩

theorem CommandWord.decodeCode_encode {i : Instr} {w : Cmd64} {o : Op} (h : CommandWord i w o) :
    decodeCode (encode i) = some i := by
  obtain ⟨hword, -, hdec, -⟩ := h
  simp [hword, decodeCode, hdec, Except.toOption]

/-- The four bytes differ, so each is read back as its own row (R74). -/
theorem decodeCode_encode_of_wire {i : Instr} (hrow : i.row = none) : decodeCode (encode i) = some i := by
  cases i with
  | wireMatchRom | wireSkipRom | wireSearch | wireCondSearch => rfl
  | _ => cases hrow

end Machine

end Sys2Proof
end

section
open Sys2Proof Sys2Proof.Machine

/-- Settles O3: a command is read back from its command word, a wire row from its byte. -/
theorem decodeOfEncodeIsTheInstruction : Obligations.DecodeOfEncodeIsTheInstruction := by
  unfold Obligations.DecodeOfEncodeIsTheInstruction
  intro i
  cases hrow : i.row with
  | none => exact decodeCode_encode_of_wire hrow
  | some o =>
    obtain ⟨_, hcommand⟩ := exists_commandWord hrow
    exact hcommand.decodeCode_encode

/-- Settles O4: what the decoder accepts matches a row, and a matching word is the code of the instruction it spells. -/
theorem encodeOfDecodeIsTheWord : Obligations.EncodeOfDecodeIsTheWord := by
  unfold Obligations.EncodeOfDecodeIsTheWord
  intro w i hdec
  obtain ⟨herr, -⟩ | ⟨_, herr, -⟩ | ⟨o, hok, hmatch⟩ := decodeCmd_cases w
  · cases herr.symm.trans hdec
  · cases herr.symm.trans hdec
  · obtain rfl := Except.ok.inj (hok.symm.trans hdec)
    exact Op.encode_instr_of_match hmatch

end

section
/-! SUPPORT. What an instruction writes beside the line and the port, and that it is all it writes (10_state.md section 4,
20_memory.md section 1). `Blind` is a reading of the state that sees neither the line nor the port. -/

namespace Sys2Proof.Machine

/-- A reading that line activity and responses leave as it is: of the search state, of BUF. -/
structure Blind {α : Type} (f : State → α) : Prop where
  lineRun : ∀ {s t : State} {n : Nat} {l : List WireItem}, LineRun s t n l → f t = f s
  respond : ∀ (s : State) (st : Status) (r : Bit) (v : Half), f (s.respond st r v) = f s

namespace Blind

variable {α : Type} {f : State → α}

theorem opReset (hf : Blind f) (s : State) : f (opReset s).2 = f s := by
  rcases opReset_cases s with ⟨_, -, -, -, -, hrun⟩ | ⟨-, -, hrun⟩
  · exact hf.lineRun hrun
  · exact hf.lineRun hrun

theorem opWbyte (hf : Blind f) (d : Byte) (p : Bit) (s : State) : f (opWbyte d p s) = f s := by
  obtain ⟨_, hrun, -⟩ := opWbyte_run d p s
  exact hf.lineRun hrun

theorem opRbyte (hf : Blind f) (s : State) : f (opRbyte s).2 = f s := by
  obtain ⟨⟨_, hrun, -⟩, -⟩ := opRbyte_run s
  exact hf.lineRun hrun

theorem writeBytes (hf : Blind f) (l : List Byte) (p : Bit) (s : State) : f (writeBytes l p s) = f s := by
  obtain ⟨_, hrun, -⟩ := writeBytes_run l p s
  exact hf.lineRun hrun

theorem respond_of (hf : Blind f) {s t : State} (h : f t = f s) (st : Status) (r : Bit) (v : Half) :
    f (t.respond st r v) = f s := (hf.respond t st r v).trans h

/-- A command with a BUF range: what it keeps where it runs it keeps where it is refused. -/
theorem ofRange (hf : Blind f) {s t : State} (c : Bool) (hruns : f t = f s) :
    f (if c then t else s.refuse .errRange) = f s := ofRange_keeps f c hruns (hf.respond s .errRange false 0)

end Blind

/-- The state with what an instruction writes to the search state and to BUF written. -/
def written : Instr → State → State
  | .search m, s => (searchRun m s).2
  | .rstsrch, s => s.searchClear
  | .tgtsrch d, s => s.searchPrime d
  | .rbytes a n, s => readBytes n.toNat 0 a.toNat s
  | .rom2buf a, s => s.memWrite a.toNat s.rom.toList
  | .bufwr a d, s => s.setBufByte a.toNat d
  | .reset, s | .wbit _, s | .rbit, s | .wbyte _ _, s | .rbyte, s | .wbytes _ _ _, s | .select _, s | .skip, s => s
  | .depower, s | .rdss, s | .crc8 _ _, s | .crc16 _ _ _, s | .chkcrc16 _ _ _ _, s | .bufrd _, s => s
  | .wireMatchRom, s | .wireSkipRom, s | .wireSearch, s | .wireCondSearch, s => s

/-- A blind reading kept by what the instruction writes is kept by the instruction. -/
theorem exec_keeps {α : Type} {f : State → α} (hf : Blind f) {i : Instr} {s : State}
    (hwritten : f (written i s) = f s) : ∃ t, exec i s = .next t ∧ f t = f s := by
  cases i with
  | reset => exact ⟨_, rfl, hf.respond_of (hf.opReset s) ..⟩
  | wbit v => exact ⟨_, rfl, hf.respond_of (hf.lineRun (opWbit_run v s)) ..⟩
  | rbit => exact ⟨_, rfl, hf.respond_of (hf.lineRun (opRbit_run s)) ..⟩
  | wbyte d p => exact ⟨_, rfl, hf.respond_of (hf.opWbyte d p s) ..⟩
  | rbyte => exact ⟨_, rfl, hf.respond_of (hf.opRbyte s) ..⟩
  | wbytes a n p => exact ⟨_, rfl, hf.ofRange _ (hf.respond_of (hf.writeBytes _ p s) ..)⟩
  | rbytes a n | rom2buf a => exact ⟨_, rfl, hf.ofRange _ (hf.respond_of hwritten ..)⟩
  | select a =>
    have hrun := (hf.writeBytes (s.memRead a.toNat 8) false _).trans (hf.opWbyte Config.params.cmdMatchRom false s)
    exact ⟨_, rfl, hf.ofRange _ (hf.respond_of hrun ..)⟩
  | skip => exact ⟨_, rfl, hf.respond_of (hf.opWbyte _ false s) ..⟩
  | depower => exact ⟨_, rfl, hf.respond_of (hf.lineRun (release_run s s.out)) ..⟩
  | search m => exact ⟨_, rfl, hf.respond_of hwritten ..⟩
  | rstsrch | tgtsrch _ | bufwr _ _ => exact ⟨_, rfl, hf.respond_of hwritten ..⟩
  | rdss | bufrd _ => exact ⟨_, rfl, hf.respond ..⟩
  | crc8 _ _ | crc16 _ _ _ => exact ⟨_, rfl, hf.ofRange _ (hf.respond ..)⟩
  | chkcrc16 _ _ _ _ => exact ⟨_, rfl, hf.ofRange _ (hf.ofRange _ (hf.respond ..))⟩
  | wireMatchRom | wireSkipRom | wireSearch | wireCondSearch => exact ⟨_, rfl, hf.opWbyte _ false s⟩

/-- The search state (10_state.md R29). -/
def State.searchState (s : State) : Vector Byte 8 × BitVec 7 × BitVec 4 × Bit := (s.rom, s.ld, s.lfd, s.ldf)

theorem searchState_blind : Blind State.searchState where
  lineRun h := by rw [h.eq]; rfl
  respond _ _ _ _ := rfl

theorem searchState_memWrite (s : State) (a : Nat) (vs : List Byte) : (s.memWrite a vs).searchState = s.searchState := by
  rw [memWrite_spec]; rfl

theorem searchState_readBytes (k i a : Nat) (s : State) : (readBytes k i a s).searchState = s.searchState := by
  obtain ⟨⟨_, hrun, -⟩, -⟩ := readBytes_run k i a s
  exact (searchState_blind.lineRun hrun).trans rfl

theorem bufByte_blind (x : Nat) : Blind fun s => s.bufByte x where
  lineRun h := by rw [h.eq]; rfl
  respond _ _ _ _ := rfl

/-- Position by position: line activity and the search state (41_rom_search.md R135 to R140). -/
theorem bufByte_searchLoop (k p lz : Nat) (s : State) (x : Nat) : (searchLoop k p lz s).st.bufByte x = s.bufByte x := by
  induction k generalizing p lz s with
  | zero => rfl
  | succ k ih =>
    by_cases hsilent : s.answer 0 = true ∧ s.answer 1 = true
    · obtain ⟨t, _, hloop, hrun, -⟩ := searchLoop_silent k p lz s hsilent
      rw [hloop]
      exact (bufByte_blind x).lineRun hrun
    · obtain ⟨t, _, hloop, hrun, -⟩ := searchLoop_resolved k p lz s hsilent
      rw [hloop, ih]
      exact ((bufByte_blind x).lineRun hrun).trans rfl

theorem bufByte_searchFinish (w : Walk) (x : Nat) : (searchFinish w).2.bufByte x = w.st.bufByte x := by
  obtain ⟨ok, lz, t⟩ := w
  cases ok with
  | false => rw [searchFinish_aborted]; rfl
  | true =>
    by_cases hzero : t.rom = Vector.replicate 8 0
    · rw [searchFinish_zeros lz hzero]; rfl
    · rw [searchFinish_found lz hzero]; rfl

/-- SEARCH stores nothing to BUF, on any of its ways (41_rom_search.md R143). -/
theorem bufByte_searchRun (m : Bit) (s : State) (x : Nat) : (searchRun m s).2.bufByte x = s.bufByte x := by
  have hreset : (opReset s).2.bufByte x = s.bufByte x := (bufByte_blind x).opReset s
  cases hldf : s.ldf with
  | true => rw [searchRun_lastDevice m hldf]; rfl
  | false =>
    cases hpresence : (opReset s).1 with
    | false => rw [searchRun_noPresence m hldf hpresence]; exact hreset
    | true =>
      rw [searchRun_presence m hldf hpresence, bufByte_searchFinish, bufByte_searchLoop]
      exact ((bufByte_blind x).opWbyte (searchByte m) false _).trans hreset

/-- A range of addresses misses x where x lies on either side of it. -/
theorem outside_of_not_mem_range {a n x : Nat} (h : x ∉ (List.range n).map fun i => a + i) : x < a ∨ a + n ≤ x := by
  by_contra hin
  exact h (List.mem_map.mpr ⟨x - a, List.mem_range.mpr (by omega), by omega⟩)

/-- What an instruction writes leaves the bytes it does not store to. -/
theorem bufByte_written {i : Instr} {x : Nat} (hx : x ∉ bufWrites i) (s : State) :
    (written i s).bufByte x = s.bufByte x := by
  cases i with
  | search m => exact bufByte_searchRun m s x
  | rbytes a n =>
    obtain ⟨-, -, houtside, -⟩ := readBytes_run n.toNat 0 a.toNat s
    exact houtside x (outside_of_not_mem_range hx)
  | rom2buf a =>
    have hlen : s.rom.toList.length = 8 := by simp
    exact memWrite_bufByte_outside s _ _ x (by rw [hlen]; exact outside_of_not_mem_range hx)
  | bufwr a d => exact setBufByte_bufByte_other s _ x d (List.ne_of_not_mem_cons hx)
  | _ => rfl

end Sys2Proof.Machine
end

section
open Sys2Proof Sys2Proof.Machine

/-- Settles O52: of what an instruction writes, only SEARCH, RSTSRCH and TGTSRCH write the search state. -/
theorem onlySearchCommandsWriteTheSearchState : Obligations.OnlySearchCommandsWriteTheSearchState := by
  unfold Obligations.OnlySearchCommandsWriteTheSearchState
  intro i s t hexec hsearch hrstsrch htgtsrch
  have hwritten : (written i s).searchState = s.searchState := by
    cases i with
    | search m => exact absurd rfl (hsearch m)
    | rstsrch => exact absurd rfl hrstsrch
    | tgtsrch d => exact absurd rfl (htgtsrch d)
    | rbytes a n => exact searchState_readBytes _ 0 _ s
    | rom2buf a => exact searchState_memWrite s _ _
    | _ => rfl
  obtain ⟨u, hnext, hkept⟩ := exec_keeps searchState_blind hwritten
  obtain rfl := next_inj (hnext.symm.trans hexec)
  simpa only [State.searchState, Prod.mk.injEq] using hkept

/-- Settles O53: BUF is seen by neither the line nor the port, and what an instruction writes is in `bufWrites`. -/
theorem everyByteOutsideTheStoredOnesIsUnchanged : Obligations.EveryByteOutsideTheStoredOnesIsUnchanged := by
  unfold Obligations.EveryByteOutsideTheStoredOnesIsUnchanged
  intro i s t hexec x hx
  obtain ⟨u, hnext, hkept⟩ := exec_keeps (bufByte_blind x) (bufByte_written hx s)
  exact next_inj (hnext.symm.trans hexec) ▸ hkept

end
